-- ==== Sys2Proof/Word.lean ====
section
/-! DEFINITION. The word types of the block: bytes of the memory port, 16-bit source channels, 32-bit registers. -/

namespace Sys2Proof

/-- One byte of the memory space (R60) and one output sample (R62). -/
abbrev Byte := BitVec 8

/-- A raw source channel as the PIX_B/G/R registers hold it (R43) and as a 2-byte field forms it (R63). -/
abbrev Half := BitVec 16

/-- A 32-bit register of the window (R20) and a command word (R91). -/
abbrev Word := BitVec 32

end Sys2Proof
end

