-- ==== Sys2Proof/Syntax.lean ====
section
/-! DEFINITION. The commands of the opcode map (R92), one constructor per row of the opcode table. -/

namespace Sys2Proof

/-- The four commands of R92. No command carries an operand: every operand comes from a fixed register, which the
issue's snapshot captures (R94). -/
inductive Instr where
  /-- NOP, command word 0x00000000 (R110). -/
  | nop
  /-- CFG, command word 0x00000001 (R111). -/
  | cfg
  /-- CONV, command word 0x00000002 (R130). -/
  | conv
  /-- PIX, command word 0x00000003 (R175). -/
  | pix
  deriving DecidableEq, Repr

end Sys2Proof
end

