-- ==== Sys2Proof/Config.lean ====
section
/-! DEFINITION. The implementation parameters of R7, the platform's map of what is not ordinary memory, and the free
byte that stands for every byte value the spec leaves open. -/

namespace Sys2Proof

/-- `KERNEL_ARITH` (R7, D12): the arithmetic of the pixel kernel. -/
inductive KernelArith where
  /-- Exact rational arithmetic (R167), the value this spec takes. -/
  | exact
  /-- IEEE 754 binary32 in the order of R168. -/
  | binary32
  deriving DecidableEq, Repr

/-- The parameters a model takes as arguments (R7). They are fixed for a machine: no step and no reset changes them. -/
structure Params where
  /-- `ADDR_W`: width in bits of a memory byte address; legal values 1..32 (D15). -/
  addrW : Nat
  /-- `KERNEL_ARITH` (D12). -/
  arith : KernelArith
  /-- `NAN_BYTE`: the output byte for a NaN pre-rounding value (R170, D14). -/
  nanByte : Byte
  deriving DecidableEq, Repr

/-- The values this spec takes (R7): `ADDR_W = 32`, `KERNEL_ARITH = EXACT`, `NAN_BYTE = 0`. -/
def Params.spec : Params := { addrW := 32, arith := .exact, nanByte := 0 }

/-- A range of byte addresses `base .. base + size - 1` of the memory space that is NOT ordinary memory (R62, R72):
device registers, or nothing at all. Which ranges these are is the platform's choice (R71). -/
structure Region where
  base : Nat
  size : Nat
  deriving DecidableEq, Repr

/-- The free byte: what the `n`-th draw of an unspecified byte gives. The spec draws one where the host reads a
destination byte of a CONV that it has not yet seen completed (R76, R225) and for every destination byte of a CONV that a reset abandons (R221).
It has no body, so nothing can be proved of its value. DESIGN CHOICE, safe (assumption 7). -/
opaque Config.freeByte : Nat → Byte

end Sys2Proof
end

