-- ==== Sys2Proof/Machine/Port.lean ====
section
/-! DEFINITION. The host's side of the block: the register window's names and offsets (R20), what the host can do at the
register port and the memory port (R8, R96), and whose turn it is to move (R8, R230). -/

namespace Sys2Proof.Machine

/-- The registers of the window (R20), under their own names. -/
inductive Reg where
  | cmd | status | srcType | dstFmt | convertYuv | precision | srcWidth | srcHeight
  | active | dstWidth | dstHeight
  | srcBase | srcStride | dst0Base | dst0Stride | dst1Base | dst2Base | dstUvStride
  | pixB | pixG | pixR | pixOut
  deriving DecidableEq, Repr

/-- The byte offset of each register in the window (R20's table). -/
def Reg.offset : Reg → Nat
  | .cmd => 0x00
  | .status => 0x04
  | .srcType => 0x08
  | .dstFmt => 0x0C
  | .convertYuv => 0x10
  | .precision => 0x14
  | .srcWidth => 0x18
  | .srcHeight => 0x1C
  | .active => 0x20
  | .dstWidth => 0x24
  | .dstHeight => 0x28
  | .srcBase => 0x2C
  | .srcStride => 0x30
  | .dst0Base => 0x34
  | .dst0Stride => 0x38
  | .dst1Base => 0x3C
  | .dst2Base => 0x40
  | .dstUvStride => 0x44
  | .pixB => 0x48
  | .pixG => 0x4C
  | .pixR => 0x50
  | .pixOut => 0x54

/-- Every register of R20's table, in the table's order. -/
def Reg.all : List Reg :=
  [.cmd, .status, .srcType, .dstFmt, .convertYuv, .precision, .srcWidth, .srcHeight,
   .active, .dstWidth, .dstHeight,
   .srcBase, .srcStride, .dst0Base, .dst0Stride, .dst1Base, .dst2Base, .dstUvStride,
   .pixB, .pixG, .pixR, .pixOut]

/-- The register at a byte offset of the window; `none` at a reserved offset (R45). -/
def Reg.ofOffset (offset : Nat) : Option Reg := Reg.all.find? fun r => r.offset == offset

/-- One access at the register port: its byte offset in the window and its width in bytes. Only aligned 4-byte accesses
inside the 0x100-byte window belong to the interface (R20). -/
structure RegAccess where
  offset : Nat
  bytes : Nat
  deriving DecidableEq, Repr

/-- What the host can do in one move (R8, R96). -/
inductive HostAction where
  /-- A write at the register port; the value is the written word (`WR`, `CMDW`). -/
  | regWrite (a : RegAccess) (value : Word)
  /-- A read at the register port (`RD`). -/
  | regRead (a : RegAccess)
  /-- `WAIT`: read STATUS until bit 1 (DONE) reads 1. One move is one poll. -/
  | wait
  /-- The host writes bytes at consecutive memory addresses, lowest first (`MEMW`). -/
  | memWrite (addr : Nat) (bytes : List Byte)
  /-- The host reads `n` bytes from consecutive memory addresses, lowest first (`MEMR`). -/
  | memRead (addr n : Nat)
  deriving DecidableEq, Repr

/-- What a read gave the host. The block holds no such record: it is the model's own, so that a statement can speak of
what the host sees. -/
inductive Observation where
  | reg (offset : Nat) (value : Word)
  | mem (addr : Nat) (bytes : List Byte)
  deriving DecidableEq, Repr

/-- Who moves in a step. The host and the engine interleave in any order (R8); reset comes from the platform (R220). -/
inductive Turn where
  /-- The host performs the next action of its program. -/
  | host
  /-- The engine completes the command in flight (R90, R230). -/
  | engine
  /-- Power-on or the platform's reset signal (R220, R221). -/
  | reset
  deriving DecidableEq, Repr

/-- The outcomes a command can report in STATUS.ERR (R200). -/
inductive CmdErr where
  | ok
  | unsupportedSourceType
  | unsupportedFormat
  | invalidPrecision
  | invalidGeometry
  | notConfigured
  | illegalCommand
  deriving DecidableEq, Repr

end Sys2Proof.Machine
end

