-- ==== Sys2Proof/WellFormed.lean ====
section
/-! DEFINITION. What is well formed: commands (always), command words (R93), parameter values (R7), accesses at the
register port (R20). -/

namespace Sys2Proof

/-- A command has no operand to check (R94): every command is well formed. -/
def Instr.wf : Instr → Bool
  | .nop => true
  | .cfg => true
  | .conv => true
  | .pix => true

/-- A legal command word: RSV is zero and OP is one of 0..3 (R92, R93). -/
def commandWordWf (w : Word) : Bool := w.extractLsb' 4 28 == 0 && (w.extractLsb' 0 4).toNat < 4

/-- Legal parameter values (R7): `ADDR_W` in 1..32. `KERNEL_ARITH` and `NAN_BYTE` are legal by their types. -/
def Params.wf (p : Params) : Bool := 1 ≤ p.addrW && p.addrW ≤ 32

/-- A register access of the interface (R20): 4 bytes wide, word-aligned, inside the 0x100-byte window. -/
def Machine.RegAccess.wf (a : Machine.RegAccess) : Bool :=
  a.bytes == 4 && a.offset % 4 == 0 && a.offset < 0x100

end Sys2Proof
end

