-- ==== Sys2Proof/Decode.lean ====
section
/-! DEFINITION. The decoder of command words (R91, R92, R93), total on any word and any bytes, and the encoder. -/

namespace Sys2Proof

/-- Why bits are no command: who answers with it is the decoder; the hardware then reports ILLEGAL_COMMAND (R93). -/
inductive DecodeError where
  /-- Fewer than the four bytes of a CMD32 word (R91). The register port delivers whole words, so only `decodeBytes`
  answers with it. -/
  | truncated
  /-- Bits 31:4 are not zero, whatever OP is (R93). -/
  | reservedBits (rsv : BitVec 28)
  /-- OP is one of 0x4..0xF (R92, R93). -/
  | reservedOpcode (op : BitVec 4)
  deriving DecidableEq, Repr

/-- OP, bits 3:0 of a command word (R91). -/
def opField (w : Word) : BitVec 4 := w.extractLsb' 0 4

/-- RSV, bits 31:4 of a command word (R91). -/
def rsvField (w : Word) : BitVec 28 := w.extractLsb' 4 28

/-- The opcode map (R92) with the reserved-bit check (R93), on the two fields of CMD32. -/
def decodeFields (op : BitVec 4) (rsv : BitVec 28) : Except DecodeError Instr :=
  if rsv ≠ 0 then .error (.reservedBits rsv)
  else if op = 0x0 then .ok .nop
  else if op = 0x1 then .ok .cfg
  else if op = 0x2 then .ok .conv
  else if op = 0x3 then .ok .pix
  else .error (.reservedOpcode op)

/-- A decoder reads one 32-bit word per command (R91). -/
def decodeWord (w : Word) : Except DecodeError Instr := decodeFields (opField w) (rsvField w)

/-- The word whose little-endian bytes are `b0 b1 b2 b3`, lowest address first (R20). -/
def wordOfBytes (b0 b1 b2 b3 : Byte) : Word :=
  b0.setWidth 32 ||| b1.setWidth 32 <<< 8 ||| b2.setWidth 32 <<< 16 ||| b3.setWidth 32 <<< 24

/-- The little-endian bytes of a word, lowest address first (R20). -/
def wordBytes (w : Word) : List Byte :=
  [w.extractLsb' 0 8, w.extractLsb' 8 8, w.extractLsb' 16 8, w.extractLsb' 24 8]

/-- Decode the command at the head of a byte list and give the rest of the list. -/
def decodeBytes : List Byte → Except DecodeError (Instr × List Byte)
  | b0 :: b1 :: b2 :: b3 :: rest =>
    match decodeWord (wordOfBytes b0 b1 b2 b3) with
    | .ok i => .ok (i, rest)
    | .error e => .error e
  | _ => .error .truncated

/-- The word that `w`'s low `nbits` bits stand for, every bit above them zero. -/
def tableWord (nbits w : Nat) : Word := BitVec.ofNat 32 (w % 2 ^ nbits)

/-- The command this decoder reads from the opcode table's numbering of bits: the bytes of the word as the register port
carries them (R20), given to `decodeBytes`. `none` where it refuses. -/
def decodeTableWord (nbits w : Nat) : Option Instr :=
  match decodeBytes (wordBytes (tableWord nbits w)) with
  | .ok (i, _) => some i
  | .error _ => none

/-- The command word of each command (R92): RSV zero, OP as the opcode map has it. -/
def encode : Instr → Word
  | .nop => 0x00000000
  | .cfg => 0x00000001
  | .conv => 0x00000002
  | .pix => 0x00000003

/-- The command word as the register port's bytes (R20). -/
def encodeBytes (i : Instr) : List Byte := wordBytes (encode i)

end Sys2Proof
end

