-- ==== Sys2Proof/Machine/State.lean ====
section
/-! DEFINITION. The machine's state as plain data: every register of the window (R20), the engine's phase with the
command snapshot (R46, R90), the memory the block shares with the host (R60), and the model's own fields for the host,
the platform and the free draws. -/

namespace Sys2Proof.Machine

/-- The configuration argument registers (R27 to R32), each with its stored bits. -/
structure Args where
  /-- SRC_TYPE, offset 0x08 (R27). -/
  srcType : Word
  /-- DST_FMT, offset 0x0C (R28). -/
  dstFmt : Word
  /-- CONVERT_YUV, offset 0x10: bit 0 only (R29). -/
  convertYuv : Bool
  /-- PRECISION, offset 0x14 (R30). -/
  precision : Word
  /-- SRC_WIDTH, offset 0x18 (R31). -/
  srcWidth : Word
  /-- SRC_HEIGHT, offset 0x1C (R32). -/
  srcHeight : Word
  deriving DecidableEq, Repr

/-- The fields of ACTIVE, offset 0x20 (R33). -/
structure Active where
  /-- PREC, bits 1:0. -/
  prec : BitVec 2
  /-- CVT, bit 2. -/
  cvt : Bool
  /-- PACKED, bit 3. -/
  packed : Bool
  /-- PSHIFT, bits 7:4. -/
  pshift : BitVec 4
  /-- FMT, bits 11:8. -/
  fmt : BitVec 4
  deriving DecidableEq, Repr

/-- The buffer address and stride registers (R36 to R42). -/
structure Buffers where
  /-- SRC_BASE, offset 0x2C (R36). -/
  srcBase : Word
  /-- SRC_STRIDE, offset 0x30 (R37). -/
  srcStride : Word
  /-- DST0_BASE, offset 0x34 (R38). -/
  dst0Base : Word
  /-- DST0_STRIDE, offset 0x38 (R39). -/
  dst0Stride : Word
  /-- DST1_BASE, offset 0x3C (R40). -/
  dst1Base : Word
  /-- DST2_BASE, offset 0x40 (R41). -/
  dst2Base : Word
  /-- DSTUV_STRIDE, offset 0x44 (R42). -/
  dstUvStride : Word
  deriving DecidableEq, Repr

/-- The single-pixel registers PIX_B, PIX_G, PIX_R, offsets 0x48, 0x4C, 0x50: bits 15:0 (R43). -/
structure PixIn where
  b : Half
  g : Half
  r : Half
  deriving DecidableEq, Repr

/-- The snapshot `c` that the issue of a command takes (R90). -/
structure Command where
  op : BitVec 4
  rsv : BitVec 28
  active : Active
  dstWidth : Word
  dstHeight : Word
  cfgValid : Bool
  bufs : Buffers
  pix : PixIn
  args : Args
  deriving DecidableEq, Repr

/-- The engine's phase (R46). STATUS.BUSY is 1 exactly when the phase is `busy`, so BUSY has its home here. -/
inductive Phase where
  | idle
  | busy (c : Command)
  deriving DecidableEq, Repr

/-- The memory space (R60): the bytes that differ from what an unlisted address reads as, addresses strictly rising. -/
abbrev Memory := List Host.Cell

/-- Why the machine stops for good: a host-duty violation (R207), after which the spec gives the run no meaning. All
are safe: they stop where the hardware goes on. -/
inductive Fault where
  /-- Duty 1 of R132: an address of SrcBytes or of the destination set is above 2^ADDR_W − 1. Raised when the CONV is
  issued, and by CONV itself. Safe. -/
  | convAddressAboveSpace
  /-- Duty 2 of R132, R70(b) and (c): a destination stride is below its minimum. Raised as above. Safe. -/
  | convStrideTooSmall
  /-- Duty 2 of R132, R70(a): a source byte is a destination byte. Raised as above. Safe. -/
  | convSourceOverlapsDestination
  /-- Duty 2 of R132, R70(c): two planes share a sample byte. Raised as above. Safe. -/
  | convPlanesOverlap
  /-- Duty 3 of R132: a source or destination byte is not ordinary memory. Raised as above. Safe. -/
  | convNotOrdinaryMemory
  /-- Duty 4 of R132, R76: the host writes a byte that the engine owns. Raised by the host's memory write. Safe. -/
  | hostWritesOwnedByte
  /-- R207(c): a register access that is sub-word, unaligned, wider than 32 bits or outside the window. Safe. -/
  | badRegisterAccess
  /-- The host names a memory address above 2^ADDR_W − 1, which the space does not have (R60). Safe. -/
  | hostAddressAboveSpace
  deriving DecidableEq, Repr

/-- Why the model gives a move no meaning. All are safe: the machine stops. -/
inductive Refusal where
  /-- An instruction of the opcode table without a meaning yet. Raised by no arm of `exec`. Safe. -/
  | notModelled (mnemonic : String)
  /-- The host reads or writes an address that the platform says is not ordinary memory: what answers there is a device
  the spec does not describe (R71, R72). Raised by the host's memory accesses. Safe. -/
  | hostAccessesDevice
  deriving DecidableEq, Repr

/-- The whole machine. -/
structure State where
  /-- The parameters of R7 (the model's field: fixed for a machine; DESIGN CHOICE, assumption 2). -/
  params : Params
  /-- The ranges that are not ordinary memory (the model's field: the platform's map, R62, R71, R72; DESIGN
  CHOICE, assumption 5). -/
  devices : List Region
  /-- SRC_TYPE .. SRC_HEIGHT (R27 to R32). -/
  args : Args
  /-- ACTIVE (R33). -/
  active : Active
  /-- DST_WIDTH, offset 0x24 (R34). -/
  dstWidth : Word
  /-- DST_HEIGHT, offset 0x28 (R35). -/
  dstHeight : Word
  /-- SRC_BASE .. DSTUV_STRIDE (R36 to R42). -/
  bufs : Buffers
  /-- PIX_B, PIX_G, PIX_R (R43). -/
  pix : PixIn
  /-- PIX_OUT, offset 0x54: bits 23:0 (R44). -/
  pixOut : BitVec 24
  /-- STATUS.DONE (R23). -/
  done : Bool
  /-- STATUS.CFG_VALID (R24). -/
  cfgValid : Bool
  /-- STATUS.ERR (R25). -/
  err : BitVec 4
  /-- The engine's phase and its snapshot (R46); STATUS.BUSY (R22). -/
  phase : Phase
  /-- The memory space the block shares with the host (R60). It is no state of the block (R48): DESIGN CHOICE,
  assumption 16. -/
  mem : Memory
  /-- The host's program: the actions it will take, next first (the model's field; R8, R47; DESIGN CHOICE,
  assumption 6). -/
  host : List HostAction
  /-- Whose turn it is in the coming steps; after the last one the engine moves while it is BUSY, and the host
  otherwise (the model's field; R8, R230; DESIGN CHOICE, assumption 6). -/
  turns : List Turn
  /-- What the host's reads gave, newest first (the model's field; DESIGN CHOICE, assumption 6). -/
  observed : List Observation
  /-- The CONV whose completion the host has not yet seen: its snapshot, from its completion until the host reads STATUS
  with DONE = 1 (the model's field; R78, R225; assumption 22). -/
  awaited : Option Command
  /-- Destination bytes of earlier CONVs whose DONE = 1 the host never read and can no longer read (the model's field;
  R78, R225; assumption 22). -/
  missed : List Nat
  /-- How many free bytes have been drawn (the model's field; R76, R221; DESIGN CHOICE, assumption 7). -/
  draws : Nat
  deriving DecidableEq, Repr

/-- The argument registers at reset: all zero (R220). -/
def Args.zero : Args :=
  { srcType := 0, dstFmt := 0, convertYuv := false, precision := 0, srcWidth := 0, srcHeight := 0 }

/-- ACTIVE = 0: at reset (R220), and whenever CFG_VALID = 0 (R33). -/
def Active.zero : Active := { prec := 0, cvt := false, packed := false, pshift := 0, fmt := 0 }

/-- The address and stride registers at reset: all zero (R220). -/
def Buffers.zero : Buffers :=
  { srcBase := 0, srcStride := 0, dst0Base := 0, dst0Stride := 0, dst1Base := 0, dst2Base := 0, dstUvStride := 0 }

/-- PIX_B, PIX_G, PIX_R at reset: zero (R220). -/
def PixIn.zero : PixIn := { b := 0, g := 0, r := 0 }

/-- The machine right after reset (R220): every register 0 and the phase IDLE. The parameters are this spec's (R7), no
address is a device, memory lists nothing, and the host has no program yet. -/
def State.reset : State :=
  { params := Params.spec
    devices := []
    args := Args.zero
    active := Active.zero
    dstWidth := 0
    dstHeight := 0
    bufs := Buffers.zero
    pix := PixIn.zero
    pixOut := 0
    done := false
    cfgValid := false
    err := 0
    phase := .idle
    mem := []
    host := []
    turns := []
    observed := []
    awaited := none
    missed := []
    draws := 0 }

end Sys2Proof.Machine
end

