-- ==== Sys2Proof/Machine/Flags.lean ====
section
/-! DEFINITION. STATUS and the other words the host reads, as views of the fields of State, and the one way a command
writes its outcome. -/

namespace Sys2Proof.Machine

/-- A word whose bit `pos` is `b` and whose other bits are 0. -/
def bitAt (b : Bool) (pos : Nat) : Word := (BitVec.ofBool b).setWidth 32 <<< pos

/-- A word that holds a field with its bit 0 at bit `pos`, every other bit 0. -/
def fieldAt {n : Nat} (f : BitVec n) (pos : Nat) : Word := f.setWidth 32 <<< pos

/-- The code of each outcome in STATUS.ERR (R200). -/
def CmdErr.code : CmdErr → BitVec 4
  | .ok => 0
  | .unsupportedSourceType => 1
  | .unsupportedFormat => 2
  | .invalidPrecision => 3
  | .invalidGeometry => 4
  | .notConfigured => 5
  | .illegalCommand => 6

/-- STATUS.BUSY = 1 exactly when the phase is BUSY(c) (R46, R22). -/
def Phase.isBusy : Phase → Bool
  | .idle => false
  | .busy _ => true

/-- STATUS as the host reads it: BUSY bit 0, DONE bit 1, CFG_VALID bit 2, ERR bits 11:8, every other bit 0 (R22 to
R26). -/
def State.statusWord (s : State) : Word :=
  bitAt s.phase.isBusy 0 ||| bitAt s.done 1 ||| bitAt s.cfgValid 2 ||| fieldAt s.err 8

/-- ACTIVE as the host reads it (R33): `PREC | CVT << 2 | PACKED << 3 | PSHIFT << 4 | FMT << 8` (R116). -/
def Active.word (a : Active) : Word :=
  fieldAt a.prec 0 ||| bitAt a.cvt 2 ||| bitAt a.packed 3 ||| fieldAt a.pshift 4 ||| fieldAt a.fmt 8

/-- CONVERT_YUV as the host reads it: bit 0 stored, bits 31:1 zero (R29). -/
def Args.convertYuvWord (a : Args) : Word := bitAt a.convertYuv 0

/-- A 16-bit register of R43 as the host reads it: bits 31:16 zero. -/
def halfWord (h : Half) : Word := fieldAt h 0

/-- PIX_OUT as the host reads it: bits 31:24 zero (R44). -/
def State.pixOutWord (s : State) : Word := fieldAt s.pixOut 0

/-- Write an outcome code to STATUS.ERR, and nothing else: success, or `raise CmdError(code)` (R10, R25). -/
def State.setErr (e : CmdErr) (s : State) : State := { s with err := e.code }

/-- What every completion does after the command's rule has run (R90): BUSY 0 and phase IDLE, DONE 1. -/
def State.finish (s : State) : State := { s with phase := .idle, done := true }

end Sys2Proof.Machine
end

