-- ==== Sys2Proof/Machine/Layout.lean ====
section
/-! DEFINITION. Where a CONV's bytes lie: the source addresses (R65) and the byte sets a CONV reads and writes (R67 to
R69), as functions of the snapshot alone. -/

namespace Sys2Proof.Machine

/-- `P` = ACTIVE.PREC (R65). -/
def Command.P (c : Command) : Nat := c.active.prec.toNat

/-- `S` = ACTIVE.PSHIFT (R65). -/
def Command.S (c : Command) : Nat := c.active.pshift.toNat

/-- `W` = DST_WIDTH (R65). -/
def Command.W (c : Command) : Nat := c.dstWidth.toNat

/-- `H` = DST_HEIGHT (R67). -/
def Command.H (c : Command) : Nat := c.dstHeight.toNat

/-- `pixAddr(i, x) = sb + i*ss + (x << S)`, an exact unbounded integer (R61, R65). -/
def Command.pixAddr (c : Command) (i x : Nat) : Nat :=
  c.bufs.srcBase.toNat + i * c.bufs.srcStride.toNat + (x <<< c.S)

/-- `chanAddr(i, x, k) = pixAddr(i, x) + k*P`, with k = 0 for B, 1 for G, 2 for R (R65). -/
def Command.chanAddr (c : Command) (i x k : Nat) : Nat := c.pixAddr i x + k * c.P

/-- The logical pixels (row i, column x) in the reference order: rows from 0 up, columns from 0 up (R131). -/
def Command.pixels (c : Command) : List (Nat × Nat) :=
  (List.range c.H).flatMap fun i => (List.range c.W).map fun x => (i, x)

/-- `SrcBytes` (R67): the bytes a CONV reads. -/
def Command.srcBytes (c : Command) : List Nat :=
  c.pixels.flatMap fun p => (List.range (3 * c.P)).map fun j => c.pixAddr p.1 p.2 + j

/-- `DstBytesPacked` (R68). -/
def Command.packedBytes (c : Command) : List Nat :=
  (List.range c.H).flatMap fun m => (List.range c.bufs.dst0Stride.toNat).map fun j =>
    c.bufs.dst0Base.toNat + m * c.bufs.dst0Stride.toNat + j

/-- The sample bytes of a plane of W × H samples at `base` with the given stride (R69). -/
def Command.planeBytes (c : Command) (base stride : Word) : List Nat :=
  c.pixels.map fun p => base.toNat + p.1 * stride.toNat + p.2

/-- The Y plane's sample bytes (R69). -/
def Command.yBytes (c : Command) : List Nat := c.planeBytes c.bufs.dst0Base c.bufs.dst0Stride

/-- The U plane's sample bytes (R69). -/
def Command.uBytes (c : Command) : List Nat := c.planeBytes c.bufs.dst1Base c.bufs.dstUvStride

/-- The V plane's sample bytes (R69). -/
def Command.vBytes (c : Command) : List Nat := c.planeBytes c.bufs.dst2Base c.bufs.dstUvStride

/-- `DstBytesPlanar` (R69). -/
def Command.planarBytes (c : Command) : List Nat := c.yBytes ++ c.uBytes ++ c.vBytes

/-- The command's destination set (R132): `DstBytesPacked` when PACKED = 1, `DstBytesPlanar` when PACKED = 0. -/
def Command.dstBytes (c : Command) : List Nat :=
  if c.active.packed then c.packedBytes else c.planarBytes

/-- Whether an address is in `SrcBytes`, decided pixel by pixel. -/
def Command.inSrc (c : Command) (a : Nat) : Bool :=
  c.pixels.any fun p => c.pixAddr p.1 p.2 ≤ a && a < c.pixAddr p.1 p.2 + 3 * c.P

/-- Whether an address is in `DstBytesPacked`, the byte range `[db, db + H × ds)` (R68). -/
def Command.inPacked (c : Command) (a : Nat) : Bool :=
  c.bufs.dst0Base.toNat ≤ a && a < c.bufs.dst0Base.toNat + c.H * c.bufs.dst0Stride.toNat

/-- Whether an address is a sample byte of a plane, decided row by row. -/
def Command.inPlane (c : Command) (base stride : Word) (a : Nat) : Bool :=
  (List.range c.H).any fun i =>
    base.toNat + i * stride.toNat ≤ a && a < base.toNat + i * stride.toNat + c.W

/-- Whether an address is in the command's destination set. -/
def Command.inDst (c : Command) (a : Nat) : Bool :=
  if c.active.packed then c.inPacked a
  else c.inPlane c.bufs.dst0Base c.bufs.dst0Stride a
    || c.inPlane c.bufs.dst1Base c.bufs.dstUvStride a
    || c.inPlane c.bufs.dst2Base c.bufs.dstUvStride a

end Sys2Proof.Machine
end

