-- ==== Sys2Proof/Machine/Ops.lean ====
section
/-! DEFINITION. The named operations: reading and writing memory, reading and writing registers, issuing a command and
completing it with an error code (the block has no trap: R204 makes this its counterpart), and reset. -/

namespace Sys2Proof.Machine

/-- What an unlisted address reads as. 95_test_vectors.md section 6 starts its programs with it; the rules give memory
no reset contents. DESIGN CHOICE, unsafe (assumption 1). -/
def Memory.unlisted : Byte := 0

/-- `MemRead(a, 1)` (R10). -/
def Memory.read : Memory → Nat → Byte
  | [], _ => Memory.unlisted
  | (k, b) :: rest, a => if a = k then b else Memory.read rest a

/-- `MemWrite(a, 1, [v])` (R10), keeping the canonical form: writing what an unlisted address reads as removes the
entry. -/
def Memory.write : Memory → Nat → Byte → Memory
  | [], a, v => if v = Memory.unlisted then [] else [(a, v)]
  | (k, b) :: rest, a, v =>
    if a < k then
      if v = Memory.unlisted then (k, b) :: rest else (a, v) :: (k, b) :: rest
    else if a = k then
      if v = Memory.unlisted then rest else (a, v) :: rest
    else (k, b) :: Memory.write rest a v

/-- The canonical form: addresses strictly rising, no entry equal to what an unlisted address reads as. -/
def Memory.wf : Memory → Bool
  | [] => true
  | (k, b) :: rest => b != Memory.unlisted && rest.all (fun c => k < c.1) && Memory.wf rest

/-- No entry at or above the address `n`. -/
def Memory.below (m : Memory) (n : Nat) : Bool := m.all fun c => c.1 < n

/-- `MemRead(a, n)`: n bytes, lowest address first (R10). -/
def Memory.readBytes (m : Memory) (a n : Nat) : List Byte := (List.range n).map fun j => m.read (a + j)

/-- `MemWrite(a, n, bs)`: the bytes of a list, lowest address first (R10). -/
def Memory.writeBytes (m : Memory) (a : Nat) : List Byte → Memory
  | [] => m
  | b :: bs => Memory.writeBytes (m.write a b) (a + 1) bs

/-- The 16-bit value of two bytes, `{hi, lo}`: the byte at the lower address supplies bits 7:0 (R63). -/
def le16 (hi lo : Byte) : Half := hi.setWidth 16 <<< 8 ||| lo.setWidth 16

/-- Write free draws `k`, `k + 1`, … to the addresses of a list, one each (R221). -/
def Memory.drawAt (m : Memory) (k : Nat) : List Nat → Memory
  | [] => m
  | a :: as => Memory.drawAt (m.write a (Config.freeByte k)) (k + 1) as

/-- The snapshot `c` of R90 for the command word `w`: the word's two fields and the registers as they stand. -/
def State.snapshot (s : State) (w : Word) : Command :=
  { op := opField w, rsv := rsvField w
    active := s.active, dstWidth := s.dstWidth, dstHeight := s.dstHeight, cfgValid := s.cfgValid
    bufs := s.bufs, pix := s.pix, args := s.args }

/-- The destination bytes of the CONV whose DONE = 1 the host has yet to read. -/
def State.awaitedBytes (s : State) : List Nat :=
  match s.awaited with
  | none => []
  | some c => c.dstBytes

/-- DONE is lost before the host has read it as 1, by the next issue (R23) or a reset (R220): what the host has not seen
completed it can no longer see completed, so those bytes stay unspecified to it (R78, R225; assumption 22). -/
def State.loseDone (s : State) : State := { s with awaited := none, missed := s.awaitedBytes ++ s.missed }

/-- The host has read DONE = 1 of the last command: that command's bytes, and no others, are visible to every read that
follows (R78(2), R225). -/
def State.deliver (s : State) : State :=
  match s.awaited with
  | none => s
  | some c => { s with awaited := none, missed := s.missed.filter fun a => !c.inDst a }

/-- What a host read of STATUS means for the reads that follow: with DONE = 1 it delivers the last command's writes
(R78(2)). No register changes (R49). -/
def State.statusRead (s : State) : State := if s.done then s.deliver else s

/-- What the issue of a command does to the block (R90): BUSY 1 with the snapshot in the phase, DONE 0, ERR 0. -/
def State.issue (w : Word) (s : State) : State :=
  { s.loseDone with phase := .busy (s.snapshot w), done := false, err := 0 }

/-- The command whose rule the engine runs: the one in flight. In an idle block it is the command `w` issued now, from
the registers as they stand: DESIGN CHOICE, safe (assumption 4). -/
def State.commandFor (s : State) (w : Word) : Command :=
  match s.phase with
  | .busy c => c
  | .idle => s.snapshot w

/-- The state in which the engine runs a command's rule: the one with the command in flight. In an idle block the command
`w` is issued now: DESIGN CHOICE, safe (assumption 4). -/
def State.begun (w : Word) (s : State) : State :=
  match s.phase with
  | .busy _ => s
  | .idle => s.issue w

/-- `raise CmdError(code)` at completion: ERR takes the code, then the command completes (R10, R90, R204). -/
def State.completeWith (e : CmdErr) (s : State) : State := (s.setErr e).finish

/-- A host read of the register at a window offset; a reserved offset reads 0 (R20, R45) and so does CMD (R21). -/
def State.readReg (s : State) (offset : Nat) : Word :=
  match Reg.ofOffset offset with
  | none => 0
  | some .cmd => 0
  | some .status => s.statusWord
  | some .srcType => s.args.srcType
  | some .dstFmt => s.args.dstFmt
  | some .convertYuv => s.args.convertYuvWord
  | some .precision => s.args.precision
  | some .srcWidth => s.args.srcWidth
  | some .srcHeight => s.args.srcHeight
  | some .active => s.active.word
  | some .dstWidth => s.dstWidth
  | some .dstHeight => s.dstHeight
  | some .srcBase => s.bufs.srcBase
  | some .srcStride => s.bufs.srcStride
  | some .dst0Base => s.bufs.dst0Base
  | some .dst0Stride => s.bufs.dst0Stride
  | some .dst1Base => s.bufs.dst1Base
  | some .dst2Base => s.bufs.dst2Base
  | some .dstUvStride => s.bufs.dstUvStride
  | some .pixB => halfWord s.pix.b
  | some .pixG => halfWord s.pix.g
  | some .pixR => halfWord s.pix.r
  | some .pixOut => s.pixOutWord

/-- A host write while BUSY = 0 to a register other than CMD: an RW register stores its stored bits and discards the
rest; a read-only register and a reserved offset ignore it (R49, R45). -/
def State.storeReg (s : State) (r : Reg) (v : Word) : State :=
  match r with
  | .srcType => { s with args := { s.args with srcType := v } }
  | .dstFmt => { s with args := { s.args with dstFmt := v } }
  | .convertYuv => { s with args := { s.args with convertYuv := v.getLsbD 0 } }
  | .precision => { s with args := { s.args with precision := v } }
  | .srcWidth => { s with args := { s.args with srcWidth := v } }
  | .srcHeight => { s with args := { s.args with srcHeight := v } }
  | .srcBase => { s with bufs := { s.bufs with srcBase := v } }
  | .srcStride => { s with bufs := { s.bufs with srcStride := v } }
  | .dst0Base => { s with bufs := { s.bufs with dst0Base := v } }
  | .dst0Stride => { s with bufs := { s.bufs with dst0Stride := v } }
  | .dst1Base => { s with bufs := { s.bufs with dst1Base := v } }
  | .dst2Base => { s with bufs := { s.bufs with dst2Base := v } }
  | .dstUvStride => { s with bufs := { s.bufs with dstUvStride := v } }
  | .pixB => { s with pix := { s.pix with b := v.setWidth 16 } }
  | .pixG => { s with pix := { s.pix with g := v.setWidth 16 } }
  | .pixR => { s with pix := { s.pix with r := v.setWidth 16 } }
  | .cmd | .status | .active | .dstWidth | .dstHeight | .pixOut => s

/-- Reset's effect on the block (R220): every register 0 and the phase IDLE; memory, the parameters, the platform and
the host stay as they are. -/
def State.clearRegisters (s : State) : State :=
  { s with
    args := Args.zero, active := Active.zero, dstWidth := 0, dstHeight := 0
    bufs := Buffers.zero, pix := PixIn.zero, pixOut := 0
    done := false, cfgValid := false, err := 0, phase := .idle }

/-- Record what a host read gave. -/
def State.observe (o : Observation) (s : State) : State := { s with observed := o :: s.observed }

/-- The command word whose low `nbits` bits are `w`, issued, with the engine to move next: what `withFetchWord` places
(DESIGN CHOICE, safe: assumption 3). -/
def State.placeCommand (s : State) (nbits w : Nat) : State :=
  { s.issue (tableWord nbits w) with turns := .engine :: s.turns }

end Sys2Proof.Machine
end

