-- ==== Sys2Proof/Machine/Control.lean ====
section
/-! DEFINITION. The control commands: NOP (R110) and CFG (R111 to R116). -/

namespace Sys2Proof.Machine

/-- NOP (R110): ERR 0, then completion. -/
def execNop (s : State) : Host.Outcome State Fault Refusal := .next ((s.begun (encode .nop)).completeWith .ok)

/-- The checks of CFG in their order (R111, R201): the first that fails gives the code. -/
def cfgCheck (a : Args) : CmdErr :=
  if a.srcType ≠ 1 then .unsupportedSourceType
  else if a.dstFmt ≠ 1 ∧ a.dstFmt ≠ 2 ∧ a.dstFmt ≠ 3 then .unsupportedFormat
  else if a.precision ≠ 1 ∧ a.precision ≠ 2 then .invalidPrecision
  else if a.srcWidth = 0 ∨ a.srcHeight = 0 ∨ (a.precision = 2 ∧ a.srcWidth.getLsbD 0 = true) then .invalidGeometry
  else .ok

/-- The ACTIVE that a successful CFG latches (R112). -/
def cfgActive (a : Args) : Active :=
  { prec := a.precision.setWidth 2
    cvt := a.convertYuv
    packed := a.dstFmt == 3
    pshift := a.precision.setWidth 4 + 1
    fmt := a.dstFmt.setWidth 4 }

/-- The DST_WIDTH that a successful CFG derives (R112, R115). -/
def cfgWidth (a : Args) : Word := if a.precision = 2 then a.srcWidth / 2 else a.srcWidth

/-- `CfgOk(c)` (R112), with completion. -/
def State.cfgOk (a : Args) (s : State) : State :=
  State.completeWith .ok
    { s with active := cfgActive a, dstWidth := cfgWidth a, dstHeight := a.srcHeight, cfgValid := true }

/-- `CfgFail(code)` (R113), with completion. -/
def State.cfgFail (e : CmdErr) (s : State) : State :=
  State.completeWith e
    { s with active := Active.zero, dstWidth := 0, dstHeight := 0, cfgValid := false }

/-- CFG (R111), on the snapshot's argument registers. -/
def execCfg (s : State) : Host.Outcome State Fault Refusal :=
  let a := (s.commandFor (encode .cfg)).args
  match cfgCheck a with
  | .ok => .next ((s.begun (encode .cfg)).cfgOk a)
  | e => .next ((s.begun (encode .cfg)).cfgFail e)

end Sys2Proof.Machine
end

