-- ==== Sys2Proof/Machine/Number.lean ====
section
/-! DEFINITION. The numbers of the pixel kernel: exact fractions with the infinities and NaN (R11, R166), binary16 and
binary32 bit patterns (R162, R168), and rounding to binary32 (R10). -/

namespace Sys2Proof.Machine

/-- The rational `num / den`. Fractions are not reduced: arithmetic on them is exact, and only their value counts. Every
fraction the kernel makes has `den > 0`. -/
structure Frac where
  num : Int
  den : Nat
  deriving DecidableEq, Repr

/-- An integer as a fraction. -/
def Frac.ofInt (n : Int) : Frac := { num := n, den := 1 }

/-- `m * 2^k` for any integer k. -/
def Frac.dyadic (m k : Int) : Frac :=
  if 0 ≤ k then { num := m * 2 ^ k.toNat, den := 1 } else { num := m, den := 2 ^ (-k).toNat }

/-- Exact product. -/
def Frac.mul (a b : Frac) : Frac := { num := a.num * b.num, den := a.den * b.den }

/-- Exact sum. -/
def Frac.add (a b : Frac) : Frac := { num := a.num * b.den + b.num * a.den, den := a.den * b.den }

/-- `trunc(x)`: the integer part, rounded toward zero (R9). -/
def Frac.trunc (a : Frac) : Int := a.num.tdiv a.den

/-- The extended set `Q ∪ {+inf, −inf, NaN}` of R11. -/
inductive Ext where
  | fin (q : Frac)
  | posInf
  | negInf
  | nan
  deriving DecidableEq, Repr

/-- An infinity with the given sign; `true` is negative. -/
def Ext.inf (negative : Bool) : Ext := if negative then .negInf else .posInf

/-- `c ⊗ x` for a finite non-zero coefficient (R166): exact for finite x, a signed infinity for ±inf, NaN for NaN. -/
def Ext.scale (c : Frac) (x : Ext) : Ext :=
  match x with
  | .fin q => .fin (c.mul q)
  | .posInf => Ext.inf (c.num < 0)
  | .negInf => Ext.inf (0 < c.num)
  | .nan => .nan

/-- The sign of a bit pattern applied to a magnitude. -/
def signed (negative : Bool) (n : Nat) : Int := if negative then -(n : Int) else n

/-- `DEC16` (R162): the value of an IEEE 754 binary16 pattern, subnormals exact. -/
def dec16 (raw : BitVec 16) : Ext :=
  let neg := raw.getLsbD 15
  let e := (raw.extractLsb' 10 5).toNat
  let f := (raw.extractLsb' 0 10).toNat
  if e = 0 then .fin (Frac.dyadic (signed neg f) (-24))
  else if e < 31 then .fin (Frac.dyadic (signed neg (1024 + f)) ((e : Int) - 25))
  else if f = 0 then Ext.inf neg
  else .nan

/-- The value of an IEEE 754 binary32 pattern: R168 gives its coefficients as such patterns. -/
def dec32 (bits : BitVec 32) : Ext :=
  let neg := bits.getLsbD 31
  let e := (bits.extractLsb' 23 8).toNat
  let f := (bits.extractLsb' 0 23).toNat
  if e = 0 then .fin (Frac.dyadic (signed neg f) (-149))
  else if e < 255 then .fin (Frac.dyadic (signed neg (2 ^ 23 + f)) ((e : Int) - 150))
  else if f = 0 then Ext.inf neg
  else .nan

/-- The exponent k with `2^k <= n/d < 2^(k+1)`, for positive n and d. -/
def floorLog2 (n d : Nat) : Int :=
  let k : Int := (Nat.log2 n : Int) - (Nat.log2 d : Int)
  if d * 2 ^ k.toNat ≤ n * 2 ^ (-k).toNat then k else k - 1

/-- `N / D` rounded to the nearest integer, ties to even. -/
def roundHalfEven (N D : Nat) : Nat :=
  let q := N / D
  let r := N % D
  if 2 * r > D || (2 * r == D && q % 2 == 1) then q + 1 else q

/-- `f32(x)` (R10): the binary32 value nearest to a finite x, ties to even. The spacing of binary32 values at x is
`2^(max(k, −126) − 23)` with k from `floorLog2`; a rounded magnitude of 2^128 or more is an infinity
(PRESUMED, IEEE 754: assumption 11). -/
def f32 (x : Frac) : Ext :=
  let n := x.num.natAbs
  if n = 0 then .fin (Frac.ofInt 0)
  else
    let q : Int := max (floorLog2 n x.den) (-126) - 23
    let m := roundHalfEven (n * 2 ^ (-q).toNat) (x.den * 2 ^ q.toNat)
    if 2 ^ 128 ≤ m * 2 ^ q.toNat ∧ 0 ≤ q then Ext.inf (x.num < 0)
    else .fin (Frac.dyadic (signed (x.num < 0) m) q)

/-- The binary32 product (R168): IEEE special values, the exact product rounded. -/
def Ext.mul32 (a b : Ext) : Ext :=
  match a, b with
  | .nan, _ => .nan
  | _, .nan => .nan
  | .fin x, .fin y => f32 (x.mul y)
  | .fin x, .posInf => if x.num = 0 then .nan else Ext.inf (x.num < 0)
  | .fin x, .negInf => if x.num = 0 then .nan else Ext.inf (0 < x.num)
  | .posInf, .fin y => if y.num = 0 then .nan else Ext.inf (y.num < 0)
  | .negInf, .fin y => if y.num = 0 then .nan else Ext.inf (0 < y.num)
  | .posInf, .posInf => .posInf
  | .negInf, .negInf => .posInf
  | .posInf, .negInf => .negInf
  | .negInf, .posInf => .negInf

/-- The binary32 sum (R168): IEEE special values, inf − inf is NaN, the exact sum rounded. -/
def Ext.add32 (a b : Ext) : Ext :=
  match a, b with
  | .nan, _ => .nan
  | _, .nan => .nan
  | .fin x, .fin y => f32 (x.add y)
  | .posInf, .negInf => .nan
  | .negInf, .posInf => .nan
  | .posInf, _ => .posInf
  | .negInf, _ => .negInf
  | _, .posInf => .posInf
  | _, .negInf => .negInf

end Sys2Proof.Machine
end

