-- ==== Sys2Proof/Machine/Kernel.lean ====
section
/-! DEFINITION. The pixel kernel (R160 to R171): channel extraction and scaling, the fixed matrix or the pass-through,
rounding and saturation, under both values of `KERNEL_ARITH`. -/

namespace Sys2Proof.Machine

/-- The three 8-bit kernel outputs (R12): `o0` is Y or R, `o1` is U or G, `o2` is V or B. -/
structure Pixel where
  o0 : Byte
  o1 : Byte
  o2 : Byte
  deriving DecidableEq, Repr

/-- `clamp(n, 0, 255)` (R9) as a byte. -/
def clampByte (n : Int) : Byte := BitVec.ofNat 8 (min 255 (max 0 n)).toNat

/-- The decimal `n / 1000` that R164 spells (R11). -/
def milli (n : Int) : Frac := { num := n, den := 1000 }

/-- One row of R164's matrix: the r, g and b coefficients and the offset. -/
structure Row where
  cr : Frac
  cg : Frac
  cb : Frac
  k : Frac
  deriving DecidableEq, Repr

/-- Y = 0.257 r + 0.504 g + 0.098 b + 16 (R164). -/
def rowY : Row := { cr := milli 257, cg := milli 504, cb := milli 98, k := Frac.ofInt 16 }

/-- U = −0.148 r − 0.291 g + 0.439 b + 128 (R164). -/
def rowU : Row := { cr := milli (-148), cg := milli (-291), cb := milli 439, k := Frac.ofInt 128 }

/-- V = 0.439 r − 0.368 g − 0.071 b + 128 (R164). -/
def rowV : Row := { cr := milli 439, cg := milli (-368), cb := milli (-71), k := Frac.ofInt 128 }

/-- `CHAN(P, raw)` under EXACT (R161, R163): the low byte when P = 1, else 255 times the binary16 value. -/
def chan (P : BitVec 2) (raw : Half) : Ext :=
  if P = 1 then .fin (Frac.ofInt (raw.extractLsb' 0 8).toNat)
  else Ext.scale (Frac.ofInt 255) (dec16 raw)

/-- `LIN(cr, cg, cb, k; r, g, b)` (R166). -/
def lin (c : Row) (r g b : Ext) : Ext :=
  if r = .nan ∨ g = .nan ∨ b = .nan then .nan
  else
    match Ext.scale c.cr r, Ext.scale c.cg g, Ext.scale c.cb b with
    | .fin x, .fin y, .fin z => .fin (((x.add y).add z).add c.k)
    | x, y, z =>
      if (x = .posInf ∨ y = .posInf ∨ z = .posInf) ∧ (x = .negInf ∨ y = .negInf ∨ z = .negInf) then .nan
      else if x = .posInf ∨ y = .posInf ∨ z = .posInf then .posInf
      else .negInf

/-- `RC(t)` under EXACT (R169, R170): add 1/2, truncate, clamp; the infinities saturate and NaN gives NAN_BYTE. -/
def rc (nanByte : Byte) (t : Ext) : Byte :=
  match t with
  | .nan => nanByte
  | .posInf => 255
  | .negInf => 0
  | .fin q => clampByte (q.add { num := 1, den := 2 }).trunc

/-- `CHAN32(P, raw)` (R168): exact when P = 1, else f32(255 × DEC16(raw)) with 255 = 0x437F0000. -/
def chan32 (P : BitVec 2) (raw : Half) : Ext :=
  if P = 1 then .fin (Frac.ofInt (raw.extractLsb' 0 8).toNat)
  else Ext.mul32 (dec32 0x437F0000) (dec16 raw)

/-- One row of R168's coefficients, as binary32 values. -/
structure Row32 where
  c0 : Ext
  c1 : Ext
  c2 : Ext
  k : Ext
  deriving DecidableEq, Repr

/-- cY and kY of R168. -/
def row32Y : Row32 :=
  { c0 := dec32 0x3E839581, c1 := dec32 0x3F010625, c2 := dec32 0x3DC8B439, k := dec32 0x41800000 }

/-- cU and kU of R168. -/
def row32U : Row32 :=
  { c0 := dec32 0xBE178D50, c1 := dec32 0xBE94FDF4, c2 := dec32 0x3EE0C49C, k := dec32 0x43000000 }

/-- cV and kV of R168. -/
def row32V : Row32 :=
  { c0 := dec32 0x3EE0C49C, c1 := dec32 0xBEBC6A7F, c2 := dec32 0xBD916873, k := dec32 0x43000000 }

/-- `LIN32(c, k; r, g, b)` (R168), in exactly that order of operations. -/
def lin32 (c : Row32) (r g b : Ext) : Ext :=
  Ext.add32 (Ext.add32 (Ext.add32 (Ext.mul32 c.c0 r) (Ext.mul32 c.c1 g)) (Ext.mul32 c.c2 b)) c.k

/-- `RC32(t)` (R168): NAN_BYTE for NaN; else `u = f32(t + 0.5)`, saturated. -/
def rc32 (nanByte : Byte) (t : Ext) : Byte :=
  match t with
  | .nan => nanByte
  | t =>
    match Ext.add32 t (.fin { num := 1, den := 2 }) with
    | .nan => nanByte
    | .posInf => 255
    | .negInf => 0
    | .fin u => clampByte u.trunc

/-- The kernel under EXACT (R171). -/
def kernelExact (nanByte : Byte) (P : BitVec 2) (V : Bool) (rawB rawG rawR : Half) : Pixel :=
  let b := chan P rawB
  let g := chan P rawG
  let r := chan P rawR
  if V then
    { o0 := rc nanByte (lin rowY r g b), o1 := rc nanByte (lin rowU r g b), o2 := rc nanByte (lin rowV r g b) }
  else { o0 := rc nanByte r, o1 := rc nanByte g, o2 := rc nanByte b }

/-- The kernel under BINARY32: CHAN32, LIN32 and RC32 replace CHAN, LIN and RC (R171). -/
def kernel32 (nanByte : Byte) (P : BitVec 2) (V : Bool) (rawB rawG rawR : Half) : Pixel :=
  let b := chan32 P rawB
  let g := chan32 P rawG
  let r := chan32 P rawR
  if V then
    { o0 := rc32 nanByte (lin32 row32Y r g b), o1 := rc32 nanByte (lin32 row32U r g b)
      o2 := rc32 nanByte (lin32 row32V r g b) }
  else { o0 := rc32 nanByte r, o1 := rc32 nanByte g, o2 := rc32 nanByte b }

/-- `KERNEL(P, V, rawB, rawG, rawR)` (R171) under the machine's `KERNEL_ARITH` and `NAN_BYTE` (R160). -/
def kernel (p : Params) (P : BitVec 2) (V : Bool) (rawB rawG rawR : Half) : Pixel :=
  match p.arith with
  | .exact => kernelExact p.nanByte P V rawB rawG rawR
  | .binary32 => kernel32 p.nanByte P V rawB rawG rawR

/-- The bytes of a packed pixel that the engine writes, lowest address first: V or B, U or G, Y or R (R133, R135). -/
def Pixel.packed (px : Pixel) : List Byte := [px.o2, px.o1, px.o0]

/-- The 24 stored bits of PIX_OUT for a pixel: o0 in 23:16, o1 in 15:8, o2 in 7:0 (R44, R175). -/
def Pixel.out (px : Pixel) : BitVec 24 :=
  px.o0.setWidth 24 <<< 16 ||| px.o1.setWidth 24 <<< 8 ||| px.o2.setWidth 24

end Sys2Proof.Machine
end

