-- ==== Sys2Proof/Machine/Operands.lean ====
section
/-! DEFINITION. The operands of CONV: the raw channels (R65), the host duties (R132), which bytes the engine owns (R76),
which bytes a host read does not yet give (R78, R225), and what a reset does to all of them (R221). -/

namespace Sys2Proof.Machine

/-- `raw(i, x, k)` (R65): one byte when P = 1, else two bytes with the lower-addressed one in bits 7:0 (R63).
PREC is 1 or 2 in every snapshot that converts; other values take the second case (assumption 10). -/
def Command.raw (c : Command) (m : Memory) (i x k : Nat) : Half :=
  if c.P = 1 then (m.read (c.chanAddr i x k)).setWidth 16
  else le16 (m.read (c.chanAddr i x k + 1)) (m.read (c.chanAddr i x k))

/-- Whether an address is ordinary memory (R62): in none of the platform's device ranges. -/
def ordinary (devices : List Region) (a : Nat) : Bool :=
  devices.all fun r => !(r.base ≤ a && a < r.base + r.size)

/-- Duty 1 of R132 for the source: the highest address of `SrcBytes`, which belongs to the last pixel, is in the space.
An empty set has no address to check. -/
def Command.srcInSpace (p : Params) (c : Command) : Bool :=
  c.W == 0 || c.H == 0 || c.P == 0
    || c.pixAddr (c.H - 1) (c.W - 1) + 3 * c.P ≤ 2 ^ p.addrW

/-- Duty 1 of R132 for a plane: the highest sample address is in the space. -/
def Command.planeInSpace (p : Params) (c : Command) (base stride : Word) : Bool :=
  c.W == 0 || c.H == 0 || base.toNat + (c.H - 1) * stride.toNat + c.W ≤ 2 ^ p.addrW

/-- Duty 1 of R132 for the destination set. -/
def Command.dstInSpace (p : Params) (c : Command) : Bool :=
  if c.active.packed then
    c.H * c.bufs.dst0Stride.toNat == 0
      || c.bufs.dst0Base.toNat + c.H * c.bufs.dst0Stride.toNat ≤ 2 ^ p.addrW
  else c.planeInSpace p c.bufs.dst0Base c.bufs.dst0Stride
    && c.planeInSpace p c.bufs.dst1Base c.bufs.dstUvStride
    && c.planeInSpace p c.bufs.dst2Base c.bufs.dstUvStride

/-- R70(b) and (c): packed `ds >= 4W`; planar `ys >= W` and `uvs >= W`. -/
def Command.stridesOk (c : Command) : Bool :=
  if c.active.packed then 4 * c.W ≤ c.bufs.dst0Stride.toNat
  else c.W ≤ c.bufs.dst0Stride.toNat && c.W ≤ c.bufs.dstUvStride.toNat

/-- R70(c): the three plane sample sets are pairwise disjoint. The packed destination has no planes. -/
def Command.planesDisjoint (c : Command) : Bool :=
  c.active.packed
    || (c.uBytes.all (fun a => !c.inPlane c.bufs.dst0Base c.bufs.dst0Stride a)
      && c.vBytes.all (fun a => !c.inPlane c.bufs.dst0Base c.bufs.dst0Stride a)
      && c.vBytes.all (fun a => !c.inPlane c.bufs.dst1Base c.bufs.dstUvStride a))

/-- R70(a): `SrcBytes` and the destination set are disjoint. -/
def Command.sourceApart (c : Command) : Bool := c.srcBytes.all fun a => !c.inDst a

/-- Duty 3 of R132: every source and destination byte is ordinary memory. -/
def Command.memoryOrdinary (devices : List Region) (c : Command) : Bool :=
  devices.all fun r => (c.srcBytes ++ c.dstBytes).all fun a => !(r.base ≤ a && a < r.base + r.size)

/-- The first of duties 1 to 3 of R132 that a CONV breaks, as the fault that records it (R207(a)); `none` when they all
hold. The spec gives no order among them: every one of them ends the run (DESIGN CHOICE, safe: assumption 8). -/
def Command.dutyViolation (p : Params) (devices : List Region) (c : Command) : Option Fault :=
  if !c.stridesOk then some .convStrideTooSmall
  else if !(c.srcInSpace p && c.dstInSpace p) then some .convAddressAboveSpace
  else if !c.memoryOrdinary devices then some .convNotOrdinaryMemory
  else if !c.planesDisjoint then some .convPlanesOverlap
  else if !c.sourceApart then some .convSourceOverlapsDestination
  else none

/-- `HostDuties(c)` (R132), duties 1 to 3. Duty 4 is checked where the host writes. -/
def Command.hostDuties (p : Params) (devices : List Region) (c : Command) : Bool :=
  (c.dutyViolation p devices).isNone

/-- Whether the snapshot is that of a CONV that converts: a legal CONV word, issued while CFG_VALID = 1 (R93, R130). -/
def Command.converts (c : Command) : Bool :=
  c.cfgValid && (match decodeFields c.op c.rsv with
    | .ok .conv => true
    | _ => false)

/-- The destination bytes the engine owns in this phase (R76). -/
def Phase.ownsDst (ph : Phase) (a : Nat) : Bool :=
  match ph with
  | .idle => false
  | .busy c => c.converts && c.inDst a

/-- The source bytes the engine owns in this phase (R76). -/
def Phase.ownsSrc (ph : Phase) (a : Nat) : Bool :=
  match ph with
  | .idle => false
  | .busy c => c.converts && c.inSrc a

/-- The destination set of the CONV in flight, which a reset leaves unspecified (R221); empty when no CONV converts
(DEDUCED, assumption 18). -/
def Phase.abandoned (ph : Phase) : List Nat :=
  match ph with
  | .idle => []
  | .busy c => if c.converts then c.dstBytes else []

/-- Whether what a host read of this address gives is unspecified: a destination byte of the CONV in flight (R76), or of
a completed one that the host has not yet seen completed (R78(2) and (3), R225; assumption 22). -/
def State.unspecified (s : State) (a : Nat) : Bool :=
  s.phase.ownsDst a || s.awaitedBytes.contains a || s.missed.contains a

/-- Reset (R220, R221): the registers take their reset values, and each byte of an abandoned CONV's destination set is
drawn freely. A completion the host had not seen is lost with DONE. -/
def State.hardReset (s : State) : State :=
  { s.clearRegisters.loseDone with
    mem := s.mem.drawAt s.draws s.phase.abandoned
    draws := s.draws + s.phase.abandoned.length }

end Sys2Proof.Machine
end

