-- ==== Sys2Proof/Machine/Convert.lean ====
section
/-! DEFINITION. CONV (R130): the packed driver (R133) and the planar driver (R140), one atomic step at completion
(R77). -/

namespace Sys2Proof.Machine

/-- The kernel's outputs for the logical pixel at row i and column x, from the source bytes in memory `m`. -/
def Command.pixelAt (p : Params) (c : Command) (m : Memory) (i x : Nat) : Pixel :=
  kernel p c.active.prec c.active.cvt (c.raw m i x 0) (c.raw m i x 1) (c.raw m i x 2)

/-- The packed destination address of the logical pixel (i, x): memory row H − 1 − i, byte 4x (R133). -/
def Command.packedAddr (c : Command) (i x : Nat) : Nat :=
  c.bufs.dst0Base.toNat + (c.H - 1 - i) * c.bufs.dst0Stride.toNat + 4 * x

/-- Step 1 of R133: zero the whole buffer, `H × ds` bytes. -/
def Command.zeroFill (c : Command) (m : Memory) : Memory :=
  m.writeBytes c.bufs.dst0Base.toNat (List.replicate (c.H * c.bufs.dst0Stride.toNat) 0)

/-- Steps 2 and 3 of R133 for the pixels of a list, in its order: 3 bytes each, byte 4x+3 stays 0. `m0` is memory as the
engine reads it. -/
def Command.paintPacked (p : Params) (c : Command) (m0 : Memory) (pixels : List (Nat × Nat)) (m : Memory) : Memory :=
  pixels.foldl (fun mem px => mem.writeBytes (c.packedAddr px.1 px.2) (c.pixelAt p m0 px.1 px.2).packed) m

/-- `PackedDriver(c)` (R133). -/
def Command.packedDriver (p : Params) (c : Command) (m : Memory) : Memory :=
  c.paintPacked p m c.pixels (c.zeroFill m)

/-- The sample address of (i, x) in a plane (R69). -/
def planeAddr (base stride : Word) (i x : Nat) : Nat := base.toNat + i * stride.toNat + x

/-- The body of R140's loops for the pixels of a list, in its order. `m0` is memory as the engine reads it. -/
def Command.paintPlanar (p : Params) (c : Command) (m0 : Memory) (pixels : List (Nat × Nat)) (m : Memory) : Memory :=
  pixels.foldl (fun mem px =>
    let o := c.pixelAt p m0 px.1 px.2
    ((mem.write (planeAddr c.bufs.dst0Base c.bufs.dst0Stride px.1 px.2) o.o0).write
      (planeAddr c.bufs.dst1Base c.bufs.dstUvStride px.1 px.2) o.o1).write
      (planeAddr c.bufs.dst2Base c.bufs.dstUvStride px.1 px.2) o.o2) m

/-- `PlanarDriver(c)` (R140). -/
def Command.planarDriver (p : Params) (c : Command) (m : Memory) : Memory :=
  c.paintPlanar p m c.pixels m

/-- The driver that ACTIVE.PACKED selects (R130). -/
def Command.drive (p : Params) (c : Command) (m : Memory) : Memory :=
  if c.active.packed then c.packedDriver p m else c.planarDriver p m

/-- The completion of a CONV that has converted (R130): ERR 0, the new memory, and its destination bytes await the host's
read of DONE = 1 (R78(2)). -/
def State.converted (c : Command) (s : State) : State :=
  State.completeWith .ok { s with mem := c.drive s.params s.mem, awaited := some c }

/-- CONV (R130): NOT_CONFIGURED without a memory access; a fault where a host duty fails; else the driver. -/
def execConv (s : State) : Host.Outcome State Fault Refusal :=
  let c := s.commandFor (encode .conv)
  if c.cfgValid then
    match c.dutyViolation s.params s.devices with
    | some f => .fault f
    | none => .next ((s.begun (encode .conv)).converted c)
  else .next ((s.begun (encode .conv)).completeWith .notConfigured)

end Sys2Proof.Machine
end

