-- ==== Sys2Proof/Machine/Pixel.lean ====
section
/-! DEFINITION. PIX (R175): the pixel kernel once, on register operands. -/

namespace Sys2Proof.Machine

/-- The mask of R175: 0x00FF when P = 1, else 0xFFFF. -/
def pixMask (P : BitVec 2) : Half := if P = 1 then 0x00FF else 0xFFFF

/-- The kernel's outputs for PIX's operands in the snapshot (R175). -/
def Command.pixKernel (p : Params) (c : Command) : Pixel :=
  kernel p c.active.prec c.active.cvt (c.pix.b &&& pixMask c.active.prec) (c.pix.g &&& pixMask c.active.prec)
    (c.pix.r &&& pixMask c.active.prec)

/-- PIX (R175): NOT_CONFIGURED with PIX_OUT unchanged, else the kernel's outputs in PIX_OUT. -/
def execPix (s : State) : Host.Outcome State Fault Refusal :=
  let c := s.commandFor (encode .pix)
  if c.cfgValid then .next (State.completeWith .ok { s.begun (encode .pix) with pixOut := (c.pixKernel s.params).out })
  else .next ((s.begun (encode .pix)).completeWith .notConfigured)

end Sys2Proof.Machine
end

