-- ==== Sys2Proof/Machine/Dispatch.lean ====
section
/-! DEFINITION. Which meaning each command has. -/

namespace Sys2Proof.Machine

def exec (i : Instr) (s : State) : Host.Outcome State Fault Refusal :=
  match i with
  | .nop => Sys2Proof.Machine.execNop s
  | .cfg => Sys2Proof.Machine.execCfg s
  | .conv => Sys2Proof.Machine.execConv s
  | .pix => Sys2Proof.Machine.execPix s

end Sys2Proof.Machine
end

