-- ==== Sys2Proof/Machine/Agents.lean ====
section
/-! DEFINITION. What each agent does when it moves: the engine completes the command in flight (R90), the host performs
one action at a port (R49, R60, R76, R96), the platform asserts reset (R220). -/

namespace Sys2Proof.Machine

/-- The engine's move: decode the command in flight and run its rule; an illegal word completes with ILLEGAL_COMMAND and
changes nothing else (R93). With no command in flight the engine has nothing to do. -/
def engineTurn (s : State) : Host.Outcome State Fault Refusal :=
  match s.phase with
  | .idle => .next s
  | .busy c =>
    match decodeFields c.op c.rsv with
    | .ok i => exec i s
    | .error _ => .next (s.completeWith .illegalCommand)

/-- A host write of `w` to CMD while BUSY = 0 (R90). A CONV that will convert and breaks a host duty is a fault at this
step, where the violation happens (R207(a), R221; DEDUCED, assumption 8). -/
def issueCommand (w : Word) (s : State) : Host.Outcome State Fault Refusal :=
  if (s.snapshot w).converts then
    match (s.snapshot w).dutyViolation s.params s.devices with
    | some f => .fault f
    | none => .next (s.issue w)
  else .next (s.issue w)

/-- A host write at the register port (R20, R49): outside the interface a fault (R207(c)); dropped while BUSY = 1; to
CMD it issues a command; at a reserved offset or a read-only register it has no effect. -/
def hostRegWrite (a : RegAccess) (v : Word) (s : State) : Host.Outcome State Fault Refusal :=
  if !a.wf then .fault .badRegisterAccess
  else if s.phase.isBusy then .next s
  else
    match Reg.ofOffset a.offset with
    | none => .next s
    | some .cmd => issueCommand v s
    | some r => .next (s.storeReg r v)

/-- A host read at the register port: no side effect on any register (R49). A read of STATUS that returns DONE = 1 orders
the command's memory writes before the host's later reads (R78(2)). -/
def hostRegRead (a : RegAccess) (s : State) : Host.Outcome State Fault Refusal :=
  if !a.wf then .fault .badRegisterAccess
  else
    let s' := if a.offset = Reg.status.offset then s.statusRead else s
    .next (s'.observe (.reg a.offset (s.readReg a.offset)))

/-- One poll of `WAIT` (R96): read STATUS; while bit 1 reads 0 the host polls again (assumption 15). -/
def hostWait (s : State) : Host.Outcome State Fault Refusal :=
  let s' := s.statusRead.observe (.reg Reg.status.offset s.statusWord)
  if s.statusWord.getLsbD 1 then .next s' else .next { s' with host := .wait :: s'.host }

/-- The `n` addresses from `a` up. -/
def addrRange (a n : Nat) : List Nat := (List.range n).map fun j => a + j

/-- A host write to memory: only addresses of the space (R60) that are ordinary memory, and none that the engine owns
(R76, R207(b)). DEDUCED, assumption 9. -/
def hostMemWrite (addr : Nat) (bs : List Byte) (s : State) : Host.Outcome State Fault Refusal :=
  let as := addrRange addr bs.length
  if as.any (fun a => 2 ^ s.params.addrW ≤ a) then .fault .hostAddressAboveSpace
  else if as.any (fun a => s.phase.ownsSrc a || s.phase.ownsDst a) then .fault .hostWritesOwnedByte
  else if as.any (fun a => !ordinary s.devices a) then .refused .hostAccessesDevice
  else .next { s with mem := s.mem.writeBytes addr bs }

/-- The bytes a host read of the given addresses gives, and the draws used up to then: a destination byte of a CONV that
the host has not yet seen completed gives a free draw, every other address its byte (R76, R78, R225). -/
def hostBytes (s : State) (k : Nat) : List Nat → List Byte × Nat
  | [] => ([], k)
  | a :: as =>
    if s.unspecified a then
      let r := hostBytes s (k + 1) as
      (Config.freeByte k :: r.1, r.2)
    else
      let r := hostBytes s k as
      (s.mem.read a :: r.1, r.2)

/-- A host read of memory (R76, R78, R225): of the space, and ordinary memory. -/
def hostMemRead (addr n : Nat) (s : State) : Host.Outcome State Fault Refusal :=
  let as := addrRange addr n
  if as.any (fun a => 2 ^ s.params.addrW ≤ a) then .fault .hostAddressAboveSpace
  else if as.any (fun a => !ordinary s.devices a) then .refused .hostAccessesDevice
  else
    let r := hostBytes s s.draws as
    .next { s.observe (.mem addr r.1) with draws := r.2 }

/-- One action of the host. -/
def hostAct (act : HostAction) (s : State) : Host.Outcome State Fault Refusal :=
  match act with
  | .regWrite a v => hostRegWrite a v s
  | .regRead a => hostRegRead a s
  | .wait => hostWait s
  | .memWrite addr bs => hostMemWrite addr bs s
  | .memRead addr n => hostMemRead addr n s

/-- The host's move: the next action of its program; a host whose program has ended does nothing. -/
def hostTurn (s : State) : Host.Outcome State Fault Refusal :=
  match s.host with
  | [] => .next s
  | act :: rest => hostAct act { s with host := rest }

/-- The move of the agent whose turn it is. -/
def takeTurn (t : Turn) (s : State) : Host.Outcome State Fault Refusal :=
  match t with
  | .host => hostTurn s
  | .engine => engineTurn s
  | .reset => .next s.hardReset

/-- Who moves when no turn is given: the engine while BUSY, so that every BUSY phase ends (weak fairness, R230), the
host otherwise. -/
def State.defaultTurn (s : State) : Turn := if s.phase.isBusy then .engine else .host

end Sys2Proof.Machine
end

