-- ==== Sys2Proof/Machine/Step.lean ====
section
/-! DEFINITION. One step of the machine: the agent whose turn it is moves. -/

namespace Sys2Proof.Machine

/-- One step: the head of `turns` says who moves; with no turn left, `defaultTurn` does. -/
def step (s : State) : Host.Outcome State Fault Refusal :=
  match s.turns with
  | [] => takeTurn s.defaultTurn s
  | t :: ts => takeTurn t { s with turns := ts }

/-- `s` with the command word of `w`'s low `nbits` bits issued and the engine to move: the very next step decodes that
word and runs its rule. DESIGN CHOICE, safe (assumption 3). -/
def State.withFetchWord (s : State) (nbits w : Nat) : State := s.placeCommand nbits w

end Sys2Proof.Machine
end

