-- ==== Sys2Proof/Safety.lean ====
section
/-! DEFINITION. The terms in which claims speak of the machine: its invariant, safe runs, the moves of the host while a
command is in flight, and the final contents that R134 gives a packed destination byte. -/

namespace Sys2Proof.Machine

/-- The 12 values of ACTIVE after a successful CFG (R116's table, by DST_FMT, PRECISION and CVT). -/
def configuredWords : List Word :=
  [0x121, 0x125, 0x132, 0x136, 0x221, 0x225, 0x232, 0x236, 0x329, 0x32D, 0x33A, 0x33E]

/-- What CFG_VALID says of the active configuration: when it is 1, ACTIVE is one of R116's values and the frame is not
empty (R130); when it is 0, ACTIVE, DST_WIDTH and DST_HEIGHT are 0 (R33, R113, R220). -/
def ConfigOk (cfgValid : Bool) (active : Active) (w h : Word) : Prop :=
  if cfgValid then active.word ∈ configuredWords ∧ w ≠ 0 ∧ h ≠ 0
  else active = Active.zero ∧ w = 0 ∧ h = 0

/-- The invariant of the machine. -/
structure State.Inv (s : State) : Prop where
  /-- The parameters have legal values (R7). -/
  params : s.params.wf = true
  /-- Memory is in its canonical form. -/
  memCanonical : s.mem.wf = true
  /-- Memory lists no address outside the space (R60). -/
  memInSpace : s.mem.below (2 ^ s.params.addrW) = true
  /-- CFG_VALID and the active configuration agree (R24, R33). -/
  config : ConfigOk s.cfgValid s.active s.dstWidth s.dstHeight
  /-- ERR holds a code of R200. -/
  err : s.err.toNat ≤ 6
  /-- While BUSY, DONE and ERR are 0: the issue cleared them (R23, R25). -/
  busyStatus : s.phase.isBusy = true → s.done = false ∧ s.err = 0
  /-- While BUSY, the snapshot is what the registers still hold: every write is dropped (R49, R90). -/
  snapshot : ∀ c, s.phase = .busy c → ∃ w, c = s.snapshot w
  /-- A CONV in flight that converts satisfies its host duties, or the fault was recorded at its issue (R207, R221). -/
  duties : ∀ c, s.phase = .busy c → c.converts = true → c.hostDuties s.params s.devices = true
  /-- A CONV whose completion the host has yet to see is the last command: the block is idle and DONE is 1 (R23, R78). -/
  awaited : ∀ c, s.awaited = some c → s.phase = .idle ∧ s.done = true

/-- A run that never stops: what every claim takes as its premise "no fault" (R207), and no refusal either. -/
def SafeRun (s : State) : Prop := ∀ n, ∃ t, Sys2Proof.core.run n s = .next t

/-- `n` moves of the host alone, with no move of the engine and no reset between them. -/
def hostMoves : Nat → State → Host.Outcome State Fault Refusal
  | 0, s => .next s
  | n + 1, s =>
    match hostTurn s with
    | .next t => hostMoves n t
    | .fault f => .fault f
    | .refused r => .refused r

/-- A host action that the register port answers without a fault: a well-formed access or a poll of WAIT. -/
def HostAction.atRegisterPort : HostAction → Bool
  | .regWrite a _ => a.wf
  | .regRead a => a.wf
  | .wait => true
  | .memWrite _ _ => false
  | .memRead _ _ => false

/-- The registers that the host can write (the rows marked RW of R20's table). -/
def Reg.writable : Reg → Bool
  | .srcType | .dstFmt | .convertYuv | .precision | .srcWidth | .srcHeight => true
  | .srcBase | .srcStride | .dst0Base | .dst0Stride | .dst1Base | .dst2Base | .dstUvStride => true
  | .pixB | .pixG | .pixR => true
  | .cmd | .status | .active | .dstWidth | .dstHeight | .pixOut => false

/-- The stored bits of each writable register (R20's table). -/
def Reg.storedBits : Reg → Word
  | .convertYuv => 0x00000001
  | .pixB | .pixG | .pixR => 0x0000FFFF
  | _ => 0xFFFFFFFF

/-- The byte that R134 gives memory row `m`, offset `j` of the packed destination, from the source bytes in `m0`. -/
def Command.packedByte (p : Params) (c : Command) (m0 : Memory) (m j : Nat) : Byte :=
  if j < 4 * c.W then
    let o := c.pixelAt p m0 (c.H - 1 - m) (j / 4)
    if j % 4 = 0 then o.o2 else if j % 4 = 1 then o.o1 else if j % 4 = 2 then o.o0 else 0
  else 0

/-- A state whose command in flight has completed with the outcome code `e`, and nothing else changed. -/
def State.completed (s : State) (e : BitVec 4) : State := { s with err := e, done := true, phase := .idle }

end Sys2Proof.Machine
end

