-- ==== Sys2Proof/Certificates/Slice0/Obligations.lean ====
section
/-! DEFINITION. The statements for the provers. Each docstring names the rule of the spec that its statement formalises;
where a statement rests on a choice of the model, the docstring names the log entry. -/

open Sys2Proof Sys2Proof.Machine

/-! ### Encoding and decoding -/

/-- R92: the exact command words, and every other 32-bit word is illegal. -/
def Obligations.CommandWordsAreExact : Prop :=
  ∀ w : Word,
    (decodeWord w = .ok .nop ↔ w = 0x00000000) ∧ (decodeWord w = .ok .cfg ↔ w = 0x00000001)
    ∧ (decodeWord w = .ok .conv ↔ w = 0x00000002) ∧ (decodeWord w = .ok .pix ↔ w = 0x00000003)
    ∧ ((∃ e, decodeWord w = .error e) ↔ w ≠ 0 ∧ w ≠ 1 ∧ w ≠ 2 ∧ w ≠ 3)

/-- R91 to R93 and R20's byte order: over byte lists, the decoder reads exactly what the encoder writes, and leaves the
rest of the list alone. -/
def Obligations.DecodeAndEncodeAgree : Prop :=
  ∀ (bs : List Byte) (i : Instr) (rest : List Byte),
    decodeBytes bs = .ok (i, rest) ↔ bs = encodeBytes i ++ rest

/-! ### A step runs the command in flight -/

/-- R90, R93, R230: when the engine moves and the command in flight decodes to `i`, the step is `exec i`; where it does
not decode, the step is its completion with ILLEGAL_COMMAND; with no command in flight the engine does nothing. The only
thing around it is that the turn is used up. Whose turn it is stands in the state (assumption 6, a choice of the model).
-/
def Obligations.StepRunsDecodedCommand : Prop :=
  (∀ (s : State) (c : Command) (i : Instr),
    s.phase = .busy c → decodeFields c.op c.rsv = .ok i →
    (s.turns = [] ∨ ∃ ts, s.turns = .engine :: ts) →
    step s = exec i { s with turns := s.turns.tail })
  ∧ (∀ (s : State) (c : Command) (e : DecodeError),
    s.phase = .busy c → decodeFields c.op c.rsv = .error e →
    (s.turns = [] ∨ ∃ ts, s.turns = .engine :: ts) →
    step s = .next (({ s with turns := s.turns.tail } : State).completed 6))
  ∧ ∀ (s : State) (ts : List Turn), s.phase = .idle → s.turns = .engine :: ts → step s = .next { s with turns := ts }

/-- R8, R96: when the host moves, the step is the next action of its program, on the state with that action and the turn
used up; a host whose program has ended does nothing. Whose turn it is stands in the state (assumption 6, a choice of
the model). -/
def Obligations.StepRunsHostAction : Prop :=
  ∀ s : State, (s.turns = [] ∧ s.phase = .idle ∨ ∃ ts, s.turns = .host :: ts) →
    (s.host = [] → step s = .next { s with turns := s.turns.tail })
    ∧ ∀ (act : HostAction) (rest : List HostAction), s.host = act :: rest →
      let s0 : State := { s with turns := s.turns.tail, host := rest }
      step s = match act with
        | .regWrite a v => hostRegWrite a v s0
        | .regRead a => hostRegRead a s0
        | .wait => hostWait s0
        | .memWrite addr bs => hostMemWrite addr bs s0
        | .memRead addr n => hostMemRead addr n s0

/-- The placed command runs in the very next step, whatever the block was doing (assumption 3: `withFetchWord` stands
for the host's write to CMD). -/
def Obligations.PlacedCommandRunsNext : Prop :=
  ∀ (s : State) (i : Instr), step (s.withFetchWord 32 (encode i).toNat) = exec i (s.issue (encode i))

/-- Assumption 4, a choice of the model: a meaning asked for in an idle block is the command issued now and completed at
once. -/
def Obligations.ExecInIdleBlockIssuesFirst : Prop :=
  ∀ (s : State) (i : Instr), s.phase = .idle → exec i s = exec i (s.issue (encode i))

/-- R90, R21: a write of `w` to CMD while BUSY = 0 takes the snapshot of the word's fields and of the registers, sets
BUSY, clears DONE and ERR and stores nothing else. With DONE gone, the bytes of a CONV that the host has not seen
completed stay unspecified to it (assumption 22). That the step is a fault where the word is a CONV that will convert
and a host duty fails is the model's reading of R207(a) and R221 (assumption 8). -/
def Obligations.CommandWriteIssues : Prop :=
  ∀ (s : State) (w : Word), s.phase = .idle →
    let c : Command :=
      { op := w.extractLsb' 0 4, rsv := w.extractLsb' 4 28
        active := s.active, dstWidth := s.dstWidth, dstHeight := s.dstHeight, cfgValid := s.cfgValid
        bufs := s.bufs, pix := s.pix, args := s.args }
    if w = 2 ∧ s.cfgValid = true ∧ c.hostDuties s.params s.devices = false then
      ∃ f, hostRegWrite { offset := 0, bytes := 4 } w s = .fault f
    else
      hostRegWrite { offset := 0, bytes := 4 } w s = .next
        { s with
          phase := .busy c, done := false, err := 0
          awaited := none, missed := s.awaitedBytes ++ s.missed }

/-- R93: a word with OP in 0x4..0xF or RSV ≠ 0 is no command; its completion reports code 6 and changes nothing but
STATUS, and every other encoding is a defined command. -/
def Obligations.IllegalWordReportsIllegalCommand : Prop :=
  (∀ (op : BitVec 4) (rsv : BitVec 28),
    (4 ≤ op.toNat ∨ rsv ≠ 0) ↔ ∃ e, decodeFields op rsv = .error e)
  ∧ ∀ (s : State) (c : Command), s.phase = .busy c → (4 ≤ c.op.toNat ∨ c.rsv ≠ 0) →
      engineTurn s = .next (s.completed 6)

/-! ### NOP and CFG -/

/-- R110: the word 0x00000000 is NOP, and NOP completes with ERR 0 whether or not the block is configured and touches
nothing but STATUS. Its example: from 0x606 STATUS becomes 0x006. In an idle block, which no step reaches, it is issued
first (assumption 4, a choice of the model). -/
def Obligations.NopOnlyClearsErr : Prop :=
  decodeWord 0x00000000 = .ok .nop
  ∧ (∀ (s : State) (c : Command), s.phase = .busy c → exec .nop s = .next (s.completed 0))
  ∧ (∀ s : State, s.phase = .idle → exec .nop s = .next ((s.issue 0).completed 0))
  ∧ ∀ s : State, (s.completed 0).statusWord = if s.cfgValid then 0x00000006 else 0x00000002

/-- R111, R112: with every check passed CFG latches the configuration and the derived geometry, and changes nothing
else. -/
def Obligations.CfgLatchesConfiguration : Prop :=
  ∀ (s : State) (c : Command), s.phase = .busy c →
    c.args.srcType = 1 → (c.args.dstFmt = 1 ∨ c.args.dstFmt = 2 ∨ c.args.dstFmt = 3) →
    (c.args.precision = 1 ∨ c.args.precision = 2) → c.args.srcWidth ≠ 0 → c.args.srcHeight ≠ 0 →
    (c.args.precision = 2 → c.args.srcWidth.toNat % 2 = 0) →
    exec .cfg s = .next
      { s.completed 0 with
        active := { prec := BitVec.ofNat 2 c.args.precision.toNat
                    cvt := c.args.convertYuv
                    packed := decide (c.args.dstFmt = 3)
                    pshift := BitVec.ofNat 4 (c.args.precision.toNat + 1)
                    fmt := BitVec.ofNat 4 c.args.dstFmt.toNat }
        dstWidth := if c.args.precision = 2 then BitVec.ofNat 32 (c.args.srcWidth.toNat / 2) else c.args.srcWidth
        dstHeight := c.args.srcHeight
        cfgValid := true }

/-- R111, R113, R201: the first check that fails gives the code, and the failed CFG drops the configuration and changes
nothing else. -/
def Obligations.CfgFailsWithFirstError : Prop :=
  ∀ (s : State) (c : Command), s.phase = .busy c →
    let failed (e : BitVec 4) : State :=
      { s.completed e with active := Active.zero, dstWidth := 0, dstHeight := 0, cfgValid := false }
    let fmtOk := c.args.dstFmt = 1 ∨ c.args.dstFmt = 2 ∨ c.args.dstFmt = 3
    let precOk := c.args.precision = 1 ∨ c.args.precision = 2
    (c.args.srcType ≠ 1 → exec .cfg s = .next (failed 1))
    ∧ (c.args.srcType = 1 → ¬ fmtOk → exec .cfg s = .next (failed 2))
    ∧ (c.args.srcType = 1 → fmtOk → ¬ precOk → exec .cfg s = .next (failed 3))
    ∧ (c.args.srcType = 1 → fmtOk → precOk →
        (c.args.srcWidth = 0 ∨ c.args.srcHeight = 0 ∨ (c.args.precision = 2 ∧ c.args.srcWidth.toNat % 2 = 1)) →
        exec .cfg s = .next (failed 4))

/-- The table of R116, which the spec marks as derived from R112 and R33: DST_FMT, PRECISION, CVT and the ACTIVE word
after a successful CFG. -/
def activeTable : List (Word × Word × Bool × Word) :=
  [(1, 1, false, 0x00000121), (1, 1, true, 0x00000125), (1, 2, false, 0x00000132), (1, 2, true, 0x00000136),
   (2, 1, false, 0x00000221), (2, 1, true, 0x00000225), (2, 2, false, 0x00000232), (2, 2, true, 0x00000236),
   (3, 1, false, 0x00000329), (3, 1, true, 0x0000032D), (3, 2, false, 0x0000033A), (3, 2, true, 0x0000033E)]

/-- The ACTIVE word after a successful CFG, by the formula and the table of 12 values that R116 derives from R112 and
R33 (the spec's own inference: "It takes exactly one of these 12 values, and no other"). -/
def Obligations.ActiveWordAfterCfg : Prop :=
  ∀ (s : State) (c : Command) (t : State), s.phase = .busy c → exec .cfg s = .next t → t.err = 0 →
    (c.args.dstFmt, c.args.precision, c.args.convertYuv, t.active.word) ∈ activeTable
    ∧ t.active.word.toNat = t.active.prec.toNat + (if t.active.cvt then 1 else 0) * 2 ^ 2
        + (if t.active.packed then 1 else 0) * 2 ^ 3 + t.active.pshift.toNat * 2 ^ 4 + t.active.fmt.toNat * 2 ^ 8

/-- The geometry law, the spec's own inference (R115, "derived: from rule R112"): after a successful CFG, DST_HEIGHT =
SRC_HEIGHT always, DST_WIDTH = SRC_WIDTH when PREC = 1 and SRC_WIDTH / 2 when PREC = 2. -/
def Obligations.GeometryLaw : Prop :=
  ∀ (s : State) (c : Command) (t : State), s.phase = .busy c → exec .cfg s = .next t → t.err = 0 →
    t.dstHeight = c.args.srcHeight
    ∧ (t.active.prec = 1 → t.dstWidth = c.args.srcWidth)
    ∧ (t.active.prec = 2 → 2 * t.dstWidth.toNat = c.args.srcWidth.toNat)
    ∧ (t.active.prec = 1 ∨ t.active.prec = 2)

/-! ### CONV -/

/-- R68: a packed CONV under its host duties writes every byte of its buffer: memory row m holds source row H − 1 − m,
pixel x its bytes 4x to 4x+3, every other byte of the buffer is 0. The source bytes are those in memory as it stands at
completion (R77). Nothing else changes but STATUS, and the host has the completion yet to see (R78, assumption 22). -/
def Obligations.PackedConvFinalState : Prop :=
  ∀ (s : State) (c : Command), s.mem.wf = true → s.phase = .busy c → c.cfgValid = true →
    c.hostDuties s.params s.devices = true → c.active.packed = true →
    ∃ t, exec .conv s = .next t ∧ t = { s.completed 0 with mem := t.mem, awaited := some c }
      ∧ (∀ m j, m < c.H → j < c.bufs.dst0Stride.toNat →
          t.mem.read (c.bufs.dst0Base.toNat + m * c.bufs.dst0Stride.toNat + j) = c.packedByte s.params s.mem m j)
      ∧ (∀ a, a ∉ c.packedBytes → t.mem.read a = s.mem.read a)

/-- R69: a planar CONV under its host duties writes the three samples of every logical pixel in place, leaves every
other byte (the planes' row padding too), and changes nothing else but STATUS, and the host has the completion yet to
see (R78, assumption 22). -/
def Obligations.PlanarConvFinalState : Prop :=
  ∀ (s : State) (c : Command), s.mem.wf = true → s.phase = .busy c → c.cfgValid = true →
    c.hostDuties s.params s.devices = true → c.active.packed = false →
    ∃ t, exec .conv s = .next t ∧ t = { s.completed 0 with mem := t.mem, awaited := some c }
      ∧ (∀ i x, i < c.H → x < c.W →
          let o := c.pixelAt s.params s.mem i x
          t.mem.read (c.bufs.dst0Base.toNat + i * c.bufs.dst0Stride.toNat + x) = o.o0
          ∧ t.mem.read (c.bufs.dst1Base.toNat + i * c.bufs.dstUvStride.toNat + x) = o.o1
          ∧ t.mem.read (c.bufs.dst2Base.toNat + i * c.bufs.dstUvStride.toNat + x) = o.o2)
      ∧ (∀ a, (∀ i x, i < c.H → x < c.W →
            a ≠ c.bufs.dst0Base.toNat + i * c.bufs.dst0Stride.toNat + x
            ∧ a ≠ c.bufs.dst1Base.toNat + i * c.bufs.dstUvStride.toNat + x
            ∧ a ≠ c.bufs.dst2Base.toNat + i * c.bufs.dstUvStride.toNat + x) →
          t.mem.read a = s.mem.read a)

/-- R65, R63: which source bytes a logical pixel's three raw channels are: at `sb + i*ss + (x << S)` plus 0, P and 2P,
one byte when P = 1, two little-endian bytes when P = 2. -/
def Obligations.PixelReadsItsOwnChannels : Prop :=
  ∀ (p : Params) (c : Command) (m : Memory) (i x : Nat),
    let at' := c.bufs.srcBase.toNat + i * c.bufs.srcStride.toNat + x * 2 ^ c.active.pshift.toNat
    (c.active.prec = 1 →
      c.pixelAt p m i x = kernel p 1 c.active.cvt ((m.read at').setWidth 16) ((m.read (at' + 1)).setWidth 16)
        ((m.read (at' + 2)).setWidth 16))
    ∧ (c.active.prec = 2 →
      c.pixelAt p m i x = kernel p 2 c.active.cvt (m.read (at' + 1) ++ m.read at')
        (m.read (at' + 3) ++ m.read (at' + 2)) (m.read (at' + 5) ++ m.read (at' + 4)))

/-- The packed laws, the spec's own inference (R136, "derived: from rule R134"): the vertical flip, the zero alpha and
padding bytes, and every byte in [0, 255]. -/
def Obligations.PackedFlipAndZeroBytes : Prop :=
  ∀ (s : State) (c : Command) (t : State), s.mem.wf = true → s.phase = .busy c → c.cfgValid = true →
    c.active.packed = true → exec .conv s = .next t →
    let row (m j : Nat) : Nat := c.bufs.dst0Base.toNat + m * c.bufs.dst0Stride.toNat + j
    (∀ x, 0 < c.H → x < c.W →
      (t.mem.readBytes (row (c.H - 1) (4 * x)) 3 = (c.pixelAt s.params s.mem 0 x).packed)
      ∧ (t.mem.readBytes (row 0 (4 * x)) 3 = (c.pixelAt s.params s.mem (c.H - 1) x).packed))
    ∧ (∀ m j, m < c.H → j < c.bufs.dst0Stride.toNat → (j % 4 = 3 ∨ 4 * c.W ≤ j) → t.mem.read (row m j) = 0)
    ∧ ∀ a, (t.mem.read a).toNat ≤ 255

/-- R130, R175, R203: with CFG_VALID = 0 at issue, CONV and PIX report NOT_CONFIGURED and change nothing but STATUS: no
memory is written and PIX_OUT keeps its value. -/
def Obligations.UnconfiguredCommandsDoNothing : Prop :=
  ∀ (s : State) (c : Command), s.phase = .busy c → c.cfgValid = false →
    exec .conv s = .next (s.completed 5) ∧ exec .pix s = .next (s.completed 5)

/-- R130, R132, R207: a CONV whose host duties fail ends in a fault. -/
def Obligations.ConvFaultsWhenDutyFails : Prop :=
  ∀ (s : State) (c : Command), s.phase = .busy c → c.cfgValid = true →
    c.hostDuties s.params s.devices = false → ∃ f, exec .conv s = .fault f

/-- R132, R70: the checks decide the spec's conditions on the sets of R67 to R69: every address in the space, source and
destination disjoint, the stride minima, the planes pairwise disjoint, and ordinary memory. -/
def Obligations.HostDutiesDecideTheConditions : Prop :=
  ∀ (p : Params) (devices : List Region) (c : Command),
    c.hostDuties p devices = true ↔
      (∀ a, a ∈ c.srcBytes ∨ a ∈ c.dstBytes → a ≤ 2 ^ p.addrW - 1)
      ∧ (∀ a, a ∈ c.srcBytes → a ∉ c.dstBytes)
      ∧ (c.active.packed = true → 4 * c.W ≤ c.bufs.dst0Stride.toNat)
      ∧ (c.active.packed = false →
          c.W ≤ c.bufs.dst0Stride.toNat ∧ c.W ≤ c.bufs.dstUvStride.toNat
          ∧ (∀ a, a ∈ c.yBytes → a ∉ c.uBytes) ∧ (∀ a, a ∈ c.yBytes → a ∉ c.vBytes)
          ∧ (∀ a, a ∈ c.uBytes → a ∉ c.vBytes))
      ∧ (∀ a, a ∈ c.srcBytes ∨ a ∈ c.dstBytes → ordinary devices a = true)

/-- The spec's own inference R82 ("derived: from rule R77 and 42_pixel_kernel.md rule R171"): a CONV issued again, in
any memory with the same source bytes, writes the same destination bytes; on its own result it changes nothing.
`configuredWords` rules out snapshots that no CFG latches (StepKeepsInvariant, ConfigOk): with PREC = 0 SrcBytes would
be empty. -/
def Obligations.ConvRepeatsItsResult : Prop :=
  ∀ (s : State) (c : Command) (t u : State), s.mem.wf = true → u.mem.wf = true →
    s.phase = .busy c → u.phase = .busy c → u.params = s.params → u.devices = s.devices → c.cfgValid = true →
    c.active.word ∈ configuredWords → exec .conv s = .next t →
    ((∀ a, a ∈ c.srcBytes → u.mem.read a = s.mem.read a) →
      ∃ v, exec .conv u = .next v ∧ ∀ a, a ∈ c.dstBytes → v.mem.read a = t.mem.read a)
    ∧ (u.mem = t.mem → ∃ v, exec .conv u = .next v ∧ v.mem = t.mem)

/-- R131, R77, R231: under the host duties, the pixels in any order give the memory that the reference order gives. -/
def Obligations.PixelOrderDoesNotMatter : Prop :=
  ∀ (p : Params) (devices : List Region) (c : Command) (m : Memory) (l : List (Nat × Nat)),
    m.wf = true → c.hostDuties p devices = true → l.Perm c.pixels →
    (c.active.packed = true → c.paintPacked p m l (c.zeroFill m) = c.drive p m)
    ∧ (c.active.packed = false → c.paintPlanar p m l m = c.drive p m)

/-- R76, R77, R78(1): from the issue of a CONV that converts, through any moves of the host that do not fault, to its
completion: the destination bytes are those the drivers compute from memory as it stood at issue, and every other byte
is as the host left it. This is what makes the two readings of R134 and R77 one (assumption 14). -/
def Obligations.ConvSeesSourceAsAtIssue : Prop :=
  ∀ (s s1 s2 : State) (w : Word) (n : Nat), s.Inv → s.phase = .idle → s.cfgValid = true →
    decodeWord w = .ok .conv → hostRegWrite { offset := 0, bytes := 4 } w s = .next s1 →
    hostMoves n s1 = .next s2 →
    ∃ t, engineTurn s2 = .next t
      ∧ (∀ a, a ∈ (s.snapshot w).dstBytes → t.mem.read a = ((s.snapshot w).drive s.params s.mem).read a)
      ∧ (∀ a, a ∉ (s.snapshot w).dstBytes → t.mem.read a = s2.mem.read a)

/-- R112, R142(a): the format code plays no part in a conversion: YV12 converts exactly as YV24. -/
def Obligations.FormatCodeDoesNotChangeConv : Prop :=
  ∀ (p : Params) (devices : List Region) (c : Command) (m : Memory) (fmt : BitVec 4),
    let c' := { c with active := { c.active with fmt := fmt } }
    c'.drive p m = c.drive p m ∧ c'.dutyViolation p devices = c.dutyViolation p devices

/-! ### PIX and the kernel -/

/-- R175, R44: PIX with CFG_VALID = 1 puts the kernel's outputs for the masked operands in PIX_OUT and changes nothing
else but STATUS; PIX_OUT's little-endian bytes are the packed destination pixel. -/
def Obligations.PixWritesKernelResult : Prop :=
  ∀ (s : State) (c : Command), s.phase = .busy c → c.cfgValid = true →
    let m : Half := if c.active.prec = 1 then 0x00FF else 0xFFFF
    let o := kernel s.params c.active.prec c.active.cvt (c.pix.b &&& m) (c.pix.g &&& m) (c.pix.r &&& m)
    let t : State := { s.completed 0 with pixOut := o.o0 ++ o.o1 ++ o.o2 }
    exec .pix s = .next t ∧ wordBytes t.pixOutWord = [o.o2, o.o1, o.o0, 0]

/-- R175: a PIX on a pixel's raw channel values gives the bytes that CONV writes for that pixel; when P = 1 only bits
7:0 of PIX_B/G/R count. -/
def Obligations.PixAgreesWithConv : Prop :=
  ∀ (p : Params) (c : Command) (m : Memory) (i x : Nat),
    ((c.active.prec = 1 ∧ c.pix.b.setWidth 8 = m.read (c.chanAddr i x 0)
        ∧ c.pix.g.setWidth 8 = m.read (c.chanAddr i x 1) ∧ c.pix.r.setWidth 8 = m.read (c.chanAddr i x 2))
      ∨ (c.active.prec = 2
        ∧ c.pix.b = m.read (c.chanAddr i x 0 + 1) ++ m.read (c.chanAddr i x 0)
        ∧ c.pix.g = m.read (c.chanAddr i x 1 + 1) ++ m.read (c.chanAddr i x 1)
        ∧ c.pix.r = m.read (c.chanAddr i x 2 + 1) ++ m.read (c.chanAddr i x 2))) →
    c.pixKernel p = c.pixelAt p m i x

/-- R169: RC is round-half-up followed by saturation: the truncation and the floor of t + 1/2 clamp to the same byte and
differ only where t + 1/2 is negative, values above 255 give 255, values below 0 give 0, the infinities follow, and NaN
gives NAN_BYTE. -/
def Obligations.RoundHalfUpAndSaturate : Prop :=
  ∀ (nanByte : Byte),
    (∀ q : Frac, 0 < q.den →
      rc nanByte (.fin q) = clampByte ((2 * q.num + q.den).tdiv (2 * q.den))
      ∧ (0 ≤ 2 * q.num + q.den → (2 * q.num + q.den).tdiv (2 * q.den) = (2 * q.num + q.den) / (2 * q.den))
      ∧ rc nanByte (.fin q) = clampByte ((2 * q.num + q.den) / (2 * q.den))
      ∧ (255 * (q.den : Int) < q.num → rc nanByte (.fin q) = 255)
      ∧ (q.num < 0 → rc nanByte (.fin q) = 0))
    ∧ rc nanByte .posInf = 255 ∧ rc nanByte .negInf = 0 ∧ rc nanByte .nan = nanByte

/-- R162: the value of every binary16 pattern, subnormals exact, and which patterns are infinities and NaN. -/
def Obligations.Binary16DecodesExactly : Prop :=
  ∀ raw : BitVec 16,
    let neg := raw.getLsbD 15
    let e := (raw.extractLsb' 10 5).toNat
    let f := (raw.extractLsb' 0 10).toNat
    (e = 0 → ∃ q, dec16 raw = .fin q ∧ 0 < q.den ∧ q.num * 2 ^ 24 = (if neg then -(f : Int) else f) * q.den)
    ∧ (1 ≤ e → e ≤ 30 → ∃ q, dec16 raw = .fin q ∧ 0 < q.den
        ∧ q.num * 2 ^ 25 = (if neg then -(1024 + f : Int) else 1024 + f) * 2 ^ e * q.den)
    ∧ (e = 31 → f = 0 → dec16 raw = if neg then .negInf else .posInf)
    ∧ (e = 31 → f ≠ 0 → dec16 raw = .nan)

/-- R161, R165, R169, and under BINARY32 R168: pass-through with P = 1 is the identity on the low bytes (the spec's own
inference R172(b), which it states for EXACT; here for both values of KERNEL_ARITH). -/
def Obligations.PassThroughPrecision1IsIdentity : Prop :=
  ∀ (p : Params) (b g r : Half),
    kernel p 1 false b g r = { o0 := r.setWidth 8, o1 := g.setWidth 8, o2 := b.setWidth 8 }

/-- R162, R163, R165 to R167, R169: the kernel on binary16 channels under EXACT. In pass-through each output is RC of
255 times its own channel's value, saturated for an infinity (the spec's own inference R172(c), with its three values).
Under the matrix, on three finite channels, each output is RC of its row over 255 times the channels, as one fraction.
-/
def Obligations.Precision2KernelScalesBy255 : Prop :=
  (∀ (n : Byte) (b g r : Half),
    let o := kernelExact n 2 false b g r
    let lane (raw : Half) (out : Byte) : Prop :=
      (∀ q, dec16 raw = .fin q → out = rc n (.fin { num := 255 * q.num, den := q.den }))
      ∧ (dec16 raw = .posInf → out = 255) ∧ (dec16 raw = .negInf → out = 0) ∧ (dec16 raw = .nan → out = n)
    lane r o.o0 ∧ lane g o.o1 ∧ lane b o.o2)
  ∧ (∀ n : Byte, kernelExact n 2 false 0x3C00 0x3800 0x0000 = { o0 := 0, o1 := 128, o2 := 255 })
  ∧ ∀ (n : Byte) (b g r : Half) (qb qg qr : Frac), dec16 b = .fin qb → dec16 g = .fin qg → dec16 r = .fin qr →
    let o := kernelExact n 2 true b g r
    let row (cr cg cb k : Int) : Byte := rc n (.fin
      { num := 255 * (cr * qr.num * qg.den * qb.den + cg * qg.num * qr.den * qb.den + cb * qb.num * qr.den * qg.den)
          + 1000 * k * (qr.den * qg.den * qb.den)
        den := 1000 * (qr.den * qg.den * qb.den) })
    o.o0 = row 257 504 98 16 ∧ o.o1 = row (-148) (-291) 439 128 ∧ o.o2 = row 439 (-368) (-71) 128

/-- The spec's own inference R172(d), from R164, R167 and R169: a finite grey input gives U = V = 128 exactly, and Y =
RC(0.859 v + 16). -/
def Obligations.GreyLaw : Prop :=
  ∀ (nanByte : Byte) (P : BitVec 2) (raw : Half) (v : Frac), chan P raw = .fin v →
    let o := kernelExact nanByte P true raw raw raw
    o.o1 = 128 ∧ o.o2 = 128
    ∧ o.o0 = rc nanByte (.fin { num := 859 * v.num + 16000 * v.den, den := 1000 * v.den })

/-- The spec's own inferences R172(e) and R173, from R164, R167, R169 and R171: with P = 1 and V = 1 the outputs stay in
[16, 235] and [16, 240]; black and white give the source's canonical values. -/
def Obligations.MatrixRangePrecision1 : Prop :=
  ∀ nanByte : Byte,
    (∀ b g r : Half,
      let o := kernelExact nanByte 1 true b g r
      16 ≤ o.o0.toNat ∧ o.o0.toNat ≤ 235 ∧ 16 ≤ o.o1.toNat ∧ o.o1.toNat ≤ 240
        ∧ 16 ≤ o.o2.toNat ∧ o.o2.toNat ≤ 240)
    ∧ kernelExact nanByte 1 true 0 0 0 = { o0 := 16, o1 := 128, o2 := 128 }
    ∧ kernelExact nanByte 1 true 255 255 255 = { o0 := 235, o1 := 128, o2 := 128 }

/-- R164, R166, R167, R169, as one integer formula: on P = 1 inputs under EXACT each output of the matrix is the rounded
thousandth sum of its row. -/
def Obligations.MatrixPrecision1InIntegers : Prop :=
  ∀ (nanByte : Byte) (b g r : Half),
    let B : Int := (b.setWidth 8).toNat
    let G : Int := (g.setWidth 8).toNat
    let R : Int := (r.setWidth 8).toNat
    let o := kernelExact nanByte 1 true b g r
    (o.o0.toNat : Int) = (257 * R + 504 * G + 98 * B + 16000 + 500) / 1000
    ∧ (o.o1.toNat : Int) = (-148 * R - 291 * G + 439 * B + 128000 + 500) / 1000
    ∧ (o.o2.toNat : Int) = (439 * R - 368 * G - 71 * B + 128000 + 500) / 1000

/-- R166, R170, R171: NAN_BYTE never shows when P = 1; under the matrix one NaN channel makes all three outputs
NAN_BYTE, and an output whose pre-rounding value is not NaN does not show it; in pass-through an output shows it only
for its own channel's NaN, and depends on no other channel. -/
def Obligations.NanByteShowsOnlyForNan : Prop :=
  (∀ (n : Byte) (V : Bool) (b g r : Half), kernelExact n 1 V b g r = kernelExact 0 1 V b g r)
  ∧ (∀ (n : Byte) (b g r : Half), (dec16 b = .nan ∨ dec16 g = .nan ∨ dec16 r = .nan) →
      kernelExact n 2 true b g r = { o0 := n, o1 := n, o2 := n })
  ∧ (∀ (n : Byte) (b g r : Half),
      let t (c : Row) : Ext := lin c (chan 2 r) (chan 2 g) (chan 2 b)
      let o := kernelExact n 2 true b g r
      let o' := kernelExact 0 2 true b g r
      (if t rowY = .nan then o.o0 = n else o.o0 = o'.o0) ∧ (if t rowU = .nan then o.o1 = n else o.o1 = o'.o1)
        ∧ (if t rowV = .nan then o.o2 = n else o.o2 = o'.o2))
  ∧ (∀ (n : Byte) (b g r : Half),
      let o := kernelExact n 2 false b g r
      let o' := kernelExact 0 2 false b g r
      (if dec16 r = .nan then o.o0 = n else o.o0 = o'.o0) ∧ (if dec16 g = .nan then o.o1 = n else o.o1 = o'.o1)
        ∧ (if dec16 b = .nan then o.o2 = n else o.o2 = o'.o2))
  ∧ ∀ (n : Byte) (b g r b' g' r' : Half),
      (kernelExact n 2 false b g r).o0 = (kernelExact n 2 false b' g' r).o0
      ∧ (kernelExact n 2 false b g r).o1 = (kernelExact n 2 false b' g r').o1
      ∧ (kernelExact n 2 false b g r).o2 = (kernelExact n 2 false b g' r').o2

/-- What R166 makes of a row with infinite terms, by the signs of its r, g and b coefficients (`true` is positive):
terms of both signs give NaN and so NAN_BYTE, terms of one sign saturate. -/
def infiniteRow (pr pg pb : Bool) (n : Byte) (r g b : Ext) (out : Byte) : Prop :=
  let up : Prop := r = Ext.inf (!pr) ∨ g = Ext.inf (!pg) ∨ b = Ext.inf (!pb)
  let down : Prop := r = Ext.inf pr ∨ g = Ext.inf pg ∨ b = Ext.inf pb
  (up → down → out = n) ∧ (up → ¬down → out = 255) ∧ (down → ¬up → out = 0)

/-- R166, R169, R170: infinite channels under the matrix, for every combination of signs and of finite channels: each
row goes by the signs of its own terms. With r = g = +inf and a finite b: Y is +inf, U is −inf, V is inf − inf = NaN. -/
def Obligations.OppositeInfinitiesGiveNanByte : Prop :=
  (∀ (n : Byte) (b g r : Half), dec16 b ≠ .nan → dec16 g ≠ .nan → dec16 r ≠ .nan →
    let o := kernelExact n 2 true b g r
    infiniteRow true true true n (dec16 r) (dec16 g) (dec16 b) o.o0
    ∧ infiniteRow false false true n (dec16 r) (dec16 g) (dec16 b) o.o1
    ∧ infiniteRow true false false n (dec16 r) (dec16 g) (dec16 b) o.o2)
  ∧ ∀ (n : Byte) (b : Half) (q : Frac), dec16 b = .fin q →
    kernelExact n 2 true b 0x7C00 0x7C00 = { o0 := 255, o1 := 0, o2 := n }

/-- The finite binary32 value `e` is what R10's rounding makes of the decimal `n / 1000`. -/
def isRounded (n : Int) (e : Ext) : Prop :=
  ∃ x y, f32 (milli n) = .fin x ∧ e = .fin y ∧ 0 < x.den ∧ 0 < y.den ∧ x.num * y.den = y.num * x.den

/-- R168: every coefficient and offset of the three binary32 rows is the rounding of its decimal, and so is the scale
0x437F0000; the rows hold R168's patterns. -/
def Obligations.Binary32CoefficientsAreRounded : Prop :=
  (isRounded 257 row32Y.c0 ∧ isRounded 504 row32Y.c1 ∧ isRounded 98 row32Y.c2 ∧ isRounded 16000 row32Y.k)
  ∧ (isRounded (-148) row32U.c0 ∧ isRounded (-291) row32U.c1 ∧ isRounded 439 row32U.c2 ∧ isRounded 128000 row32U.k)
  ∧ (isRounded 439 row32V.c0 ∧ isRounded (-368) row32V.c1 ∧ isRounded (-71) row32V.c2 ∧ isRounded 128000 row32V.k)
  ∧ isRounded 255000 (dec32 0x437F0000)
  ∧ row32Y = { c0 := dec32 0x3E839581, c1 := dec32 0x3F010625, c2 := dec32 0x3DC8B439, k := dec32 0x41800000 }
  ∧ row32U = { c0 := dec32 0xBE178D50, c1 := dec32 0xBE94FDF4, c2 := dec32 0x3EE0C49C, k := dec32 0x43000000 }
  ∧ row32V = { c0 := dec32 0x3EE0C49C, c1 := dec32 0xBEBC6A7F, c2 := dec32 0xBD916873, k := dec32 0x43000000 }

/-- R168, R171: the kernel under BINARY32. Each row is rounded after every product and every sum, in R168's order, on
R168's patterns; a channel is its byte, or 255 times the binary16 value rounded; RC32 rounds t + 1/2, truncates and
saturates, and gives NAN_BYTE for NaN. Its example: Y of (r, g, b) = (46, 35, 31) is 48. Infinities and NaN go by IEEE
754, which R168 names and log entry 11 spells out (PRESUMED). -/
def Obligations.Binary32KernelRoundsInOrder : Prop :=
  (∀ (w : Nat) (n : Byte) (P : BitVec 2) (b g r : Half),
    let p : Params := { addrW := w, arith := .binary32, nanByte := n }
    let row (c0 c1 c2 k : BitVec 32) : Byte :=
      rc32 n (Ext.add32 (Ext.add32 (Ext.add32 (Ext.mul32 (dec32 c0) (chan32 P r)) (Ext.mul32 (dec32 c1) (chan32 P g)))
        (Ext.mul32 (dec32 c2) (chan32 P b))) (dec32 k))
    kernel p P true b g r =
      { o0 := row 0x3E839581 0x3F010625 0x3DC8B439 0x41800000
        o1 := row 0xBE178D50 0xBE94FDF4 0x3EE0C49C 0x43000000
        o2 := row 0x3EE0C49C 0xBEBC6A7F 0xBD916873 0x43000000 }
    ∧ kernel p P false b g r =
      { o0 := rc32 n (chan32 P r), o1 := rc32 n (chan32 P g), o2 := rc32 n (chan32 P b) })
  ∧ (∀ raw : Half, chan32 1 raw = .fin { num := (raw.setWidth 8).toNat, den := 1 })
  ∧ (∀ (raw : Half) (q : Frac), dec16 raw = .fin q → chan32 2 raw = f32 { num := 255 * q.num, den := q.den })
  ∧ (∀ raw : Half, (dec16 raw = .posInf ∨ dec16 raw = .negInf ∨ dec16 raw = .nan) → chan32 2 raw = dec16 raw)
  ∧ (∀ x y : Frac, Ext.mul32 (.fin x) (.fin y) = f32 { num := x.num * y.num, den := x.den * y.den }
      ∧ Ext.add32 (.fin x) (.fin y) = f32 { num := x.num * y.den + y.num * x.den, den := x.den * y.den })
  ∧ (∀ (n : Byte) (q : Frac), rc32 n (.fin q) =
      match f32 { num := 2 * q.num + q.den, den := 2 * q.den } with
      | .fin u => clampByte (u.num.tdiv u.den)
      | .posInf => 255
      | .negInf => 0
      | .nan => n)
  ∧ (∀ n : Byte, rc32 n .posInf = 255 ∧ rc32 n .negInf = 0 ∧ rc32 n .nan = n
      ∧ (kernel32 n 1 true 31 35 46).o0 = 48)
  ∧ (∀ (x : Frac) (neg : Bool),
      (x.num ≠ 0 → Ext.mul32 (.fin x) (Ext.inf neg) = Ext.inf (neg != decide (x.num < 0))
        ∧ Ext.mul32 (Ext.inf neg) (.fin x) = Ext.inf (neg != decide (x.num < 0)))
      ∧ (x.num = 0 → Ext.mul32 (.fin x) (Ext.inf neg) = .nan ∧ Ext.mul32 (Ext.inf neg) (.fin x) = .nan)
      ∧ Ext.add32 (.fin x) (Ext.inf neg) = Ext.inf neg ∧ Ext.add32 (Ext.inf neg) (.fin x) = Ext.inf neg)
  ∧ (∀ a b : Bool, Ext.mul32 (Ext.inf a) (Ext.inf b) = Ext.inf (a != b)
      ∧ Ext.add32 (Ext.inf a) (Ext.inf b) = if a = b then Ext.inf a else .nan)
  ∧ (∀ e : Ext, Ext.mul32 .nan e = .nan ∧ Ext.mul32 e .nan = .nan ∧ Ext.add32 .nan e = .nan ∧ Ext.add32 e .nan = .nan)

/-- R168, R171, with IEEE 754's special values (log entry 11, PRESUMED): infinite and NaN channels under the matrix in
BINARY32. Each row goes by the signs of its infinite terms, for every combination of signs and of finite channels, and a
NaN channel makes all three outputs NAN_BYTE. -/
def Obligations.Binary32InfinitiesFollowTheirSigns : Prop :=
  (∀ (n : Byte) (b g r : Half), dec16 b ≠ .nan → dec16 g ≠ .nan → dec16 r ≠ .nan →
    let o := kernel32 n 2 true b g r
    infiniteRow true true true n (dec16 r) (dec16 g) (dec16 b) o.o0
    ∧ infiniteRow false false true n (dec16 r) (dec16 g) (dec16 b) o.o1
    ∧ infiniteRow true false false n (dec16 r) (dec16 g) (dec16 b) o.o2)
  ∧ ∀ (n : Byte) (b g r : Half), (dec16 b = .nan ∨ dec16 g = .nan ∨ dec16 r = .nan) →
    kernel32 n 2 true b g r = { o0 := n, o1 := n, o2 := n }

/-- The rational that a fraction stands for (R11). -/
def rationalOf (q : Frac) : ℚ := q.num / q.den

/-- R10, R162: `f32` rounds a rational to the nearest binary32 value, ties to the pattern whose last bit is 0; a
magnitude from half a step above the largest finite value on gives an infinity (IEEE 754, log entry 11). In particular
the conversion to binary32 is exact for every finite binary16 value. -/
def Obligations.Binary16FitsBinary32 : Prop :=
  (∀ x : Frac, 0 < x.den →
    (f32 x = .posInf ↔ (2 ^ 128 - 2 ^ 103 : ℚ) ≤ rationalOf x)
    ∧ (f32 x = .negInf ↔ rationalOf x ≤ -(2 ^ 128 - 2 ^ 103 : ℚ))
    ∧ f32 x ≠ .nan
    ∧ ∀ y, f32 x = .fin y → ∃ (bits : BitVec 32) (z : Frac), 0 < y.den ∧ dec32 bits = .fin z
        ∧ rationalOf z = rationalOf y
        ∧ ∀ (bits' : BitVec 32) (z' : Frac), dec32 bits' = .fin z' →
          |rationalOf x - rationalOf y| ≤ |rationalOf x - rationalOf z'|
          ∧ (|rationalOf x - rationalOf y| = |rationalOf x - rationalOf z'| → rationalOf z' ≠ rationalOf y →
              bits.getLsbD 0 = false))
  ∧ ∀ (raw : BitVec 16) (q : Frac), dec16 raw = .fin q →
    ∃ x, f32 q = .fin x ∧ 0 < x.den ∧ x.num * q.den = q.num * x.den

/-! ### The register window, STATUS and the host's accesses -/

/-- R49, with R21, R33 to R35, R43 and R44 for what each register shows: a write to a read-only register has no effect;
a write to any register while BUSY = 1 has no effect; a read changes no register; a write to an RW register while BUSY =
0 stores its stored bits, which read back, every other bit of it reads 0, and every other register keeps its value. A
read of STATUS with DONE = 1 also changes what later reads of memory give (R78(2), assumption 22), and no other read
does. The read of each offset of the window's table shows its own field. -/
def Obligations.RegisterAccessRules : Prop :=
  (∀ (s : State) (r : Reg) (v : Word),
    let at' : RegAccess := { offset := r.offset, bytes := 4 }
    (r.writable = false → r ≠ .cmd → hostRegWrite at' v s = .next s)
    ∧ (s.phase.isBusy = true → hostRegWrite at' v s = .next s)
    ∧ (∃ t, hostRegRead at' s = .next t
        ∧ t = { s with
            observed := .reg r.offset (s.readReg r.offset) :: s.observed, awaited := t.awaited, missed := t.missed }
        ∧ (r ≠ .status ∨ s.done = false → t.awaited = s.awaited ∧ t.missed = s.missed)
        ∧ ∀ o, t.readReg o = s.readReg o)
    ∧ (r.writable = true → s.phase.isBusy = false →
        ∃ t, hostRegWrite at' v s = .next t ∧ t.readReg r.offset = v &&& r.storedBits
          ∧ ∀ r', r' ≠ r → t.readReg r'.offset = s.readReg r'.offset))
  ∧ ∀ s : State,
    s.readReg 0x00 = 0 ∧ s.readReg 0x04 = s.statusWord
    ∧ s.readReg 0x08 = s.args.srcType ∧ s.readReg 0x0C = s.args.dstFmt
    ∧ s.readReg 0x10 = (if s.args.convertYuv then 1 else 0)
    ∧ s.readReg 0x14 = s.args.precision ∧ s.readReg 0x18 = s.args.srcWidth ∧ s.readReg 0x1C = s.args.srcHeight
    ∧ s.readReg 0x20 = s.active.word ∧ s.readReg 0x24 = s.dstWidth ∧ s.readReg 0x28 = s.dstHeight
    ∧ s.readReg 0x2C = s.bufs.srcBase ∧ s.readReg 0x30 = s.bufs.srcStride
    ∧ s.readReg 0x34 = s.bufs.dst0Base ∧ s.readReg 0x38 = s.bufs.dst0Stride
    ∧ s.readReg 0x3C = s.bufs.dst1Base ∧ s.readReg 0x40 = s.bufs.dst2Base ∧ s.readReg 0x44 = s.bufs.dstUvStride
    ∧ (s.readReg 0x48).toNat = s.pix.b.toNat ∧ (s.readReg 0x4C).toNat = s.pix.g.toNat
    ∧ (s.readReg 0x50).toNat = s.pix.r.toNat
    ∧ s.readReg 0x54 = s.pixOutWord ∧ (s.readReg 0x54).toNat = s.pixOut.toNat

/-- R45: the offsets 0x58 to 0xFC are reserved: a read returns 0, and a write has no effect. -/
def Obligations.ReservedOffsetsReadZero : Prop :=
  ∀ (s : State) (o : Nat) (v : Word), 0x58 ≤ o → o ≤ 0xFC → o % 4 = 0 →
    hostRegWrite { offset := o, bytes := 4 } v s = .next s
    ∧ hostRegRead { offset := o, bytes := 4 } s = .next (s.observe (.reg o 0))

/-- R20, R207(c); that it faults while BUSY too is the model's reading (assumption 21): an access that is sub-word,
wider, unaligned or outside the window is a fault. -/
def Obligations.BadRegisterAccessFaults : Prop :=
  ∀ (s : State) (a : RegAccess) (v : Word), (a.bytes ≠ 4 ∨ a.offset % 4 ≠ 0 ∨ 0x100 ≤ a.offset) →
    hostRegWrite a v s = .fault .badRegisterAccess ∧ hostRegRead a s = .fault .badRegisterAccess

/-- R26, with R22 to R25: the bits of STATUS. -/
def Obligations.StatusBits : Prop :=
  ∀ s : State,
    s.readReg 0x04 = s.statusWord
    ∧ s.statusWord.getLsbD 0 = s.phase.isBusy ∧ s.statusWord.getLsbD 1 = s.done
    ∧ s.statusWord.getLsbD 2 = s.cfgValid ∧ s.statusWord.extractLsb' 8 4 = s.err
    ∧ ∀ i, (3 ≤ i ∧ i ≤ 7) ∨ (12 ≤ i ∧ i ≤ 31) → s.statusWord.getLsbD i = false

/-- R23, R25: DONE and ERR are cleared by the issue of a command, written by its completion, and otherwise keep their
value until the next issue or a reset. -/
def Obligations.DoneAndErrLifetime : Prop :=
  ∀ s t : State, step s = .next t → s.turns.head? ≠ some .reset →
    (s.phase.isBusy = false → t.phase.isBusy = true → t.done = false ∧ t.err = 0)
    ∧ (s.phase.isBusy = true → t.phase.isBusy = false → t.done = true ∧ t.err.toNat ≤ 6)
    ∧ (s.phase.isBusy = t.phase.isBusy → t.done = s.done ∧ t.err = s.err)

/-- R96: one poll of WAIT reads STATUS; the host goes on when bit 1 reads 1, and else polls again (that a poll is one
move is assumption 15, a choice of the model). The poll that reads 1 delivers the command's writes (R78(2)). -/
def Obligations.WaitPollsUntilDone : Prop :=
  ∀ (s : State) (rest : List HostAction), s.host = .wait :: rest →
    ∃ t, hostTurn s = .next t
      ∧ t = { s with
          host := if s.done then rest else .wait :: rest
          observed := .reg 0x04 s.statusWord :: s.observed
          awaited := t.awaited, missed := t.missed }
      ∧ (s.done = false → t.awaited = s.awaited ∧ t.missed = s.missed)
      ∧ (s.done = true → ∀ a,
          t.unspecified a = true ↔ s.unspecified a = true ∧ (s.phase.ownsDst a = true ∨ a ∉ s.awaitedBytes))

/-- R76, R207(b): a host write that touches a byte the engine owns is a fault. -/
def Obligations.HostWriteToOwnedByteFaults : Prop :=
  ∀ (s : State) (c : Command) (addr : Nat) (bs : List Byte) (a : Nat),
    s.phase = .busy c → decodeFields c.op c.rsv = .ok .conv → c.cfgValid = true →
    (a ∈ c.srcBytes ∨ a ∈ c.dstBytes) → addr ≤ a → a < addr + bs.length →
    addr + bs.length ≤ 2 ^ s.params.addrW →
    hostMemWrite addr bs s = .fault .hostWritesOwnedByte

/-- R76, R60: a host write to addresses that the engine does not own lands, and changes nothing else. Where it covers a
destination byte of a CONV that has completed but whose DONE = 1 the host has not read, that it lands on top of the
engine's write is the model's reading, not the spec's words (log entry 22, DEDUCED, unsafe). -/
def Obligations.HostWriteLandsElsewhere : Prop :=
  ∀ (s : State) (addr : Nat) (bs : List Byte), s.mem.wf = true → addr + bs.length ≤ 2 ^ s.params.addrW →
    (∀ a, addr ≤ a → a < addr + bs.length → ordinary s.devices a = true) →
    (∀ c, s.phase = .busy c → c.converts = true →
      ∀ a, addr ≤ a → a < addr + bs.length → a ∉ c.srcBytes ∧ a ∉ c.dstBytes) →
    ∃ t, hostMemWrite addr bs s = .next t ∧ t = { s with mem := t.mem }
      ∧ t.mem.readBytes addr bs.length = bs
      ∧ ∀ a, (a < addr ∨ addr + bs.length ≤ a) → t.mem.read a = s.mem.read a

/-- R76, R78, R225, R96: a host read of n bytes of ordinary memory. A byte of the destination set of a CONV that the
host has not yet seen completed gives a free draw, whatever memory holds (assumption 7: a free draw is
`Config.freeByte`, of which nothing is known; assumption 22 says which CONVs these are); every other byte is memory's.
Nothing but the draw counter and what the host has seen changes. -/
def Obligations.HostReadOfDestinationIsFree : Prop :=
  (∀ (s : State) (addr n : Nat), addr + n ≤ 2 ^ s.params.addrW →
    (∀ a, addr ≤ a → a < addr + n → ordinary s.devices a = true) →
    let drawn (j : Nat) : Nat := ((List.range j).filter fun i => s.unspecified (addr + i)).length
    hostMemRead addr n s = .next
      { s with
        observed := .mem addr ((List.range n).map fun j =>
          if s.unspecified (addr + j) then Config.freeByte (s.draws + drawn j) else s.mem.read (addr + j)) :: s.observed
        draws := s.draws + drawn n })
  ∧ ∀ (s : State) (a : Nat), s.unspecified a = true ↔
      (∃ c, s.phase = .busy c ∧ c.converts = true ∧ a ∈ c.dstBytes)
      ∨ (∃ c, s.awaited = some c ∧ a ∈ c.dstBytes) ∨ a ∈ s.missed

/-- R225, R78(2): after a CONV has completed, its destination bytes stay unspecified to the host until it reads STATUS
with DONE = 1; that read delivers them, all of them and no others, and changes no byte of memory. -/
def Obligations.ConvResultUnspecifiedUntilDoneIsRead : Prop :=
  ∀ (s : State) (c : Command) (t : State), s.phase = .busy c → c.converts = true → engineTurn s = .next t →
    (∀ a, a ∈ c.dstBytes → t.unspecified a = true)
    ∧ ∃ u, hostRegRead { offset := 0x04, bytes := 4 } t = .next u ∧ u.mem = t.mem
      ∧ u.observed = .reg 0x04 t.statusWord :: t.observed ∧ t.statusWord.getLsbD 1 = true
      ∧ (∀ a, a ∈ c.dstBytes → u.unspecified a = false)
      ∧ (∀ a, a ∉ c.dstBytes → u.unspecified a = t.unspecified a)

/-- R78(3), R225: nothing but a read of STATUS that returns DONE = 1 for the command, by RD or by WAIT, makes a byte
that is unspecified to the host specified; but for a reset that abandons the CONV in flight, which leaves the byte a
value that memory holds (R221; assumption 22 says what a reset does to the others). -/
def Obligations.OnlyReadingDoneDelivers : Prop :=
  ∀ (s t : State) (a : Nat), s.Inv → step s = .next t → s.unspecified a = true → t.unspecified a = false →
    ((∃ ts, s.turns = .reset :: ts) ∧ ∃ c, s.phase = .busy c ∧ c.converts = true ∧ a ∈ c.dstBytes)
    ∨ ((s.turns = [] ∨ ∃ ts, s.turns = .host :: ts) ∧ s.done = true
        ∧ (∃ c, s.awaited = some c ∧ a ∈ c.dstBytes)
        ∧ ∃ rest, s.host = .wait :: rest ∨ s.host = .regRead { offset := 0x04, bytes := 4 } :: rest)

/-! ### Reset and the whole machine -/

/-- R220: after reset every offset of the window reads 0, the phase is IDLE. That memory lists nothing and that the
parameters stand in the state are the model's (assumptions 1, 2 and 16); the parameter values are R7's. -/
def Obligations.ResetReadsZeroEverywhere : Prop :=
  (∀ o, State.reset.readReg o = 0) ∧ State.reset.phase = .idle ∧ State.reset.mem = []
  ∧ State.reset.params = { addrW := 32, arith := .exact, nanByte := 0 }

/-- R220, R221: a reset in any state: every register reads 0, the phase is IDLE, each destination byte of an abandoned
CONV is a free draw and no other byte changes (assumptions 7, 17, 18 and 22 say how the model draws, what a reset signal
keeps, and which commands have a destination set). -/
def Obligations.ResetSignalState : Prop :=
  ∀ (s : State) (ts : List Turn), s.turns = .reset :: ts → s.mem.wf = true →
    ∃ t, step s = .next t ∧ (∀ o, t.readReg o = 0) ∧ t.phase = .idle ∧ t.turns = ts
      ∧ t.params = s.params ∧ t.devices = s.devices ∧ t.host = s.host ∧ t.observed = s.observed
      ∧ (∀ a, t.unspecified a = true ↔ a ∈ s.awaitedBytes ∨ a ∈ s.missed)
      ∧ (∀ a, (∀ c, s.phase = .busy c → c.converts = true → a ∉ c.dstBytes) → t.mem.read a = s.mem.read a)
      ∧ (∀ a c, s.phase = .busy c → c.converts = true → a ∈ c.dstBytes →
          ∃ k, s.draws ≤ k ∧ k < t.draws ∧ t.mem.read a = Config.freeByte k)

/-- The invariant holds at reset (R220; the parameters are R7's, memory lists nothing by assumption 1). -/
def Obligations.InvariantHoldsAtReset : Prop := State.reset.Inv

/-- Every step from every state that meets the invariant gives a state that meets it (R24, R33, R46, R49, R60, R76,
R200). Its clause on the duties of a CONV in flight rests on the check at issue (assumption 8), its memory form on
assumption 16, its clause on the completion that the host has yet to see on assumption 22. -/
def Obligations.StepKeepsInvariant : Prop :=
  ∀ s t : State, s.Inv → step s = .next t → t.Inv

/-- R7, R71: no step changes the parameters or the platform's map (assumptions 2 and 5, choices of the model). -/
def Obligations.StepKeepsParameters : Prop :=
  ∀ s t : State, step s = .next t → t.params = s.params ∧ t.devices = s.devices

/-- R24, R33, R34, R35, R80, R227: only a CFG's completion or a reset changes CFG_VALID, ACTIVE, DST_WIDTH or
DST_HEIGHT. -/
def Obligations.ConfigurationChangesOnlyByCfgOrReset : Prop :=
  ∀ s t : State, step s = .next t →
    (t.cfgValid ≠ s.cfgValid ∨ t.active ≠ s.active ∨ t.dstWidth ≠ s.dstWidth ∨ t.dstHeight ≠ s.dstHeight) →
    (∃ ts, s.turns = .reset :: ts)
    ∨ ((s.turns = [] ∨ ∃ ts, s.turns = .engine :: ts)
        ∧ ∃ c, s.phase = .busy c ∧ decodeFields c.op c.rsv = .ok .cfg)

/-- R113, R228: CFG_VALID rises only by the completion of a CFG whose checks all pass. -/
def Obligations.CfgValidRisesOnlyBySuccessfulCfg : Prop :=
  ∀ s t : State, step s = .next t → s.cfgValid = false → t.cfgValid = true →
    ∃ c, s.phase = .busy c ∧ decodeFields c.op c.rsv = .ok .cfg
      ∧ c.args.srcType = 1 ∧ (c.args.dstFmt = 1 ∨ c.args.dstFmt = 2 ∨ c.args.dstFmt = 3)
      ∧ (c.args.precision = 1 ∨ c.args.precision = 2) ∧ c.args.srcWidth ≠ 0 ∧ c.args.srcHeight ≠ 0
      ∧ (c.args.precision = 2 → c.args.srcWidth.toNat % 2 = 0)

/-- R44: only PIX with CFG_VALID = 1 changes PIX_OUT, but for a reset. -/
def Obligations.PixOutChangesOnlyByPixOrReset : Prop :=
  ∀ s t : State, step s = .next t → t.pixOut ≠ s.pixOut →
    (∃ ts, s.turns = .reset :: ts)
    ∨ ((s.turns = [] ∨ ∃ ts, s.turns = .engine :: ts)
        ∧ ∃ c, s.phase = .busy c ∧ decodeFields c.op c.rsv = .ok .pix ∧ c.cfgValid = true)

/-- R60, R68, R69, R203: a byte of memory changes only by a CONV that converts, inside its destination set; by a host
write to that address; or by a reset that abandons such a CONV, inside that set. -/
def Obligations.MemoryChangesOnlyWhereOwned : Prop :=
  ∀ (s t : State) (a : Nat), s.mem.wf = true → step s = .next t → t.mem.read a ≠ s.mem.read a →
    (∃ c, s.phase = .busy c ∧ decodeFields c.op c.rsv = .ok .conv ∧ c.cfgValid = true ∧ a ∈ c.dstBytes
        ∧ (s.turns = [] ∨ (∃ ts, s.turns = .engine :: ts) ∨ ∃ ts, s.turns = .reset :: ts))
    ∨ ((s.turns = [] ∨ ∃ ts, s.turns = .host :: ts)
        ∧ ∃ addr bs rest, s.host = .memWrite addr bs :: rest ∧ addr ≤ a ∧ a < addr + bs.length)

/-- R230: every BUSY phase is followed by completion, unless a reset comes first. The bound is the model's schedule
(assumption 6): a command in flight has completed, or been abandoned by a reset, after at most one step more than there
are turns given, for every host program none of whose moves on the way stops. A host that keeps to well-formed register
accesses and polls never stops. -/
def Obligations.EveryCommandCompletes : Prop :=
  (∀ s : State, s.Inv → s.phase.isBusy = true →
    (∀ j t, j ≤ s.turns.length → Sys2Proof.core.run j s = .next t → t.phase.isBusy = true →
      (∃ ts, t.turns = .host :: ts) → ∃ u, hostTurn t = .next u) →
    ∃ k t, k ≤ s.turns.length + 1 ∧ Sys2Proof.core.run k s = .next t ∧ t.phase = .idle)
  ∧ ∀ s : State, s.Inv → s.phase.isBusy = true → (∀ act ∈ s.host, act.atRegisterPort = true) →
    ∃ k t, k ≤ s.turns.length + 1 ∧ Sys2Proof.core.run k s = .next t ∧ t.phase = .idle
end

