-- ==== Sys2Proof/Laws/Bits.lean ====
section
/-! SUPPORT. The bits of the words the model puts together, and that they are the concatenations the spec writes. -/

namespace Sys2Proof.Machine

@[simp] theorem getLsbD_bitAt (b : Bool) (pos i : Nat) :
    (bitAt b pos).getLsbD i = (decide (i < 32) && decide (i = pos) && b) := by
  cases b
  · simp [bitAt]
  · simp only [bitAt, BitVec.getLsbD_shiftLeft, BitVec.getLsbD_setWidth, BitVec.ofBool_true]
    by_cases h : i = pos
    · subst h
      simp
    · by_cases h2 : i < pos
      · simp [h, h2]
      · have h3 : i - pos ≠ 0 := by omega
        simp [h, h2, h3]

@[simp] theorem getLsbD_fieldAt {n : Nat} (f : BitVec n) (pos i : Nat) :
    (fieldAt f pos).getLsbD i = (decide (i < 32) && decide (pos ≤ i) && f.getLsbD (i - pos)) := by
  simp only [fieldAt, BitVec.getLsbD_shiftLeft, BitVec.getLsbD_setWidth]
  by_cases h : i < pos
  · simp [h]
  · by_cases h2 : i < 32
    · simp [h, h2, show pos ≤ i by omega, show i - pos < 32 by omega]
    · simp [h2]

/-- `{hi, lo}` (R9). -/
theorem le16_eq_append (hi lo : Byte) : le16 hi lo = hi ++ lo := by
  apply BitVec.eq_of_getLsbD_eq
  intro i hi'
  rw [show (hi ++ lo).getLsbD i = if i < 8 then lo.getLsbD i else hi.getLsbD (i - 8) from BitVec.getLsbD_append]
  simp only [le16, BitVec.getLsbD_or, BitVec.getLsbD_shiftLeft, BitVec.getLsbD_setWidth]
  by_cases h : i < 8
  · simp [h, hi']
  · simp [h, hi', BitVec.getLsbD_of_ge lo i (by omega), show i - 8 < 16 by omega]

/-- `{o0, o1, o2}` (R175). -/
theorem Pixel.out_eq_append (px : Pixel) : px.out = px.o0 ++ px.o1 ++ px.o2 := by
  apply BitVec.eq_of_getLsbD_eq
  intro i hi
  rw [show (px.o0 ++ px.o1 ++ px.o2).getLsbD i =
      if i < 8 then px.o2.getLsbD i else (px.o0 ++ px.o1).getLsbD (i - 8) from BitVec.getLsbD_append,
    show (px.o0 ++ px.o1).getLsbD (i - 8) =
      if i - 8 < 8 then px.o1.getLsbD (i - 8) else px.o0.getLsbD (i - 8 - 8) from BitVec.getLsbD_append]
  simp only [Pixel.out, BitVec.getLsbD_or, BitVec.getLsbD_shiftLeft, BitVec.getLsbD_setWidth]
  by_cases h : i < 8
  · simp [h, hi, show i < 16 by omega]
  · by_cases h2 : i < 16
    · simp [h, h2, hi, show i - 8 < 8 by omega, show i - 8 < 24 by omega, BitVec.getLsbD_of_ge px.o2 i (by omega)]
    · simp [h, h2, hi, show ¬ i - 8 < 8 by omega, show i - 8 < 24 by omega, show i - 16 < 24 by omega,
        show i - 8 - 8 = i - 16 by omega, BitVec.getLsbD_of_ge px.o2 i (by omega),
        BitVec.getLsbD_of_ge px.o1 (i - 8) (by omega)]

/-- Bit `i` of a register-port word is bit `i % 8` of byte `i / 8` (R20). -/
theorem getLsbD_wordOfBytes (b0 b1 b2 b3 : Byte) (i : Nat) :
    (wordOfBytes b0 b1 b2 b3).getLsbD i =
      if i < 8 then b0.getLsbD i else if i < 16 then b1.getLsbD (i - 8)
      else if i < 24 then b2.getLsbD (i - 16) else if i < 32 then b3.getLsbD (i - 24) else false := by
  have z : ∀ (b : Byte) (k : Nat), 8 ≤ k → b.getLsbD k = false := fun b k h => BitVec.getLsbD_of_ge b k h
  simp only [wordOfBytes, BitVec.getLsbD_or, BitVec.getLsbD_shiftLeft, BitVec.getLsbD_setWidth]
  rcases (show i < 8 ∨ (8 ≤ i ∧ i < 16) ∨ (16 ≤ i ∧ i < 24) ∨ (24 ≤ i ∧ i < 32) ∨ 32 ≤ i by omega) with
    h | h | h | h | h
  · simp [h, show i < 16 by omega, show i < 24 by omega, show i < 32 by omega]
  · simp [show ¬ i < 8 by omega, h.2, show i < 24 by omega, show i < 32 by omega, show i - 8 < 32 by omega,
      z b0 i (by omega)]
  · simp [show ¬ i < 8 by omega, show ¬ i < 16 by omega, h.2, show i < 32 by omega, show i - 8 < 32 by omega,
      show i - 16 < 32 by omega, z b0 i (by omega), z b1 (i - 8) (by omega)]
  · simp [show ¬ i < 8 by omega, show ¬ i < 16 by omega, show ¬ i < 24 by omega, h.2, show i - 8 < 32 by omega,
      show i - 16 < 32 by omega, show i - 24 < 32 by omega, z b0 i (by omega), z b1 (i - 8) (by omega),
      z b2 (i - 16) (by omega)]
  · simp [show ¬ i < 8 by omega, show ¬ i < 16 by omega, show ¬ i < 24 by omega, show ¬ i < 32 by omega]

/-- The bytes of a word, put together again, are the word (R20). -/
theorem wordOfBytes_wordBytes (w : Word) :
    wordOfBytes (w.extractLsb' 0 8) (w.extractLsb' 8 8) (w.extractLsb' 16 8) (w.extractLsb' 24 8) = w := by
  apply BitVec.eq_of_getLsbD_eq
  intro i hi
  rw [getLsbD_wordOfBytes]
  simp only [BitVec.getLsbD_extractLsb']
  split
  · simp [*]
  · split
    · simp [show i - 8 < 8 by omega, show 8 + (i - 8) = i by omega]
    · split
      · simp [show i - 16 < 8 by omega, show 16 + (i - 16) = i by omega]
      · simp [hi, show i - 24 < 8 by omega, show 24 + (i - 24) = i by omega]

end Sys2Proof.Machine
end

