-- ==== Sys2Proof/Laws/Memory.lean ====
section
/-! SUPPORT. The laws of memory: read after write, what a write leaves alone, every operation keeps the canonical form
and the bounds, and canonical memories with equal bytes are equal. -/

namespace Sys2Proof.Machine

@[simp] theorem Memory.read_nil (a : Nat) : Memory.read [] a = Memory.unlisted := rfl

theorem Memory.wf_cons (k : Nat) (b : Byte) (m : Memory) :
    Memory.wf ((k, b) :: m) = true ↔ b ≠ Memory.unlisted ∧ (∀ c ∈ m, k < c.1) ∧ m.wf = true := by
  simp [Memory.wf, and_assoc]

/-- An address below every entry is unlisted. -/
theorem Memory.read_of_lt (m : Memory) (a : Nat) (h : ∀ c ∈ m, a < c.1) : m.read a = Memory.unlisted := by
  induction m with
  | nil => rfl
  | cons c m ih =>
    have hc : a < c.1 := h c (by simp)
    have : a ≠ c.1 := by omega
    simp only [Memory.read, this, if_false]
    exact ih fun d hd => h d (by simp [hd])

/-- Every entry of a written memory was an entry before or is the written one. -/
theorem Memory.mem_write {m : Memory} {a : Nat} {v : Byte} {c : Host.Cell} (h : c ∈ m.write a v) :
    c ∈ m ∨ c = (a, v) := by
  induction m with
  | nil =>
    simp only [Memory.write] at h
    split at h <;> simp_all
  | cons d m ih =>
    obtain ⟨k, b⟩ := d
    simp only [Memory.write] at h
    split at h
    · split at h
      · exact .inl h
      · rcases List.mem_cons.1 h with h | h
        · exact .inr h
        · exact .inl h
    · split at h
      · split at h
        · exact .inl (List.mem_cons_of_mem _ h)
        · rcases List.mem_cons.1 h with h | h
          · exact .inr h
          · exact .inl (List.mem_cons_of_mem _ h)
      · rcases List.mem_cons.1 h with h | h
        · exact .inl (h ▸ List.mem_cons_self)
        · exact (ih h).imp (List.mem_cons_of_mem _) id

/-- A write keeps the canonical form. -/
theorem Memory.write_wf {m : Memory} (hm : m.wf = true) (a : Nat) (v : Byte) : (m.write a v).wf = true := by
  induction m with
  | nil =>
    simp only [Memory.write]
    split
    · rfl
    · simp_all [Memory.wf]
  | cons d m ih =>
    obtain ⟨k, b⟩ := d
    have h := (Memory.wf_cons k b m).1 hm
    simp only [Memory.write]
    split
    · rename_i hak
      split
      · exact hm
      · refine (Memory.wf_cons _ _ _).2 ⟨‹_›, ?_, hm⟩
        intro c hc
        rcases List.mem_cons.1 hc with rfl | hc
        · exact hak
        · exact lt_trans hak (h.2.1 c hc)
    · split
      · rename_i hak
        split
        · exact h.2.2
        · exact (Memory.wf_cons _ _ _).2 ⟨‹_›, fun c hc => hak ▸ h.2.1 c hc, h.2.2⟩
      · refine (Memory.wf_cons _ _ _).2 ⟨h.1, ?_, ih h.2.2⟩
        intro c hc
        rcases Memory.mem_write hc with hc | rfl
        · exact h.2.1 c hc
        · show k < a
          omega

/-- What a read after one write gives. -/
theorem Memory.read_write {m : Memory} (hm : m.wf = true) (a : Nat) (v : Byte) (a' : Nat) :
    (m.write a v).read a' = if a' = a then v else m.read a' := by
  induction m with
  | nil =>
    simp only [Memory.write]
    split
    · simp_all
    · simp [Memory.read]
  | cons d m ih =>
    obtain ⟨k, b⟩ := d
    have h := (Memory.wf_cons k b m).1 hm
    simp only [Memory.write]
    split
    · rename_i hak
      split
      · rename_i hv
        split
        · subst_vars
          refine Memory.read_of_lt _ _ fun c hc => ?_
          rcases List.mem_cons.1 hc with rfl | hc
          · exact hak
          · exact lt_trans hak (h.2.1 c hc)
        · rfl
      · simp only [Memory.read]
    · split
      · rename_i hak
        subst hak
        split
        · rename_i hv
          split
          · subst_vars
            exact Memory.read_of_lt _ _ h.2.1
          · rename_i hne
            simp [Memory.read, hne]
        · simp only [Memory.read]
          split <;> rfl
      · simp only [Memory.read, ih h.2.2]
        split
        · rename_i h1
          have : a' ≠ a := by omega
          simp [this]
        · rfl

theorem Memory.read_write_same {m : Memory} (hm : m.wf = true) (a : Nat) (v : Byte) : (m.write a v).read a = v := by
  simp [Memory.read_write hm]

theorem Memory.read_write_other {m : Memory} (hm : m.wf = true) {a a' : Nat} (v : Byte) (h : a' ≠ a) :
    (m.write a v).read a' = m.read a' := by
  simp [Memory.read_write hm, h]

/-- A write below a bound keeps every entry below it. -/
theorem Memory.write_below {m : Memory} {n : Nat} (hm : m.below n = true) {a : Nat} (ha : a < n) (v : Byte) :
    (m.write a v).below n = true := by
  simp only [Memory.below, List.all_eq_true, decide_eq_true_eq] at hm ⊢
  intro c hc
  rcases Memory.mem_write hc with hc | rfl
  · exact hm c hc
  · exact ha

@[simp] theorem Memory.writeBytes_nil (m : Memory) (a : Nat) : m.writeBytes a [] = m := rfl

@[simp] theorem Memory.writeBytes_cons (m : Memory) (a : Nat) (b : Byte) (bs : List Byte) :
    m.writeBytes a (b :: bs) = (m.write a b).writeBytes (a + 1) bs := rfl

theorem Memory.writeBytes_wf {m : Memory} (hm : m.wf = true) (a : Nat) (bs : List Byte) :
    (m.writeBytes a bs).wf = true := by
  induction bs generalizing m a with
  | nil => exact hm
  | cons b bs ih => exact ih (Memory.write_wf hm a b) (a + 1)

theorem Memory.writeBytes_below {m : Memory} {n : Nat} (hm : m.below n = true) (a : Nat) (bs : List Byte)
    (h : bs = [] ∨ a + bs.length ≤ n) : (m.writeBytes a bs).below n = true := by
  induction bs generalizing m a with
  | nil => exact hm
  | cons b bs ih =>
    have hl : a + (bs.length + 1) ≤ n := by simpa using h
    exact ih (Memory.write_below hm (by omega) b) (a + 1) (.inr (by omega))

/-- What a read after a write of consecutive bytes gives. -/
theorem Memory.read_writeBytes {m : Memory} (hm : m.wf = true) (a : Nat) (bs : List Byte) (a' : Nat) :
    (m.writeBytes a bs).read a' = if a ≤ a' then (bs[a' - a]?).getD (m.read a') else m.read a' := by
  induction bs generalizing m a with
  | nil => simp
  | cons b bs ih =>
    rw [Memory.writeBytes_cons, ih (Memory.write_wf hm a b), Memory.read_write hm]
    rcases Nat.lt_trichotomy a' a with h | rfl | h
    · simp [show ¬ a + 1 ≤ a' by omega, show ¬ a ≤ a' by omega, show a' ≠ a by omega]
    · simp
    · obtain ⟨d, rfl⟩ : ∃ d, a' = a + 1 + d := ⟨a' - (a + 1), by omega⟩
      have h1 : a + 1 + d - a = d + 1 := by omega
      have h2 : a + 1 + d ≠ a := by omega
      simp [h1, h2, show a ≤ a + 1 + d by omega]

/-- A write of consecutive bytes leaves every other address alone. -/
theorem Memory.read_writeBytes_outside {m : Memory} (hm : m.wf = true) {a : Nat} {bs : List Byte} {a' : Nat}
    (h : a' < a ∨ a + bs.length ≤ a') : (m.writeBytes a bs).read a' = m.read a' := by
  rw [Memory.read_writeBytes hm]
  split
  · rw [List.getElem?_eq_none (by omega)]; rfl
  · rfl

theorem Memory.drawAt_wf {m : Memory} (hm : m.wf = true) (k : Nat) (as : List Nat) : (m.drawAt k as).wf = true := by
  induction as generalizing m k with
  | nil => exact hm
  | cons a as ih => exact ih (Memory.write_wf hm a _) (k + 1)

theorem Memory.drawAt_below {m : Memory} {n : Nat} (hm : m.below n = true) (k : Nat) (as : List Nat)
    (h : ∀ a ∈ as, a < n) : (m.drawAt k as).below n = true := by
  induction as generalizing m k with
  | nil => exact hm
  | cons a as ih =>
    exact ih (Memory.write_below hm (h a (by simp)) _) (k + 1) fun b hb => h b (by simp [hb])

/-- The free draws leave every address outside the list alone. -/
theorem Memory.read_drawAt_outside {m : Memory} (hm : m.wf = true) (k : Nat) {as : List Nat} {a' : Nat} (h : a' ∉ as) :
    (m.drawAt k as).read a' = m.read a' := by
  induction as generalizing m k with
  | nil => rfl
  | cons a as ih =>
    simp only [List.mem_cons, not_or] at h
    rw [Memory.drawAt, ih (Memory.write_wf hm a _) (k + 1) h.2, Memory.read_write_other hm _ h.1]

/-- Canonical memories that read alike at every address are equal. -/
theorem Memory.eq_of_read {m m' : Memory} (hm : m.wf = true) (hm' : m'.wf = true) (h : ∀ a, m.read a = m'.read a) :
    m = m' := by
  induction m generalizing m' with
  | nil =>
    cases m' with
    | nil => rfl
    | cons d m' =>
      obtain ⟨k, b⟩ := d
      have h1 := (Memory.wf_cons k b m').1 hm'
      have := h k
      simp [Memory.read] at this
      exact absurd this.symm h1.1
  | cons c m ih =>
    obtain ⟨k, b⟩ := c
    have h0 := (Memory.wf_cons k b m).1 hm
    cases m' with
    | nil =>
      have := h k
      simp [Memory.read] at this
      exact absurd this h0.1
    | cons d m' =>
      obtain ⟨k', b'⟩ := d
      have h1 := (Memory.wf_cons k' b' m').1 hm'
      have hk : k = k' := by
        rcases Nat.lt_trichotomy k k' with hlt | he | hlt
        · have h2 := h k
          rw [Memory.read_of_lt ((k', b') :: m') k] at h2
          · simp [Memory.read] at h2
            exact absurd h2 h0.1
          · intro c hc
            rcases List.mem_cons.1 hc with rfl | hc
            · exact hlt
            · exact lt_trans hlt (h1.2.1 c hc)
        · exact he
        · have h2 := h k'
          rw [Memory.read_of_lt ((k, b) :: m) k'] at h2
          · simp [Memory.read] at h2
            exact absurd h2.symm h1.1
          · intro c hc
            rcases List.mem_cons.1 hc with rfl | hc
            · exact hlt
            · exact lt_trans hlt (h0.2.1 c hc)
      subst hk
      have hb : b = b' := by simpa [Memory.read] using h k
      subst hb
      have hr : m = m' := ih h0.2.2 h1.2.2 fun a => by
        by_cases ha : a = k
        · subst ha
          rw [Memory.read_of_lt m a h0.2.1, Memory.read_of_lt m' a h1.2.1]
        · simpa [Memory.read, ha] using h a
      rw [hr]

end Sys2Proof.Machine
end

