-- ==== Sys2Proof/Laws/Operands.lean ====
section
/-! SUPPORT. What the byte sets of a CONV hold: membership in the lists of R67 to R69, and that the ownership tests
decide it. -/

namespace Sys2Proof.Machine

@[simp] theorem Command.mem_pixels (c : Command) (i x : Nat) : (i, x) ∈ c.pixels ↔ i < c.H ∧ x < c.W := by
  simp [Command.pixels]

theorem Command.pixels_nodup (c : Command) : c.pixels.Nodup := by
  refine List.nodup_flatMap.2 ⟨fun i _ => ?_, ?_⟩
  · exact List.Nodup.map (fun x y h => (Prod.mk.inj h).2) List.nodup_range
  · refine List.Pairwise.imp_of_mem ?_ (List.nodup_range (n := c.H))
    intro i j _ _ hij
    simp only [Function.onFun, List.disjoint_left, List.mem_map, List.mem_range, not_exists, not_and]
    rintro p ⟨x, _, rfl⟩ y _ h
    exact hij (Prod.mk.inj h).1.symm

/-- `SrcBytes` is the set R67 writes. -/
theorem Command.mem_srcBytes (c : Command) (a : Nat) :
    a ∈ c.srcBytes ↔ ∃ i x j, i < c.H ∧ x < c.W ∧ j < 3 * c.P ∧ a = c.pixAddr i x + j := by
  simp only [Command.srcBytes, List.mem_flatMap, Prod.exists, Command.mem_pixels, List.mem_map, List.mem_range]
  constructor
  · rintro ⟨i, x, ⟨hi, hx⟩, j, hj, rfl⟩
    exact ⟨i, x, j, hi, hx, hj, rfl⟩
  · rintro ⟨i, x, j, hi, hx, hj, rfl⟩
    exact ⟨i, x, ⟨hi, hx⟩, j, hj, rfl⟩

theorem Command.inSrc_iff (c : Command) (a : Nat) : c.inSrc a = true ↔ a ∈ c.srcBytes := by
  rw [Command.mem_srcBytes]
  simp only [Command.inSrc, List.any_eq_true, Prod.exists, Command.mem_pixels, Bool.and_eq_true, decide_eq_true_eq]
  constructor
  · rintro ⟨i, x, ⟨hi, hx⟩, h1, h2⟩
    exact ⟨i, x, a - c.pixAddr i x, hi, hx, by omega, by omega⟩
  · rintro ⟨i, x, j, hi, hx, hj, rfl⟩
    exact ⟨i, x, ⟨hi, hx⟩, by omega, by omega⟩

/-- `DstBytesPacked` is the set R68 writes. -/
theorem Command.mem_packedBytes (c : Command) (a : Nat) :
    a ∈ c.packedBytes ↔ ∃ m j, m < c.H ∧ j < c.bufs.dst0Stride.toNat
      ∧ a = c.bufs.dst0Base.toNat + m * c.bufs.dst0Stride.toNat + j := by
  simp only [Command.packedBytes, List.mem_flatMap, List.mem_map, List.mem_range]
  constructor
  · rintro ⟨m, hm, j, hj, rfl⟩
    exact ⟨m, j, hm, hj, rfl⟩
  · rintro ⟨m, j, hm, hj, rfl⟩
    exact ⟨m, hm, j, hj, rfl⟩

/-- `DstBytesPacked` is the byte range `[db, db + H × ds)` (R68). -/
theorem Command.inPacked_iff (c : Command) (a : Nat) : c.inPacked a = true ↔ a ∈ c.packedBytes := by
  rw [Command.mem_packedBytes]
  simp only [Command.inPacked, Bool.and_eq_true, decide_eq_true_eq]
  generalize c.bufs.dst0Base.toNat = db
  generalize c.bufs.dst0Stride.toNat = ds
  constructor
  · rintro ⟨h1, h2⟩
    obtain ⟨d, rfl⟩ : ∃ d, a = db + d := ⟨a - db, by omega⟩
    have hd : d < c.H * ds := by omega
    have hds : 0 < ds := Nat.pos_of_ne_zero fun h => by simp [h] at hd
    refine ⟨d / ds, d % ds, Nat.div_lt_of_lt_mul (by rwa [Nat.mul_comm] at hd), Nat.mod_lt _ hds, ?_⟩
    have := Nat.div_add_mod d ds
    rw [Nat.mul_comm] at this
    omega
  · rintro ⟨m, j, hm, hj, rfl⟩
    have : (m + 1) * ds ≤ c.H * ds := Nat.mul_le_mul_right ds hm
    rw [Nat.add_mul] at this
    omega

/-- A plane's sample bytes are those R69 writes. -/
theorem Command.mem_planeBytes (c : Command) (base stride : Word) (a : Nat) :
    a ∈ c.planeBytes base stride ↔ ∃ i x, i < c.H ∧ x < c.W ∧ a = base.toNat + i * stride.toNat + x := by
  simp only [Command.planeBytes, List.mem_map, Prod.exists, Command.mem_pixels]
  constructor
  · rintro ⟨i, x, ⟨hi, hx⟩, rfl⟩
    exact ⟨i, x, hi, hx, rfl⟩
  · rintro ⟨i, x, hi, hx, rfl⟩
    exact ⟨i, x, ⟨hi, hx⟩, rfl⟩

theorem Command.inPlane_iff (c : Command) (base stride : Word) (a : Nat) :
    c.inPlane base stride a = true ↔ a ∈ c.planeBytes base stride := by
  rw [Command.mem_planeBytes]
  simp only [Command.inPlane, List.any_eq_true, List.mem_range, Bool.and_eq_true, decide_eq_true_eq]
  constructor
  · rintro ⟨i, hi, h1, h2⟩
    exact ⟨i, a - (base.toNat + i * stride.toNat), hi, by omega, by omega⟩
  · rintro ⟨i, x, hi, hx, rfl⟩
    exact ⟨i, hi, by omega, by omega⟩

theorem Command.inDst_iff (c : Command) (a : Nat) : c.inDst a = true ↔ a ∈ c.dstBytes := by
  unfold Command.inDst Command.dstBytes
  split
  · exact c.inPacked_iff a
  · simp [Command.planarBytes, Command.yBytes, Command.uBytes, Command.vBytes, Command.inPlane_iff, or_assoc]

/-- The duties hold exactly when no violation is found (R132). -/
theorem Command.hostDuties_iff (p : Params) (ds : List Region) (c : Command) :
    c.hostDuties p ds = true ↔
      c.stridesOk = true ∧ c.srcInSpace p = true ∧ c.dstInSpace p = true ∧ c.memoryOrdinary ds = true
        ∧ c.planesDisjoint = true ∧ c.sourceApart = true := by
  unfold Command.hostDuties Command.dutyViolation
  cases c.stridesOk <;> cases c.srcInSpace p <;> cases c.dstInSpace p <;> cases c.memoryOrdinary ds <;>
    cases c.planesDisjoint <;> cases c.sourceApart <;> simp

theorem Command.hostDuties_none {p : Params} {ds : List Region} {c : Command} (h : c.hostDuties p ds = true) :
    c.dutyViolation p ds = none := by
  simpa [Command.hostDuties] using h

/-- Under the address bound of R132, every destination byte is an address of the space. -/
theorem Command.dst_lt_of_inSpace {p : Params} {c : Command} (h : c.dstInSpace p = true) {a : Nat}
    (ha : a ∈ c.dstBytes) : a < 2 ^ p.addrW := by
  have plane : ∀ base stride : Word, c.planeInSpace p base stride = true → a ∈ c.planeBytes base stride →
      a < 2 ^ p.addrW := by
    intro base stride hs hm
    obtain ⟨i, x, hi, hx, rfl⟩ := (c.mem_planeBytes base stride a).1 hm
    simp only [Command.planeInSpace, Bool.or_eq_true, beq_iff_eq, decide_eq_true_eq] at hs
    have : i * stride.toNat ≤ (c.H - 1) * stride.toNat := Nat.mul_le_mul_right _ (by omega)
    omega
  unfold Command.dstInSpace at h
  unfold Command.dstBytes at ha
  split at h
  · rename_i hp
    simp only [hp, if_true] at ha
    have h2 := (c.inPacked_iff a).2 ha
    simp only [Command.inPacked, Bool.and_eq_true, decide_eq_true_eq] at h2
    simp only [Bool.or_eq_true, beq_iff_eq, decide_eq_true_eq] at h
    omega
  · rename_i hp
    simp only [hp] at ha
    simp only [Bool.and_eq_true] at h
    simp only [Command.planarBytes, Bool.false_eq_true, if_false, List.mem_append, Command.yBytes, Command.uBytes, Command.vBytes] at ha
    rcases ha with (ha | ha) | ha
    · exact plane _ _ h.1.1 ha
    · exact plane _ _ h.1.2 ha
    · exact plane _ _ h.2 ha

end Sys2Proof.Machine
end

