-- ==== Sys2Proof/Laws/Convert.lean ====
section
/-! SUPPORT. The drivers of CONV as memory operations: they keep the canonical form, and they write nothing outside the
addresses of their pixels. -/

namespace Sys2Proof.Machine

@[simp] theorem Command.paintPacked_nil (p : Params) (c : Command) (m0 m : Memory) : c.paintPacked p m0 [] m = m := rfl

@[simp] theorem Command.paintPacked_cons (p : Params) (c : Command) (m0 : Memory) (px : Nat × Nat)
    (l : List (Nat × Nat)) (m : Memory) :
    c.paintPacked p m0 (px :: l) m =
      c.paintPacked p m0 l (m.writeBytes (c.packedAddr px.1 px.2) (c.pixelAt p m0 px.1 px.2).packed) := rfl

@[simp] theorem Command.paintPlanar_nil (p : Params) (c : Command) (m0 m : Memory) : c.paintPlanar p m0 [] m = m := rfl

@[simp] theorem Command.paintPlanar_cons (p : Params) (c : Command) (m0 : Memory) (px : Nat × Nat)
    (l : List (Nat × Nat)) (m : Memory) :
    c.paintPlanar p m0 (px :: l) m =
      c.paintPlanar p m0 l
        (((m.write (planeAddr c.bufs.dst0Base c.bufs.dst0Stride px.1 px.2) (c.pixelAt p m0 px.1 px.2).o0).write
          (planeAddr c.bufs.dst1Base c.bufs.dstUvStride px.1 px.2) (c.pixelAt p m0 px.1 px.2).o1).write
          (planeAddr c.bufs.dst2Base c.bufs.dstUvStride px.1 px.2) (c.pixelAt p m0 px.1 px.2).o2) := rfl

theorem Command.paintPacked_wf (p : Params) (c : Command) (m0 : Memory) (l : List (Nat × Nat)) {m : Memory}
    (hm : m.wf = true) : (c.paintPacked p m0 l m).wf = true := by
  induction l generalizing m with
  | nil => exact hm
  | cons px l ih => exact ih (Memory.writeBytes_wf hm _ _)

theorem Command.paintPlanar_wf (p : Params) (c : Command) (m0 : Memory) (l : List (Nat × Nat)) {m : Memory}
    (hm : m.wf = true) : (c.paintPlanar p m0 l m).wf = true := by
  induction l generalizing m with
  | nil => exact hm
  | cons px l ih => exact ih (Memory.write_wf (Memory.write_wf (Memory.write_wf hm _ _) _ _) _ _)

theorem Command.zeroFill_wf (c : Command) {m : Memory} (hm : m.wf = true) : (c.zeroFill m).wf = true :=
  Memory.writeBytes_wf hm _ _

/-- A CONV keeps memory's canonical form. -/
theorem Command.drive_wf (p : Params) (c : Command) {m : Memory} (hm : m.wf = true) : (c.drive p m).wf = true := by
  unfold Command.drive
  split
  · exact Command.paintPacked_wf p c m _ (c.zeroFill_wf hm)
  · exact Command.paintPlanar_wf p c m _ hm

/-- Painting packed pixels leaves every byte but their own three alone. -/
theorem Command.read_paintPacked_outside (p : Params) (c : Command) (m0 : Memory) (l : List (Nat × Nat)) {m : Memory}
    (hm : m.wf = true) (a : Nat)
    (h : ∀ px ∈ l, a < c.packedAddr px.1 px.2 ∨ c.packedAddr px.1 px.2 + 3 ≤ a) :
    (c.paintPacked p m0 l m).read a = m.read a := by
  induction l generalizing m with
  | nil => rfl
  | cons px l ih =>
    rw [Command.paintPacked_cons, ih (Memory.writeBytes_wf hm _ _) fun q hq => h q (by simp [hq])]
    exact Memory.read_writeBytes_outside hm (h px (by simp))

/-- Painting planar pixels leaves every byte but their own three samples alone. -/
theorem Command.read_paintPlanar_outside (p : Params) (c : Command) (m0 : Memory) (l : List (Nat × Nat)) {m : Memory}
    (hm : m.wf = true) (a : Nat)
    (h : ∀ px ∈ l, a ≠ planeAddr c.bufs.dst0Base c.bufs.dst0Stride px.1 px.2
      ∧ a ≠ planeAddr c.bufs.dst1Base c.bufs.dstUvStride px.1 px.2
      ∧ a ≠ planeAddr c.bufs.dst2Base c.bufs.dstUvStride px.1 px.2) :
    (c.paintPlanar p m0 l m).read a = m.read a := by
  induction l generalizing m with
  | nil => rfl
  | cons px l ih =>
    have hp := h px (by simp)
    rw [Command.paintPlanar_cons,
      ih (Memory.write_wf (Memory.write_wf (Memory.write_wf hm _ _) _ _) _ _) fun q hq => h q (by simp [hq]),
      Memory.read_write_other (Memory.write_wf (Memory.write_wf hm _ _) _ _) _ hp.2.2,
      Memory.read_write_other (Memory.write_wf hm _ _) _ hp.2.1, Memory.read_write_other hm _ hp.1]

/-- What the zero fill leaves (R133, step 1). -/
theorem Command.read_zeroFill (c : Command) {m : Memory} (hm : m.wf = true) (a : Nat) :
    (c.zeroFill m).read a = if c.inPacked a then 0 else m.read a := by
  simp only [Command.zeroFill, Memory.read_writeBytes hm, List.getElem?_replicate, Command.inPacked,
    Bool.and_eq_true, decide_eq_true_eq]
  split
  · rename_i h
    by_cases h2 : a < c.bufs.dst0Base.toNat + c.H * c.bufs.dst0Stride.toNat
    · simp [h, h2, show a - c.bufs.dst0Base.toNat < c.H * c.bufs.dst0Stride.toNat by omega]
    · simp [h, h2, show ¬ a - c.bufs.dst0Base.toNat < c.H * c.bufs.dst0Stride.toNat by omega]
  · rename_i h
    simp [h]

end Sys2Proof.Machine
end

