-- ==== Sys2Proof/Laws/Kernel.lean ====
section
/-! SUPPORT. The kernel's fractions are exact: each operation on them is the operation of ℚ on their values (R11), and
every fraction the kernel makes has a positive denominator. -/

namespace Sys2Proof.Machine

/-- The rational number a fraction stands for (R11). -/
def Frac.toRat (q : Frac) : ℚ := q.num / q.den

@[simp] theorem Frac.toRat_ofInt (n : Int) : (Frac.ofInt n).toRat = n := by simp [Frac.toRat, Frac.ofInt]

@[simp] theorem Frac.toRat_milli (n : Int) : (milli n).toRat = n / 1000 := by simp [Frac.toRat, milli]

/-- `c ⊗ q = c*q` exactly (R166). -/
@[simp] theorem Frac.toRat_mul (a b : Frac) : (a.mul b).toRat = a.toRat * b.toRat := by
  simp only [Frac.toRat, Frac.mul]
  push_cast
  rw [div_mul_div_comm]

/-- The exact rational sum (R166). -/
theorem Frac.toRat_add {a b : Frac} (ha : 0 < a.den) (hb : 0 < b.den) : (a.add b).toRat = a.toRat + b.toRat := by
  have ha' : (a.den : ℚ) ≠ 0 := by exact_mod_cast ha.ne'
  have hb' : (b.den : ℚ) ≠ 0 := by exact_mod_cast hb.ne'
  simp only [Frac.toRat, Frac.add]
  push_cast
  rw [div_add_div _ _ ha' hb', mul_comm (b.num : ℚ) (a.den : ℚ)]

/-- `m * 2^k` (R162). -/
theorem Frac.toRat_dyadic (m k : Int) : (Frac.dyadic m k).toRat = m * (2 : ℚ) ^ k := by
  unfold Frac.dyadic
  split
  · rename_i h
    obtain ⟨n, rfl⟩ := Int.eq_ofNat_of_zero_le h
    simp [Frac.toRat]
  · rename_i h
    obtain ⟨n, hn⟩ := Int.eq_ofNat_of_zero_le (show (0 : Int) ≤ -k by omega)
    obtain rfl : k = -(n : Int) := by omega
    simp [Frac.toRat, div_eq_mul_inv]

@[simp] theorem Frac.ofInt_den_pos (n : Int) : 0 < (Frac.ofInt n).den := Nat.one_pos

@[simp] theorem milli_den_pos (n : Int) : 0 < (milli n).den := by simp [milli]

theorem Frac.mul_den_pos {a b : Frac} (ha : 0 < a.den) (hb : 0 < b.den) : 0 < (a.mul b).den := Nat.mul_pos ha hb

theorem Frac.add_den_pos {a b : Frac} (ha : 0 < a.den) (hb : 0 < b.den) : 0 < (a.add b).den := Nat.mul_pos ha hb

@[simp] theorem Frac.dyadic_den_pos (m k : Int) : 0 < (Frac.dyadic m k).den := by
  unfold Frac.dyadic
  split
  · exact Nat.one_pos
  · exact Nat.two_pow_pos _

/-- A finite decoded binary16 value has a positive denominator. -/
theorem dec16_den_pos {raw : BitVec 16} {q : Frac} (h : dec16 raw = .fin q) : 0 < q.den := by
  unfold dec16 at h
  simp only at h
  split at h
  · cases h; simp
  · split at h
    · cases h; simp
    · split at h
      · unfold Ext.inf at h
        split at h <;> cases h
      · cases h

/-- A finite channel has a positive denominator. -/
theorem chan_den_pos {P : BitVec 2} {raw : Half} {q : Frac} (h : chan P raw = .fin q) : 0 < q.den := by
  unfold chan at h
  split at h
  · cases h; simp
  · cases hd : dec16 raw with
    | fin x =>
      rw [hd] at h
      cases h
      exact Frac.mul_den_pos (Frac.ofInt_den_pos _) (dec16_den_pos hd)
    | posInf =>
      rw [hd] at h
      simp only [Ext.scale, Ext.inf] at h
      split at h <;> cases h
    | negInf =>
      rw [hd] at h
      simp only [Ext.scale, Ext.inf] at h
      split at h <;> cases h
    | nan => rw [hd] at h; cases h

/-- The linear form on finite channels (R166). -/
@[simp] theorem lin_fin (c : Row) (r g b : Frac) :
    lin c (.fin r) (.fin g) (.fin b) =
      .fin ((((c.cr.mul r).add (c.cg.mul g)).add (c.cb.mul b)).add c.k) := by
  simp [lin, Ext.scale]

/-- RC depends on the value of a fraction alone (R169): fractions of one value give one byte. -/
theorem rc_congr (n : Byte) {p q : Frac} (hp : 0 < p.den) (hq : 0 < q.den) (h : p.num * q.den = q.num * p.den) :
    rc n (.fin p) = rc n (.fin q) := by
  have cross : (2 * p.num + p.den) * (q.den * 2) = (2 * q.num + q.den) * ((p.den : Int) * 2) := by
    linear_combination 4 * h
  have hp' : (0 : Int) < p.den * 2 := by omega
  have hq' : (0 : Int) < q.den * 2 := by omega
  have trunc_eq : (2 * p.num + p.den).tdiv (p.den * 2 : Int) = (2 * q.num + q.den).tdiv (q.den * 2 : Int) := by
    rw [← Int.mul_tdiv_mul_of_pos_left _ (p.den * 2 : Int) hq', cross, mul_comm (p.den * 2 : Int),
      Int.mul_tdiv_mul_of_pos_left _ _ hp']
  simp only [rc, Frac.add, Frac.trunc]
  congr 1
  push_cast
  convert trunc_eq using 2 <;> ring

end Sys2Proof.Machine
end

