-- ==== Sys2Proof/Laws/State.lean ====
section
/-! SUPPORT. One lemma per field for every update of the state, each true by rfl, and the same for the snapshot: no later
proof unfolds an update. -/

namespace Sys2Proof.Machine

@[simp] theorem State.setErr_params (s : State) (e : CmdErr) : (s.setErr e).params = s.params := rfl
@[simp] theorem State.setErr_devices (s : State) (e : CmdErr) : (s.setErr e).devices = s.devices := rfl
@[simp] theorem State.setErr_args (s : State) (e : CmdErr) : (s.setErr e).args = s.args := rfl
@[simp] theorem State.setErr_active (s : State) (e : CmdErr) : (s.setErr e).active = s.active := rfl
@[simp] theorem State.setErr_dstWidth (s : State) (e : CmdErr) : (s.setErr e).dstWidth = s.dstWidth := rfl
@[simp] theorem State.setErr_dstHeight (s : State) (e : CmdErr) : (s.setErr e).dstHeight = s.dstHeight := rfl
@[simp] theorem State.setErr_bufs (s : State) (e : CmdErr) : (s.setErr e).bufs = s.bufs := rfl
@[simp] theorem State.setErr_pix (s : State) (e : CmdErr) : (s.setErr e).pix = s.pix := rfl
@[simp] theorem State.setErr_pixOut (s : State) (e : CmdErr) : (s.setErr e).pixOut = s.pixOut := rfl
@[simp] theorem State.setErr_done (s : State) (e : CmdErr) : (s.setErr e).done = s.done := rfl
@[simp] theorem State.setErr_cfgValid (s : State) (e : CmdErr) : (s.setErr e).cfgValid = s.cfgValid := rfl
@[simp] theorem State.setErr_err (s : State) (e : CmdErr) : (s.setErr e).err = e.code := rfl
@[simp] theorem State.setErr_phase (s : State) (e : CmdErr) : (s.setErr e).phase = s.phase := rfl
@[simp] theorem State.setErr_mem (s : State) (e : CmdErr) : (s.setErr e).mem = s.mem := rfl
@[simp] theorem State.setErr_host (s : State) (e : CmdErr) : (s.setErr e).host = s.host := rfl
@[simp] theorem State.setErr_turns (s : State) (e : CmdErr) : (s.setErr e).turns = s.turns := rfl
@[simp] theorem State.setErr_observed (s : State) (e : CmdErr) : (s.setErr e).observed = s.observed := rfl
@[simp] theorem State.setErr_awaited (s : State) (e : CmdErr) : (s.setErr e).awaited = s.awaited := rfl
@[simp] theorem State.setErr_missed (s : State) (e : CmdErr) : (s.setErr e).missed = s.missed := rfl
@[simp] theorem State.setErr_draws (s : State) (e : CmdErr) : (s.setErr e).draws = s.draws := rfl

@[simp] theorem State.finish_params (s : State) : (s.finish).params = s.params := rfl
@[simp] theorem State.finish_devices (s : State) : (s.finish).devices = s.devices := rfl
@[simp] theorem State.finish_args (s : State) : (s.finish).args = s.args := rfl
@[simp] theorem State.finish_active (s : State) : (s.finish).active = s.active := rfl
@[simp] theorem State.finish_dstWidth (s : State) : (s.finish).dstWidth = s.dstWidth := rfl
@[simp] theorem State.finish_dstHeight (s : State) : (s.finish).dstHeight = s.dstHeight := rfl
@[simp] theorem State.finish_bufs (s : State) : (s.finish).bufs = s.bufs := rfl
@[simp] theorem State.finish_pix (s : State) : (s.finish).pix = s.pix := rfl
@[simp] theorem State.finish_pixOut (s : State) : (s.finish).pixOut = s.pixOut := rfl
@[simp] theorem State.finish_done (s : State) : (s.finish).done = true := rfl
@[simp] theorem State.finish_cfgValid (s : State) : (s.finish).cfgValid = s.cfgValid := rfl
@[simp] theorem State.finish_err (s : State) : (s.finish).err = s.err := rfl
@[simp] theorem State.finish_phase (s : State) : (s.finish).phase = .idle := rfl
@[simp] theorem State.finish_mem (s : State) : (s.finish).mem = s.mem := rfl
@[simp] theorem State.finish_host (s : State) : (s.finish).host = s.host := rfl
@[simp] theorem State.finish_turns (s : State) : (s.finish).turns = s.turns := rfl
@[simp] theorem State.finish_observed (s : State) : (s.finish).observed = s.observed := rfl
@[simp] theorem State.finish_awaited (s : State) : (s.finish).awaited = s.awaited := rfl
@[simp] theorem State.finish_missed (s : State) : (s.finish).missed = s.missed := rfl
@[simp] theorem State.finish_draws (s : State) : (s.finish).draws = s.draws := rfl

@[simp] theorem State.completeWith_params (s : State) (e : CmdErr) : (s.completeWith e).params = s.params := rfl
@[simp] theorem State.completeWith_devices (s : State) (e : CmdErr) : (s.completeWith e).devices = s.devices := rfl
@[simp] theorem State.completeWith_args (s : State) (e : CmdErr) : (s.completeWith e).args = s.args := rfl
@[simp] theorem State.completeWith_active (s : State) (e : CmdErr) : (s.completeWith e).active = s.active := rfl
@[simp] theorem State.completeWith_dstWidth (s : State) (e : CmdErr) : (s.completeWith e).dstWidth = s.dstWidth := rfl
@[simp] theorem State.completeWith_dstHeight (s : State) (e : CmdErr) : (s.completeWith e).dstHeight = s.dstHeight := rfl
@[simp] theorem State.completeWith_bufs (s : State) (e : CmdErr) : (s.completeWith e).bufs = s.bufs := rfl
@[simp] theorem State.completeWith_pix (s : State) (e : CmdErr) : (s.completeWith e).pix = s.pix := rfl
@[simp] theorem State.completeWith_pixOut (s : State) (e : CmdErr) : (s.completeWith e).pixOut = s.pixOut := rfl
@[simp] theorem State.completeWith_done (s : State) (e : CmdErr) : (s.completeWith e).done = true := rfl
@[simp] theorem State.completeWith_cfgValid (s : State) (e : CmdErr) : (s.completeWith e).cfgValid = s.cfgValid := rfl
@[simp] theorem State.completeWith_err (s : State) (e : CmdErr) : (s.completeWith e).err = e.code := rfl
@[simp] theorem State.completeWith_phase (s : State) (e : CmdErr) : (s.completeWith e).phase = .idle := rfl
@[simp] theorem State.completeWith_mem (s : State) (e : CmdErr) : (s.completeWith e).mem = s.mem := rfl
@[simp] theorem State.completeWith_host (s : State) (e : CmdErr) : (s.completeWith e).host = s.host := rfl
@[simp] theorem State.completeWith_turns (s : State) (e : CmdErr) : (s.completeWith e).turns = s.turns := rfl
@[simp] theorem State.completeWith_observed (s : State) (e : CmdErr) : (s.completeWith e).observed = s.observed := rfl
@[simp] theorem State.completeWith_awaited (s : State) (e : CmdErr) : (s.completeWith e).awaited = s.awaited := rfl
@[simp] theorem State.completeWith_missed (s : State) (e : CmdErr) : (s.completeWith e).missed = s.missed := rfl
@[simp] theorem State.completeWith_draws (s : State) (e : CmdErr) : (s.completeWith e).draws = s.draws := rfl

@[simp] theorem State.issue_params (s : State) (w : Word) : (s.issue w).params = s.params := rfl
@[simp] theorem State.issue_devices (s : State) (w : Word) : (s.issue w).devices = s.devices := rfl
@[simp] theorem State.issue_args (s : State) (w : Word) : (s.issue w).args = s.args := rfl
@[simp] theorem State.issue_active (s : State) (w : Word) : (s.issue w).active = s.active := rfl
@[simp] theorem State.issue_dstWidth (s : State) (w : Word) : (s.issue w).dstWidth = s.dstWidth := rfl
@[simp] theorem State.issue_dstHeight (s : State) (w : Word) : (s.issue w).dstHeight = s.dstHeight := rfl
@[simp] theorem State.issue_bufs (s : State) (w : Word) : (s.issue w).bufs = s.bufs := rfl
@[simp] theorem State.issue_pix (s : State) (w : Word) : (s.issue w).pix = s.pix := rfl
@[simp] theorem State.issue_pixOut (s : State) (w : Word) : (s.issue w).pixOut = s.pixOut := rfl
@[simp] theorem State.issue_done (s : State) (w : Word) : (s.issue w).done = false := rfl
@[simp] theorem State.issue_cfgValid (s : State) (w : Word) : (s.issue w).cfgValid = s.cfgValid := rfl
@[simp] theorem State.issue_err (s : State) (w : Word) : (s.issue w).err = 0 := rfl
@[simp] theorem State.issue_phase (s : State) (w : Word) : (s.issue w).phase = .busy (s.snapshot w) := rfl
@[simp] theorem State.issue_mem (s : State) (w : Word) : (s.issue w).mem = s.mem := rfl
@[simp] theorem State.issue_host (s : State) (w : Word) : (s.issue w).host = s.host := rfl
@[simp] theorem State.issue_turns (s : State) (w : Word) : (s.issue w).turns = s.turns := rfl
@[simp] theorem State.issue_observed (s : State) (w : Word) : (s.issue w).observed = s.observed := rfl
@[simp] theorem State.issue_awaited (s : State) (w : Word) : (s.issue w).awaited = none := rfl
@[simp] theorem State.issue_missed (s : State) (w : Word) : (s.issue w).missed = s.awaitedBytes ++ s.missed := rfl
@[simp] theorem State.issue_draws (s : State) (w : Word) : (s.issue w).draws = s.draws := rfl

@[simp] theorem State.loseDone_params (s : State) : (s.loseDone).params = s.params := rfl
@[simp] theorem State.loseDone_devices (s : State) : (s.loseDone).devices = s.devices := rfl
@[simp] theorem State.loseDone_args (s : State) : (s.loseDone).args = s.args := rfl
@[simp] theorem State.loseDone_active (s : State) : (s.loseDone).active = s.active := rfl
@[simp] theorem State.loseDone_dstWidth (s : State) : (s.loseDone).dstWidth = s.dstWidth := rfl
@[simp] theorem State.loseDone_dstHeight (s : State) : (s.loseDone).dstHeight = s.dstHeight := rfl
@[simp] theorem State.loseDone_bufs (s : State) : (s.loseDone).bufs = s.bufs := rfl
@[simp] theorem State.loseDone_pix (s : State) : (s.loseDone).pix = s.pix := rfl
@[simp] theorem State.loseDone_pixOut (s : State) : (s.loseDone).pixOut = s.pixOut := rfl
@[simp] theorem State.loseDone_done (s : State) : (s.loseDone).done = s.done := rfl
@[simp] theorem State.loseDone_cfgValid (s : State) : (s.loseDone).cfgValid = s.cfgValid := rfl
@[simp] theorem State.loseDone_err (s : State) : (s.loseDone).err = s.err := rfl
@[simp] theorem State.loseDone_phase (s : State) : (s.loseDone).phase = s.phase := rfl
@[simp] theorem State.loseDone_mem (s : State) : (s.loseDone).mem = s.mem := rfl
@[simp] theorem State.loseDone_host (s : State) : (s.loseDone).host = s.host := rfl
@[simp] theorem State.loseDone_turns (s : State) : (s.loseDone).turns = s.turns := rfl
@[simp] theorem State.loseDone_observed (s : State) : (s.loseDone).observed = s.observed := rfl
@[simp] theorem State.loseDone_awaited (s : State) : (s.loseDone).awaited = none := rfl
@[simp] theorem State.loseDone_missed (s : State) : (s.loseDone).missed = s.awaitedBytes ++ s.missed := rfl
@[simp] theorem State.loseDone_draws (s : State) : (s.loseDone).draws = s.draws := rfl

@[simp] theorem State.observe_params (s : State) (o : Observation) : (s.observe o).params = s.params := rfl
@[simp] theorem State.observe_devices (s : State) (o : Observation) : (s.observe o).devices = s.devices := rfl
@[simp] theorem State.observe_args (s : State) (o : Observation) : (s.observe o).args = s.args := rfl
@[simp] theorem State.observe_active (s : State) (o : Observation) : (s.observe o).active = s.active := rfl
@[simp] theorem State.observe_dstWidth (s : State) (o : Observation) : (s.observe o).dstWidth = s.dstWidth := rfl
@[simp] theorem State.observe_dstHeight (s : State) (o : Observation) : (s.observe o).dstHeight = s.dstHeight := rfl
@[simp] theorem State.observe_bufs (s : State) (o : Observation) : (s.observe o).bufs = s.bufs := rfl
@[simp] theorem State.observe_pix (s : State) (o : Observation) : (s.observe o).pix = s.pix := rfl
@[simp] theorem State.observe_pixOut (s : State) (o : Observation) : (s.observe o).pixOut = s.pixOut := rfl
@[simp] theorem State.observe_done (s : State) (o : Observation) : (s.observe o).done = s.done := rfl
@[simp] theorem State.observe_cfgValid (s : State) (o : Observation) : (s.observe o).cfgValid = s.cfgValid := rfl
@[simp] theorem State.observe_err (s : State) (o : Observation) : (s.observe o).err = s.err := rfl
@[simp] theorem State.observe_phase (s : State) (o : Observation) : (s.observe o).phase = s.phase := rfl
@[simp] theorem State.observe_mem (s : State) (o : Observation) : (s.observe o).mem = s.mem := rfl
@[simp] theorem State.observe_host (s : State) (o : Observation) : (s.observe o).host = s.host := rfl
@[simp] theorem State.observe_turns (s : State) (o : Observation) : (s.observe o).turns = s.turns := rfl
@[simp] theorem State.observe_observed (s : State) (o : Observation) : (s.observe o).observed = o :: s.observed := rfl
@[simp] theorem State.observe_awaited (s : State) (o : Observation) : (s.observe o).awaited = s.awaited := rfl
@[simp] theorem State.observe_missed (s : State) (o : Observation) : (s.observe o).missed = s.missed := rfl
@[simp] theorem State.observe_draws (s : State) (o : Observation) : (s.observe o).draws = s.draws := rfl

@[simp] theorem State.clearRegisters_params (s : State) : (s.clearRegisters).params = s.params := rfl
@[simp] theorem State.clearRegisters_devices (s : State) : (s.clearRegisters).devices = s.devices := rfl
@[simp] theorem State.clearRegisters_args (s : State) : (s.clearRegisters).args = Args.zero := rfl
@[simp] theorem State.clearRegisters_active (s : State) : (s.clearRegisters).active = Active.zero := rfl
@[simp] theorem State.clearRegisters_dstWidth (s : State) : (s.clearRegisters).dstWidth = 0 := rfl
@[simp] theorem State.clearRegisters_dstHeight (s : State) : (s.clearRegisters).dstHeight = 0 := rfl
@[simp] theorem State.clearRegisters_bufs (s : State) : (s.clearRegisters).bufs = Buffers.zero := rfl
@[simp] theorem State.clearRegisters_pix (s : State) : (s.clearRegisters).pix = PixIn.zero := rfl
@[simp] theorem State.clearRegisters_pixOut (s : State) : (s.clearRegisters).pixOut = 0 := rfl
@[simp] theorem State.clearRegisters_done (s : State) : (s.clearRegisters).done = false := rfl
@[simp] theorem State.clearRegisters_cfgValid (s : State) : (s.clearRegisters).cfgValid = false := rfl
@[simp] theorem State.clearRegisters_err (s : State) : (s.clearRegisters).err = 0 := rfl
@[simp] theorem State.clearRegisters_phase (s : State) : (s.clearRegisters).phase = .idle := rfl
@[simp] theorem State.clearRegisters_mem (s : State) : (s.clearRegisters).mem = s.mem := rfl
@[simp] theorem State.clearRegisters_host (s : State) : (s.clearRegisters).host = s.host := rfl
@[simp] theorem State.clearRegisters_turns (s : State) : (s.clearRegisters).turns = s.turns := rfl
@[simp] theorem State.clearRegisters_observed (s : State) : (s.clearRegisters).observed = s.observed := rfl
@[simp] theorem State.clearRegisters_awaited (s : State) : (s.clearRegisters).awaited = s.awaited := rfl
@[simp] theorem State.clearRegisters_missed (s : State) : (s.clearRegisters).missed = s.missed := rfl
@[simp] theorem State.clearRegisters_draws (s : State) : (s.clearRegisters).draws = s.draws := rfl

@[simp] theorem State.hardReset_params (s : State) : (s.hardReset).params = s.params := rfl
@[simp] theorem State.hardReset_devices (s : State) : (s.hardReset).devices = s.devices := rfl
@[simp] theorem State.hardReset_args (s : State) : (s.hardReset).args = Args.zero := rfl
@[simp] theorem State.hardReset_active (s : State) : (s.hardReset).active = Active.zero := rfl
@[simp] theorem State.hardReset_dstWidth (s : State) : (s.hardReset).dstWidth = 0 := rfl
@[simp] theorem State.hardReset_dstHeight (s : State) : (s.hardReset).dstHeight = 0 := rfl
@[simp] theorem State.hardReset_bufs (s : State) : (s.hardReset).bufs = Buffers.zero := rfl
@[simp] theorem State.hardReset_pix (s : State) : (s.hardReset).pix = PixIn.zero := rfl
@[simp] theorem State.hardReset_pixOut (s : State) : (s.hardReset).pixOut = 0 := rfl
@[simp] theorem State.hardReset_done (s : State) : (s.hardReset).done = false := rfl
@[simp] theorem State.hardReset_cfgValid (s : State) : (s.hardReset).cfgValid = false := rfl
@[simp] theorem State.hardReset_err (s : State) : (s.hardReset).err = 0 := rfl
@[simp] theorem State.hardReset_phase (s : State) : (s.hardReset).phase = .idle := rfl
@[simp] theorem State.hardReset_mem (s : State) : (s.hardReset).mem = s.mem.drawAt s.draws s.phase.abandoned := rfl
@[simp] theorem State.hardReset_host (s : State) : (s.hardReset).host = s.host := rfl
@[simp] theorem State.hardReset_turns (s : State) : (s.hardReset).turns = s.turns := rfl
@[simp] theorem State.hardReset_observed (s : State) : (s.hardReset).observed = s.observed := rfl
@[simp] theorem State.hardReset_awaited (s : State) : (s.hardReset).awaited = none := rfl
@[simp] theorem State.hardReset_missed (s : State) : (s.hardReset).missed = s.awaitedBytes ++ s.missed := rfl
@[simp] theorem State.hardReset_draws (s : State) : (s.hardReset).draws = s.draws + s.phase.abandoned.length := rfl

@[simp] theorem State.cfgOk_params (s : State) (a : Args) : (s.cfgOk a).params = s.params := rfl
@[simp] theorem State.cfgOk_devices (s : State) (a : Args) : (s.cfgOk a).devices = s.devices := rfl
@[simp] theorem State.cfgOk_args (s : State) (a : Args) : (s.cfgOk a).args = s.args := rfl
@[simp] theorem State.cfgOk_active (s : State) (a : Args) : (s.cfgOk a).active = cfgActive a := rfl
@[simp] theorem State.cfgOk_dstWidth (s : State) (a : Args) : (s.cfgOk a).dstWidth = cfgWidth a := rfl
@[simp] theorem State.cfgOk_dstHeight (s : State) (a : Args) : (s.cfgOk a).dstHeight = a.srcHeight := rfl
@[simp] theorem State.cfgOk_bufs (s : State) (a : Args) : (s.cfgOk a).bufs = s.bufs := rfl
@[simp] theorem State.cfgOk_pix (s : State) (a : Args) : (s.cfgOk a).pix = s.pix := rfl
@[simp] theorem State.cfgOk_pixOut (s : State) (a : Args) : (s.cfgOk a).pixOut = s.pixOut := rfl
@[simp] theorem State.cfgOk_done (s : State) (a : Args) : (s.cfgOk a).done = true := rfl
@[simp] theorem State.cfgOk_cfgValid (s : State) (a : Args) : (s.cfgOk a).cfgValid = true := rfl
@[simp] theorem State.cfgOk_err (s : State) (a : Args) : (s.cfgOk a).err = 0 := rfl
@[simp] theorem State.cfgOk_phase (s : State) (a : Args) : (s.cfgOk a).phase = .idle := rfl
@[simp] theorem State.cfgOk_mem (s : State) (a : Args) : (s.cfgOk a).mem = s.mem := rfl
@[simp] theorem State.cfgOk_host (s : State) (a : Args) : (s.cfgOk a).host = s.host := rfl
@[simp] theorem State.cfgOk_turns (s : State) (a : Args) : (s.cfgOk a).turns = s.turns := rfl
@[simp] theorem State.cfgOk_observed (s : State) (a : Args) : (s.cfgOk a).observed = s.observed := rfl
@[simp] theorem State.cfgOk_awaited (s : State) (a : Args) : (s.cfgOk a).awaited = s.awaited := rfl
@[simp] theorem State.cfgOk_missed (s : State) (a : Args) : (s.cfgOk a).missed = s.missed := rfl
@[simp] theorem State.cfgOk_draws (s : State) (a : Args) : (s.cfgOk a).draws = s.draws := rfl

@[simp] theorem State.cfgFail_params (s : State) (e : CmdErr) : (s.cfgFail e).params = s.params := rfl
@[simp] theorem State.cfgFail_devices (s : State) (e : CmdErr) : (s.cfgFail e).devices = s.devices := rfl
@[simp] theorem State.cfgFail_args (s : State) (e : CmdErr) : (s.cfgFail e).args = s.args := rfl
@[simp] theorem State.cfgFail_active (s : State) (e : CmdErr) : (s.cfgFail e).active = Active.zero := rfl
@[simp] theorem State.cfgFail_dstWidth (s : State) (e : CmdErr) : (s.cfgFail e).dstWidth = 0 := rfl
@[simp] theorem State.cfgFail_dstHeight (s : State) (e : CmdErr) : (s.cfgFail e).dstHeight = 0 := rfl
@[simp] theorem State.cfgFail_bufs (s : State) (e : CmdErr) : (s.cfgFail e).bufs = s.bufs := rfl
@[simp] theorem State.cfgFail_pix (s : State) (e : CmdErr) : (s.cfgFail e).pix = s.pix := rfl
@[simp] theorem State.cfgFail_pixOut (s : State) (e : CmdErr) : (s.cfgFail e).pixOut = s.pixOut := rfl
@[simp] theorem State.cfgFail_done (s : State) (e : CmdErr) : (s.cfgFail e).done = true := rfl
@[simp] theorem State.cfgFail_cfgValid (s : State) (e : CmdErr) : (s.cfgFail e).cfgValid = false := rfl
@[simp] theorem State.cfgFail_err (s : State) (e : CmdErr) : (s.cfgFail e).err = e.code := rfl
@[simp] theorem State.cfgFail_phase (s : State) (e : CmdErr) : (s.cfgFail e).phase = .idle := rfl
@[simp] theorem State.cfgFail_mem (s : State) (e : CmdErr) : (s.cfgFail e).mem = s.mem := rfl
@[simp] theorem State.cfgFail_host (s : State) (e : CmdErr) : (s.cfgFail e).host = s.host := rfl
@[simp] theorem State.cfgFail_turns (s : State) (e : CmdErr) : (s.cfgFail e).turns = s.turns := rfl
@[simp] theorem State.cfgFail_observed (s : State) (e : CmdErr) : (s.cfgFail e).observed = s.observed := rfl
@[simp] theorem State.cfgFail_awaited (s : State) (e : CmdErr) : (s.cfgFail e).awaited = s.awaited := rfl
@[simp] theorem State.cfgFail_missed (s : State) (e : CmdErr) : (s.cfgFail e).missed = s.missed := rfl
@[simp] theorem State.cfgFail_draws (s : State) (e : CmdErr) : (s.cfgFail e).draws = s.draws := rfl

@[simp] theorem State.placeCommand_params (s : State) (nbits w : Nat) : (s.placeCommand nbits w).params = s.params := rfl
@[simp] theorem State.placeCommand_devices (s : State) (nbits w : Nat) : (s.placeCommand nbits w).devices = s.devices := rfl
@[simp] theorem State.placeCommand_args (s : State) (nbits w : Nat) : (s.placeCommand nbits w).args = s.args := rfl
@[simp] theorem State.placeCommand_active (s : State) (nbits w : Nat) : (s.placeCommand nbits w).active = s.active := rfl
@[simp] theorem State.placeCommand_dstWidth (s : State) (nbits w : Nat) : (s.placeCommand nbits w).dstWidth = s.dstWidth := rfl
@[simp] theorem State.placeCommand_dstHeight (s : State) (nbits w : Nat) : (s.placeCommand nbits w).dstHeight = s.dstHeight := rfl
@[simp] theorem State.placeCommand_bufs (s : State) (nbits w : Nat) : (s.placeCommand nbits w).bufs = s.bufs := rfl
@[simp] theorem State.placeCommand_pix (s : State) (nbits w : Nat) : (s.placeCommand nbits w).pix = s.pix := rfl
@[simp] theorem State.placeCommand_pixOut (s : State) (nbits w : Nat) : (s.placeCommand nbits w).pixOut = s.pixOut := rfl
@[simp] theorem State.placeCommand_done (s : State) (nbits w : Nat) : (s.placeCommand nbits w).done = false := rfl
@[simp] theorem State.placeCommand_cfgValid (s : State) (nbits w : Nat) : (s.placeCommand nbits w).cfgValid = s.cfgValid := rfl
@[simp] theorem State.placeCommand_err (s : State) (nbits w : Nat) : (s.placeCommand nbits w).err = 0 := rfl
@[simp] theorem State.placeCommand_phase (s : State) (nbits w : Nat) : (s.placeCommand nbits w).phase = .busy (s.snapshot (tableWord nbits w)) := rfl
@[simp] theorem State.placeCommand_mem (s : State) (nbits w : Nat) : (s.placeCommand nbits w).mem = s.mem := rfl
@[simp] theorem State.placeCommand_host (s : State) (nbits w : Nat) : (s.placeCommand nbits w).host = s.host := rfl
@[simp] theorem State.placeCommand_turns (s : State) (nbits w : Nat) : (s.placeCommand nbits w).turns = .engine :: s.turns := rfl
@[simp] theorem State.placeCommand_observed (s : State) (nbits w : Nat) : (s.placeCommand nbits w).observed = s.observed := rfl
@[simp] theorem State.placeCommand_awaited (s : State) (nbits w : Nat) : (s.placeCommand nbits w).awaited = none := rfl
@[simp] theorem State.placeCommand_missed (s : State) (nbits w : Nat) : (s.placeCommand nbits w).missed = s.awaitedBytes ++ s.missed := rfl
@[simp] theorem State.placeCommand_draws (s : State) (nbits w : Nat) : (s.placeCommand nbits w).draws = s.draws := rfl

@[simp] theorem State.converted_params (s : State) (c : Command) : (s.converted c).params = s.params := rfl
@[simp] theorem State.converted_devices (s : State) (c : Command) : (s.converted c).devices = s.devices := rfl
@[simp] theorem State.converted_args (s : State) (c : Command) : (s.converted c).args = s.args := rfl
@[simp] theorem State.converted_active (s : State) (c : Command) : (s.converted c).active = s.active := rfl
@[simp] theorem State.converted_dstWidth (s : State) (c : Command) : (s.converted c).dstWidth = s.dstWidth := rfl
@[simp] theorem State.converted_dstHeight (s : State) (c : Command) : (s.converted c).dstHeight = s.dstHeight := rfl
@[simp] theorem State.converted_bufs (s : State) (c : Command) : (s.converted c).bufs = s.bufs := rfl
@[simp] theorem State.converted_pix (s : State) (c : Command) : (s.converted c).pix = s.pix := rfl
@[simp] theorem State.converted_pixOut (s : State) (c : Command) : (s.converted c).pixOut = s.pixOut := rfl
@[simp] theorem State.converted_done (s : State) (c : Command) : (s.converted c).done = true := rfl
@[simp] theorem State.converted_cfgValid (s : State) (c : Command) : (s.converted c).cfgValid = s.cfgValid := rfl
@[simp] theorem State.converted_err (s : State) (c : Command) : (s.converted c).err = 0 := rfl
@[simp] theorem State.converted_phase (s : State) (c : Command) : (s.converted c).phase = .idle := rfl
@[simp] theorem State.converted_mem (s : State) (c : Command) : (s.converted c).mem = c.drive s.params s.mem := rfl
@[simp] theorem State.converted_host (s : State) (c : Command) : (s.converted c).host = s.host := rfl
@[simp] theorem State.converted_turns (s : State) (c : Command) : (s.converted c).turns = s.turns := rfl
@[simp] theorem State.converted_observed (s : State) (c : Command) : (s.converted c).observed = s.observed := rfl
@[simp] theorem State.converted_awaited (s : State) (c : Command) : (s.converted c).awaited = some c := rfl
@[simp] theorem State.converted_missed (s : State) (c : Command) : (s.converted c).missed = s.missed := rfl
@[simp] theorem State.converted_draws (s : State) (c : Command) : (s.converted c).draws = s.draws := rfl

@[simp] theorem State.snapshot_op (s : State) (w : Word) : (s.snapshot w).op = opField w := rfl
@[simp] theorem State.snapshot_rsv (s : State) (w : Word) : (s.snapshot w).rsv = rsvField w := rfl
@[simp] theorem State.snapshot_active (s : State) (w : Word) : (s.snapshot w).active = s.active := rfl
@[simp] theorem State.snapshot_dstWidth (s : State) (w : Word) : (s.snapshot w).dstWidth = s.dstWidth := rfl
@[simp] theorem State.snapshot_dstHeight (s : State) (w : Word) : (s.snapshot w).dstHeight = s.dstHeight := rfl
@[simp] theorem State.snapshot_cfgValid (s : State) (w : Word) : (s.snapshot w).cfgValid = s.cfgValid := rfl
@[simp] theorem State.snapshot_bufs (s : State) (w : Word) : (s.snapshot w).bufs = s.bufs := rfl
@[simp] theorem State.snapshot_pix (s : State) (w : Word) : (s.snapshot w).pix = s.pix := rfl
@[simp] theorem State.snapshot_args (s : State) (w : Word) : (s.snapshot w).args = s.args := rfl

@[simp] theorem State.storeReg_params (s : State) (r : Reg) (v : Word) : (s.storeReg r v).params = s.params := by
  cases r <;> rfl
@[simp] theorem State.storeReg_devices (s : State) (r : Reg) (v : Word) : (s.storeReg r v).devices = s.devices := by
  cases r <;> rfl
@[simp] theorem State.storeReg_active (s : State) (r : Reg) (v : Word) : (s.storeReg r v).active = s.active := by
  cases r <;> rfl
@[simp] theorem State.storeReg_dstWidth (s : State) (r : Reg) (v : Word) : (s.storeReg r v).dstWidth = s.dstWidth := by
  cases r <;> rfl
@[simp] theorem State.storeReg_dstHeight (s : State) (r : Reg) (v : Word) : (s.storeReg r v).dstHeight = s.dstHeight := by
  cases r <;> rfl
@[simp] theorem State.storeReg_pixOut (s : State) (r : Reg) (v : Word) : (s.storeReg r v).pixOut = s.pixOut := by
  cases r <;> rfl
@[simp] theorem State.storeReg_done (s : State) (r : Reg) (v : Word) : (s.storeReg r v).done = s.done := by
  cases r <;> rfl
@[simp] theorem State.storeReg_cfgValid (s : State) (r : Reg) (v : Word) : (s.storeReg r v).cfgValid = s.cfgValid := by
  cases r <;> rfl
@[simp] theorem State.storeReg_err (s : State) (r : Reg) (v : Word) : (s.storeReg r v).err = s.err := by
  cases r <;> rfl
@[simp] theorem State.storeReg_phase (s : State) (r : Reg) (v : Word) : (s.storeReg r v).phase = s.phase := by
  cases r <;> rfl
@[simp] theorem State.storeReg_mem (s : State) (r : Reg) (v : Word) : (s.storeReg r v).mem = s.mem := by
  cases r <;> rfl
@[simp] theorem State.storeReg_host (s : State) (r : Reg) (v : Word) : (s.storeReg r v).host = s.host := by
  cases r <;> rfl
@[simp] theorem State.storeReg_turns (s : State) (r : Reg) (v : Word) : (s.storeReg r v).turns = s.turns := by
  cases r <;> rfl
@[simp] theorem State.storeReg_observed (s : State) (r : Reg) (v : Word) : (s.storeReg r v).observed = s.observed := by
  cases r <;> rfl
@[simp] theorem State.storeReg_awaited (s : State) (r : Reg) (v : Word) : (s.storeReg r v).awaited = s.awaited := by
  cases r <;> rfl
@[simp] theorem State.storeReg_missed (s : State) (r : Reg) (v : Word) : (s.storeReg r v).missed = s.missed := by
  cases r <;> rfl
@[simp] theorem State.storeReg_draws (s : State) (r : Reg) (v : Word) : (s.storeReg r v).draws = s.draws := by
  cases r <;> rfl

@[simp] theorem State.deliver_params (s : State) : (s.deliver).params = s.params := by
  unfold State.deliver; split <;> rfl
@[simp] theorem State.deliver_devices (s : State) : (s.deliver).devices = s.devices := by
  unfold State.deliver; split <;> rfl
@[simp] theorem State.deliver_args (s : State) : (s.deliver).args = s.args := by
  unfold State.deliver; split <;> rfl
@[simp] theorem State.deliver_active (s : State) : (s.deliver).active = s.active := by
  unfold State.deliver; split <;> rfl
@[simp] theorem State.deliver_dstWidth (s : State) : (s.deliver).dstWidth = s.dstWidth := by
  unfold State.deliver; split <;> rfl
@[simp] theorem State.deliver_dstHeight (s : State) : (s.deliver).dstHeight = s.dstHeight := by
  unfold State.deliver; split <;> rfl
@[simp] theorem State.deliver_bufs (s : State) : (s.deliver).bufs = s.bufs := by
  unfold State.deliver; split <;> rfl
@[simp] theorem State.deliver_pix (s : State) : (s.deliver).pix = s.pix := by
  unfold State.deliver; split <;> rfl
@[simp] theorem State.deliver_pixOut (s : State) : (s.deliver).pixOut = s.pixOut := by
  unfold State.deliver; split <;> rfl
@[simp] theorem State.deliver_done (s : State) : (s.deliver).done = s.done := by
  unfold State.deliver; split <;> rfl
@[simp] theorem State.deliver_cfgValid (s : State) : (s.deliver).cfgValid = s.cfgValid := by
  unfold State.deliver; split <;> rfl
@[simp] theorem State.deliver_err (s : State) : (s.deliver).err = s.err := by
  unfold State.deliver; split <;> rfl
@[simp] theorem State.deliver_phase (s : State) : (s.deliver).phase = s.phase := by
  unfold State.deliver; split <;> rfl
@[simp] theorem State.deliver_mem (s : State) : (s.deliver).mem = s.mem := by
  unfold State.deliver; split <;> rfl
@[simp] theorem State.deliver_host (s : State) : (s.deliver).host = s.host := by
  unfold State.deliver; split <;> rfl
@[simp] theorem State.deliver_turns (s : State) : (s.deliver).turns = s.turns := by
  unfold State.deliver; split <;> rfl
@[simp] theorem State.deliver_observed (s : State) : (s.deliver).observed = s.observed := by
  unfold State.deliver; split <;> rfl
@[simp] theorem State.deliver_draws (s : State) : (s.deliver).draws = s.draws := by
  unfold State.deliver; split <;> rfl
@[simp] theorem State.statusRead_params (s : State) : (s.statusRead).params = s.params := by
  unfold State.statusRead; split <;> simp
@[simp] theorem State.statusRead_devices (s : State) : (s.statusRead).devices = s.devices := by
  unfold State.statusRead; split <;> simp
@[simp] theorem State.statusRead_args (s : State) : (s.statusRead).args = s.args := by
  unfold State.statusRead; split <;> simp
@[simp] theorem State.statusRead_active (s : State) : (s.statusRead).active = s.active := by
  unfold State.statusRead; split <;> simp
@[simp] theorem State.statusRead_dstWidth (s : State) : (s.statusRead).dstWidth = s.dstWidth := by
  unfold State.statusRead; split <;> simp
@[simp] theorem State.statusRead_dstHeight (s : State) : (s.statusRead).dstHeight = s.dstHeight := by
  unfold State.statusRead; split <;> simp
@[simp] theorem State.statusRead_bufs (s : State) : (s.statusRead).bufs = s.bufs := by
  unfold State.statusRead; split <;> simp
@[simp] theorem State.statusRead_pix (s : State) : (s.statusRead).pix = s.pix := by
  unfold State.statusRead; split <;> simp
@[simp] theorem State.statusRead_pixOut (s : State) : (s.statusRead).pixOut = s.pixOut := by
  unfold State.statusRead; split <;> simp
@[simp] theorem State.statusRead_done (s : State) : (s.statusRead).done = s.done := by
  unfold State.statusRead; split <;> simp
@[simp] theorem State.statusRead_cfgValid (s : State) : (s.statusRead).cfgValid = s.cfgValid := by
  unfold State.statusRead; split <;> simp
@[simp] theorem State.statusRead_err (s : State) : (s.statusRead).err = s.err := by
  unfold State.statusRead; split <;> simp
@[simp] theorem State.statusRead_phase (s : State) : (s.statusRead).phase = s.phase := by
  unfold State.statusRead; split <;> simp
@[simp] theorem State.statusRead_mem (s : State) : (s.statusRead).mem = s.mem := by
  unfold State.statusRead; split <;> simp
@[simp] theorem State.statusRead_host (s : State) : (s.statusRead).host = s.host := by
  unfold State.statusRead; split <;> simp
@[simp] theorem State.statusRead_turns (s : State) : (s.statusRead).turns = s.turns := by
  unfold State.statusRead; split <;> simp
@[simp] theorem State.statusRead_observed (s : State) : (s.statusRead).observed = s.observed := by
  unfold State.statusRead; split <;> simp
@[simp] theorem State.statusRead_draws (s : State) : (s.statusRead).draws = s.draws := by
  unfold State.statusRead; split <;> simp

/-- With a command in flight, the engine's rule starts from the state as it is. -/
theorem State.begun_busy {s : State} {c : Command} (h : s.phase = .busy c) (w : Word) : s.begun w = s := by
  simp [State.begun, h]

/-- In an idle block the rule starts from the issue. -/
theorem State.begun_idle {s : State} (h : s.phase = .idle) (w : Word) : s.begun w = s.issue w := by
  simp [State.begun, h]

@[simp] theorem State.begun_params (s : State) (w : Word) : (s.begun w).params = s.params := by
  unfold State.begun; split <;> rfl
@[simp] theorem State.begun_devices (s : State) (w : Word) : (s.begun w).devices = s.devices := by
  unfold State.begun; split <;> rfl
@[simp] theorem State.begun_args (s : State) (w : Word) : (s.begun w).args = s.args := by
  unfold State.begun; split <;> rfl
@[simp] theorem State.begun_active (s : State) (w : Word) : (s.begun w).active = s.active := by
  unfold State.begun; split <;> rfl
@[simp] theorem State.begun_dstWidth (s : State) (w : Word) : (s.begun w).dstWidth = s.dstWidth := by
  unfold State.begun; split <;> rfl
@[simp] theorem State.begun_dstHeight (s : State) (w : Word) : (s.begun w).dstHeight = s.dstHeight := by
  unfold State.begun; split <;> rfl
@[simp] theorem State.begun_bufs (s : State) (w : Word) : (s.begun w).bufs = s.bufs := by
  unfold State.begun; split <;> rfl
@[simp] theorem State.begun_pix (s : State) (w : Word) : (s.begun w).pix = s.pix := by
  unfold State.begun; split <;> rfl
@[simp] theorem State.begun_pixOut (s : State) (w : Word) : (s.begun w).pixOut = s.pixOut := by
  unfold State.begun; split <;> rfl
@[simp] theorem State.begun_cfgValid (s : State) (w : Word) : (s.begun w).cfgValid = s.cfgValid := by
  unfold State.begun; split <;> rfl
@[simp] theorem State.begun_mem (s : State) (w : Word) : (s.begun w).mem = s.mem := by
  unfold State.begun; split <;> rfl
@[simp] theorem State.begun_host (s : State) (w : Word) : (s.begun w).host = s.host := by
  unfold State.begun; split <;> rfl
@[simp] theorem State.begun_turns (s : State) (w : Word) : (s.begun w).turns = s.turns := by
  unfold State.begun; split <;> rfl
@[simp] theorem State.begun_observed (s : State) (w : Word) : (s.begun w).observed = s.observed := by
  unfold State.begun; split <;> rfl
@[simp] theorem State.begun_draws (s : State) (w : Word) : (s.begun w).draws = s.draws := by
  unfold State.begun; split <;> rfl

@[simp] theorem Phase.isBusy_idle : Phase.idle.isBusy = false := rfl
@[simp] theorem Phase.isBusy_busy (c : Command) : (Phase.busy c).isBusy = true := rfl

/-- With a command in flight, the engine runs that command. -/
theorem State.commandFor_busy {s : State} {c : Command} (h : s.phase = .busy c) (w : Word) : s.commandFor w = c := by
  simp [State.commandFor, h]

/-- In an idle block the command is the one issued now. -/
theorem State.commandFor_idle {s : State} (h : s.phase = .idle) (w : Word) : s.commandFor w = s.snapshot w := by
  simp [State.commandFor, h]

end Sys2Proof.Machine
end

