-- ==== Sys2Proof/Laws/Ops.lean ====
section
/-! SUPPORT. What each operation can do, said once: the register window, the issue of a command, the meanings, and the
moves of the agents. -/

namespace Sys2Proof.Machine

/-- Each register is at its own offset (R20). -/
@[simp] theorem Reg.ofOffset_offset (r : Reg) : Reg.ofOffset r.offset = some r := by cases r <;> rfl

theorem Reg.offset_of_ofOffset {o : Nat} {r : Reg} (h : Reg.ofOffset o = some r) : r.offset = o := by
  simpa using List.find?_some h

theorem Reg.access_wf (r : Reg) : ({ offset := r.offset, bytes := 4 } : RegAccess).wf = true := by
  cases r <;> rfl

/-- A register the host cannot write keeps its value, and so does every other one (R49). -/
theorem State.storeReg_readOnly (s : State) (r : Reg) (v : Word) (h : r.writable = false) : s.storeReg r v = s := by
  cases r <;> first | rfl | exact absurd h (by decide)

/-- All that an issue can do (R90, R207). -/
theorem issueCommand_next {w : Word} {s t : State} (h : issueCommand w s = .next t) :
    t = s.issue w ∧ ((s.snapshot w).converts = true → (s.snapshot w).hostDuties s.params s.devices = true) := by
  unfold issueCommand at h
  split at h
  · split at h
    · cases h
    · rename_i hv
      exact ⟨(Host.Outcome.next.inj h).symm, fun _ => by simp [Command.hostDuties, hv]⟩
  · rename_i hc
    exact ⟨(Host.Outcome.next.inj h).symm, fun h' => absurd h' hc⟩

/-- All that a host write at the register port can do (R49). -/
theorem hostRegWrite_next {a : RegAccess} {v : Word} {s t : State} (h : hostRegWrite a v s = .next t) :
    t = s
    ∨ (s.phase = .idle ∧ ∃ r, Reg.ofOffset a.offset = some r ∧ r ≠ .cmd ∧ t = s.storeReg r v)
    ∨ (s.phase = .idle ∧ Reg.ofOffset a.offset = some .cmd ∧ issueCommand v s = .next t) := by
  unfold hostRegWrite at h
  split at h
  · cases h
  · split at h
    · exact .inl (Host.Outcome.next.inj h).symm
    · rename_i hb
      have hi : s.phase = .idle := by
        cases hp : s.phase with
        | idle => rfl
        | busy c => simp [hp] at hb
      split at h
      · exact .inl (Host.Outcome.next.inj h).symm
      · exact .inr (.inr ⟨hi, ‹_›, h⟩)
      · rename_i r hr hc
        exact .inr (.inl ⟨hi, r, hc, hr, (Host.Outcome.next.inj h).symm⟩)

/-- All that a host read at the register port can do (R49). -/
theorem hostRegRead_next {a : RegAccess} {s t : State} (h : hostRegRead a s = .next t) :
    t = (if a.offset = Reg.status.offset then s.statusRead else s).observe (.reg a.offset (s.readReg a.offset)) := by
  unfold hostRegRead at h
  split at h
  · cases h
  · exact (Host.Outcome.next.inj h).symm

/-- All that a poll can do: the host's program, what it has seen, and what a read of STATUS delivers (R96, R78). -/
theorem hostWait_next {s t : State} (h : hostWait s = .next t) :
    ∃ l, t = { s.statusRead with observed := .reg Reg.status.offset s.statusWord :: s.observed, host := l } := by
  unfold hostWait at h
  split at h
  · exact ⟨s.statusRead.host, by rw [← Host.Outcome.next.inj h]; simp [State.observe]⟩
  · exact ⟨.wait :: s.statusRead.host, by rw [← Host.Outcome.next.inj h]; simp [State.observe]⟩

@[simp] theorem mem_addrRange (a n b : Nat) : b ∈ addrRange a n ↔ a ≤ b ∧ b < a + n := by
  simp only [addrRange, List.mem_map, List.mem_range]
  constructor
  · rintro ⟨j, hj, rfl⟩
    omega
  · intro h
    exact ⟨b - a, by omega, by omega⟩

/-- All that a host write to memory can do (R60, R76). -/
theorem hostMemWrite_next {addr : Nat} {bs : List Byte} {s t : State} (h : hostMemWrite addr bs s = .next t) :
    t = { s with mem := s.mem.writeBytes addr bs }
    ∧ ∀ a, addr ≤ a → a < addr + bs.length →
        a < 2 ^ s.params.addrW ∧ s.phase.ownsSrc a = false ∧ s.phase.ownsDst a = false
          ∧ ordinary s.devices a = true := by
  simp only [hostMemWrite] at h
  split at h
  · cases h
  · rename_i h1
    split at h
    · cases h
    · rename_i h2
      split at h
      · cases h
      · rename_i h3
        refine ⟨(Host.Outcome.next.inj h).symm, fun a ha hb => ?_⟩
        simp only [List.any_eq_true, mem_addrRange, not_exists, not_and, decide_eq_true_eq, Bool.or_eq_true, not_or,
          Bool.not_eq_true', Bool.not_eq_false, Bool.not_eq_true] at h1 h2 h3
        have h1 := h1 a ⟨ha, hb⟩
        have h2 := h2 a ⟨ha, hb⟩
        exact ⟨by omega, h2.1, h2.2, h3 a ⟨ha, hb⟩⟩

/-- All that a host read of memory can do: what the host has seen, and the draws (R76). -/
theorem hostMemRead_next {addr n : Nat} {s t : State} (h : hostMemRead addr n s = .next t) :
    t = { s with observed := .mem addr (hostBytes s s.draws (addrRange addr n)).1 :: s.observed,
                 draws := (hostBytes s s.draws (addrRange addr n)).2 } := by
  simp only [hostMemRead] at h
  split at h
  · cases h
  · split at h
    · cases h
    · exact (Host.Outcome.next.inj h).symm

/-- How many draws a host read uses up: one for each unspecified byte (R76, R225). -/
theorem hostBytes_draws (s : State) (k : Nat) (as : List Nat) :
    (hostBytes s k as).2 = k + (as.filter s.unspecified).length := by
  induction as generalizing k with
  | nil => rfl
  | cons a as ih =>
    cases h : s.unspecified a <;> simp [hostBytes, h, ih]
    omega

theorem hostBytes_length (s : State) (k : Nat) (as : List Nat) : (hostBytes s k as).1.length = as.length := by
  induction as generalizing k with
  | nil => rfl
  | cons a as ih => cases h : s.unspecified a <;> simp [hostBytes, h, ih]

/-- What a host read gives at each address: a draw of its own where the byte is unspecified, memory's byte elsewhere
(R76, R225). -/
theorem hostBytes_get (s : State) (k : Nat) (as : List Nat) (j : Nat) (hj : j < as.length) :
    (hostBytes s k as).1[j]? = some
      (if s.unspecified as[j] then Config.freeByte (k + ((as.take j).filter s.unspecified).length)
        else s.mem.read as[j]) := by
  induction as generalizing k j with
  | nil => simp at hj
  | cons a as ih =>
    cases j with
    | zero => cases h : s.unspecified a <;> simp [hostBytes, h]
    | succ j =>
      have hj : j < as.length := by simpa using hj
      cases h : s.unspecified a <;> simp [hostBytes, h, ih _ _ hj, Nat.add_assoc, Nat.add_comm]

/-- Which addresses are unspecified to the host (R76, R78, R225). -/
theorem State.unspecified_iff (s : State) (a : Nat) :
    s.unspecified a = true ↔
      (∃ c, s.phase = .busy c ∧ c.converts = true ∧ a ∈ c.dstBytes)
      ∨ (∃ c, s.awaited = some c ∧ a ∈ c.dstBytes) ∨ a ∈ s.missed := by
  unfold State.unspecified State.awaitedBytes Phase.ownsDst
  cases s.phase <;> cases s.awaited <;> simp [Command.inDst_iff, or_assoc]

/-! With a command in flight, each meaning is the rule on that command (R90). -/

theorem execNop_busy {s : State} {c : Command} (h : s.phase = .busy c) : execNop s = .next (s.completeWith .ok) := by
  rw [execNop, State.begun_busy h]

theorem execCfg_busy {s : State} {c : Command} (h : s.phase = .busy c) :
    execCfg s = match cfgCheck c.args with
      | .ok => .next (s.cfgOk c.args)
      | e => .next (s.cfgFail e) := by
  simp only [execCfg, State.begun_busy h, State.commandFor_busy h] <;> rfl

theorem execConv_busy {s : State} {c : Command} (h : s.phase = .busy c) :
    execConv s = if c.cfgValid then
        match c.dutyViolation s.params s.devices with
        | some f => .fault f
        | none => .next (s.converted c)
      else .next (s.completeWith .notConfigured) := by
  simp only [execConv, State.begun_busy h, State.commandFor_busy h] <;> rfl

theorem execPix_busy {s : State} {c : Command} (h : s.phase = .busy c) :
    execPix s = if c.cfgValid then .next (State.completeWith .ok { s with pixOut := (c.pixKernel s.params).out })
      else .next (s.completeWith .notConfigured) := by
  simp only [execPix, State.begun_busy h, State.commandFor_busy h]

/-- All that a CFG can do (R111). -/
theorem execCfg_next {s t : State} (h : execCfg s = .next t) :
    (cfgCheck (s.commandFor (encode .cfg)).args = .ok ∧ t = (s.begun (encode .cfg)).cfgOk (s.commandFor (encode .cfg)).args)
    ∨ (cfgCheck (s.commandFor (encode .cfg)).args ≠ .ok
        ∧ t = (s.begun (encode .cfg)).cfgFail (cfgCheck (s.commandFor (encode .cfg)).args)) := by
  simp only [execCfg] at h
  split at h
  · exact .inl ⟨‹_›, (Host.Outcome.next.inj h).symm⟩
  · exact .inr ⟨‹_›, (Host.Outcome.next.inj h).symm⟩

/-- All that a CONV can do (R130). -/
theorem execConv_next {s t : State} (h : execConv s = .next t) :
    ((s.commandFor (encode .conv)).cfgValid = false ∧ t = (s.begun (encode .conv)).completeWith .notConfigured)
    ∨ ((s.commandFor (encode .conv)).cfgValid = true
        ∧ (s.commandFor (encode .conv)).hostDuties s.params s.devices = true
        ∧ t = (s.begun (encode .conv)).converted (s.commandFor (encode .conv))) := by
  simp only [execConv] at h
  split at h
  · rename_i hv
    split at h
    · cases h
    · rename_i hd
      exact .inr ⟨hv, by simp [Command.hostDuties, hd], (Host.Outcome.next.inj h).symm⟩
  · rename_i hv
    exact .inl ⟨by simpa using hv, (Host.Outcome.next.inj h).symm⟩

/-- All that a PIX can do (R175). -/
theorem execPix_next {s t : State} (h : execPix s = .next t) :
    ((s.commandFor (encode .pix)).cfgValid = false ∧ t = (s.begun (encode .pix)).completeWith .notConfigured)
    ∨ ((s.commandFor (encode .pix)).cfgValid = true
        ∧ t = State.completeWith .ok
            { s.begun (encode .pix) with pixOut := ((s.commandFor (encode .pix)).pixKernel s.params).out }) := by
  simp only [execPix] at h
  split at h
  · exact .inr ⟨‹_›, (Host.Outcome.next.inj h).symm⟩
  · rename_i hv
    exact .inl ⟨by simpa using hv, (Host.Outcome.next.inj h).symm⟩

/-- NOP always completes (R110). -/
theorem execNop_next {s t : State} (h : execNop s = .next t) : t = (s.begun (encode .nop)).completeWith .ok :=
  (Host.Outcome.next.inj h).symm

/-- The bytes a read of STATUS delivers: those of the last command and no others (R78). -/
theorem State.deliver_unspecified (s : State) (a : Nat) :
    s.deliver.unspecified a
      = (s.phase.ownsDst a || (s.missed.contains a && !s.awaitedBytes.contains a)) := by
  unfold State.deliver State.unspecified State.awaitedBytes
  cases h : s.awaited with
  | none => simp [h]
  | some c =>
    have : c.inDst a = c.dstBytes.contains a := by
      rw [Bool.eq_iff_iff, Command.inDst_iff, List.contains_iff_mem]
    simp only [List.contains_nil, Bool.or_false]
    congr 1
    rw [Bool.eq_iff_iff, List.contains_iff_mem, List.mem_filter, ← this]
    simp

/-- A read of STATUS changes nothing but what later reads of memory give (R49, R78). -/
theorem State.statusRead_eq (s : State) :
    s.statusRead = { s with awaited := s.statusRead.awaited, missed := s.statusRead.missed } := by
  unfold State.statusRead State.deliver
  split
  · cases s.awaited <;> rfl
  · rfl

/-- Losing DONE changes no read: what the host had not seen completed stays unspecified (R225). -/
theorem State.loseDone_unspecified (s : State) (a : Nat) : s.loseDone.unspecified a = s.unspecified a := by
  simp only [State.unspecified, State.loseDone_phase, State.loseDone_missed, State.awaitedBytes, State.loseDone_awaited,
    List.contains_nil, Bool.or_false]
  simp [Bool.or_assoc]

/-- All that the engine can do (R90, R93). -/
theorem engineTurn_next {s t : State} (h : engineTurn s = .next t) :
    (s.phase = .idle ∧ t = s)
    ∨ ∃ c, s.phase = .busy c ∧
        ((∃ e, decodeFields c.op c.rsv = .error e ∧ t = s.completeWith .illegalCommand)
         ∨ ∃ i, decodeFields c.op c.rsv = .ok i ∧ exec i s = .next t) := by
  unfold engineTurn at h
  split at h
  · exact .inl ⟨‹_›, (Host.Outcome.next.inj h).symm⟩
  · rename_i c hc
    refine .inr ⟨c, hc, ?_⟩
    split at h
    · exact .inr ⟨_, ‹_›, h⟩
    · exact .inl ⟨_, ‹_›, (Host.Outcome.next.inj h).symm⟩

/-- All that the host can do: nothing, or the next action of its program. -/
theorem hostTurn_next {s t : State} (h : hostTurn s = .next t) :
    (s.host = [] ∧ t = s) ∨ ∃ act rest, s.host = act :: rest ∧ hostAct act { s with host := rest } = .next t := by
  unfold hostTurn at h
  split at h
  · exact .inl ⟨‹_›, (Host.Outcome.next.inj h).symm⟩
  · exact .inr ⟨_, _, ‹_›, h⟩

/-- A step is the move of one agent: the one the turns name, or the default one when they are used up. -/
theorem step_cases (s : State) :
    (∃ t ts, s.turns = t :: ts ∧ step s = takeTurn t { s with turns := ts })
    ∨ (s.turns = [] ∧ step s = takeTurn s.defaultTurn s) := by
  unfold step
  cases h : s.turns with
  | nil => exact .inr ⟨rfl, rfl⟩
  | cons t ts => exact .inl ⟨t, ts, rfl, rfl⟩

end Sys2Proof.Machine
end

