-- ==== Sys2Proof/Laws/PerInstr.lean ====
section
/-! SUPPORT. What holds of every command as syntax: one lemma per constructor. -/

namespace Sys2Proof.Laws.CommandWord

/-- A command is well formed, its word has RSV zero and an OP below 4 (R91 to R93), and its register-port bytes are
four (R20). -/
def Statement (i : Instr) : Prop :=
  i.wf = true ∧ commandWordWf (encode i) = true ∧ (encodeBytes i).length = 4

theorem nop : Statement .nop := ⟨rfl, by decide, rfl⟩
theorem cfg : Statement .cfg := ⟨rfl, by decide, rfl⟩
theorem conv : Statement .conv := ⟨rfl, by decide, rfl⟩
theorem pix : Statement .pix := ⟨rfl, by decide, rfl⟩

end Sys2Proof.Laws.CommandWord
end

