-- ==== Sys2Proof/Laws/Step.lean ====
section
/-! SUPPORT. Frames of the moves: what each agent leaves alone, and runs of the machine one step at a time. -/

namespace Sys2Proof.Machine

theorem run_succ (M : Host.Core) {s t : M.State} (h : M.step s = .next t) (k : Nat) : M.run (k + 1) s = M.run k t := by
  simp only [Host.Core.run, h]

/-- A run of one step more begins with that step. -/
theorem core_run_succ {s t : State} (h : step s = .next t) (k : Nat) :
    Sys2Proof.core.run (k + 1) s = Sys2Proof.core.run k t :=
  run_succ Sys2Proof.core h k

/-- A run of no step. -/
theorem core_run_zero (s : State) : Sys2Proof.core.run 0 s = .next s := rfl

/-- What a move of the host leaves alone, and how it can change the phase and memory. -/
theorem hostTurn_frame {s t : State} (h : hostTurn s = .next t) :
    t.params = s.params ∧ t.devices = s.devices ∧ t.cfgValid = s.cfgValid ∧ t.active = s.active
    ∧ t.dstWidth = s.dstWidth ∧ t.dstHeight = s.dstHeight ∧ t.pixOut = s.pixOut ∧ t.turns = s.turns
    ∧ ((t.phase = s.phase ∧ t.done = s.done ∧ t.err = s.err)
        ∨ (s.phase = .idle ∧ t.phase.isBusy = true ∧ t.done = false ∧ t.err = 0))
    ∧ (t.mem = s.mem ∨ ∃ addr bs rest, s.host = .memWrite addr bs :: rest ∧ t.mem = s.mem.writeBytes addr bs) := by
  rcases hostTurn_next h with ⟨_, rfl⟩ | ⟨act, rest, hh, h⟩
  · simp
  · cases act with
    | regWrite a v =>
      rcases hostRegWrite_next h with rfl | ⟨_, r, _, _, rfl⟩ | ⟨hi, _, h⟩
      · simp
      · simp
      · obtain ⟨rfl, _⟩ := issueCommand_next h
        simp only at hi
        simp [hi]
    | regRead a => rw [hostRegRead_next h]; split <;> simp
    | wait => obtain ⟨l, rfl⟩ := hostWait_next h; simp
    | memRead addr n => rw [hostMemRead_next h]; simp
    | memWrite addr bs => obtain ⟨rfl, _⟩ := hostMemWrite_next h; simp [hh]

/-- What a command leaves alone: the parameters and the host always, and every register or byte that its rule does not
write (R94's table of results). -/
theorem exec_frame {i : Instr} {s t : State} (h : exec i s = .next t) :
    t.params = s.params ∧ t.devices = s.devices ∧ t.args = s.args ∧ t.bufs = s.bufs ∧ t.pix = s.pix
    ∧ t.host = s.host ∧ t.turns = s.turns ∧ t.observed = s.observed ∧ t.draws = s.draws
    ∧ t.phase = .idle ∧ t.done = true
    ∧ (i ≠ .cfg → t.cfgValid = s.cfgValid ∧ t.active = s.active ∧ t.dstWidth = s.dstWidth
        ∧ t.dstHeight = s.dstHeight)
    ∧ (i ≠ .pix → t.pixOut = s.pixOut) ∧ (i ≠ .conv → t.mem = s.mem) := by
  cases i with
  | nop => cases h; simp
  | cfg => rcases execCfg_next h with ⟨_, rfl⟩ | ⟨_, rfl⟩ <;> simp
  | conv => rcases execConv_next h with ⟨_, rfl⟩ | ⟨_, _, rfl⟩ <;> simp
  | pix => rcases execPix_next h with ⟨_, rfl⟩ | ⟨_, rfl⟩ <;> simp

/-- Who moved in a step, and from which state. -/
theorem step_takeTurn {s t : State} (h : step s = .next t) :
    ∃ k ts, takeTurn k { s with turns := ts } = .next t
      ∧ ((∃ l, s.turns = k :: l) ∨ (s.turns = [] ∧ k = s.defaultTurn)) := by
  rcases step_cases s with ⟨k, ts, h1, h2⟩ | ⟨h1, h2⟩
  · exact ⟨k, ts, h2 ▸ h, .inl ⟨ts, h1⟩⟩
  · exact ⟨s.defaultTurn, s.turns, h2 ▸ h, .inr ⟨h1, rfl⟩⟩

/-- The default turn is never a reset. -/
theorem State.defaultTurn_ne_reset (s : State) : s.defaultTurn ≠ .reset := by
  unfold State.defaultTurn
  split <;> simp

end Sys2Proof.Machine
end

