-- ==== Sys2Proof/Machine/HostProgram.lean ====
section
/-! DEFINITION. The host-side notation of the spec's programs (R96, R97) and the host actions each line stands for. -/

namespace Sys2Proof.Machine

/-- One line of a host program (R96), with the pseudo-instructions of R97. -/
inductive HostLine where
  | wr (r : Reg) (value : Word)
  | rd (r : Reg)
  | command (i : Instr)
  | cmdw (w : Word)
  | wait
  | memw (addr : Nat) (bytes : List Byte)
  | memr (addr n : Nat)
  | setup (fmt cvt prec type w h : Word)
  | run
  deriving DecidableEq, Repr

/-- A 32-bit aligned access at a register's offset (R96). -/
def Reg.access (r : Reg) : RegAccess := { offset := r.offset, bytes := 4 }

/-- `WR <REG>, <value>`. -/
def Reg.wr (r : Reg) (v : Word) : HostAction := .regWrite r.access v

/-- The host actions of one line. `SETUP` and `RUN` expand as R97 says. -/
def HostLine.actions : HostLine → List HostAction
  | .wr r v => [r.wr v]
  | .rd r => [.regRead r.access]
  | .command i => [Reg.cmd.wr (encode i)]
  | .cmdw w => [Reg.cmd.wr w]
  | .wait => [.wait]
  | .memw a bs => [.memWrite a bs]
  | .memr a n => [.memRead a n]
  | .setup fmt cvt prec type w h =>
    [Reg.srcType.wr type, Reg.dstFmt.wr fmt, Reg.convertYuv.wr cvt, Reg.precision.wr prec,
      Reg.srcWidth.wr w, Reg.srcHeight.wr h, Reg.cmd.wr (encode .cfg), .wait]
  | .run => [Reg.cmd.wr (encode .conv), .wait]

/-- The host actions of a program, line by line. -/
def hostProgram (lines : List HostLine) : List HostAction := lines.flatMap HostLine.actions

end Sys2Proof.Machine
end

