-- ==== Sys2Proof/Tests/Slice0.lean ====
section
/-! SUPPORT. Small tests: the checks of WellFormed, the command words written out from R92, examples worked in the spec,
and a witness for the hypotheses of every statement that has some. -/

namespace Sys2Proof.Tests

open Sys2Proof.Machine

/-! ### WellFormed: each check refuses an ill-formed term -/

theorem test_access_ok : ({ offset := 0xFC, bytes := 4 } : RegAccess).wf = true := by decide
theorem test_access_subword : ({ offset := 0x04, bytes := 1 } : RegAccess).wf = false := by decide
theorem test_access_wide : ({ offset := 0x08, bytes := 8 } : RegAccess).wf = false := by decide
theorem test_access_unaligned : ({ offset := 0x06, bytes := 4 } : RegAccess).wf = false := by decide
theorem test_access_outside : ({ offset := 0x100, bytes := 4 } : RegAccess).wf = false := by decide
theorem test_params_zero_width : ({ addrW := 0, arith := .exact, nanByte := 0 } : Params).wf = false := by decide
theorem test_params_wide : ({ addrW := 33, arith := .exact, nanByte := 0 } : Params).wf = false := by decide
theorem test_word_reserved_op : commandWordWf 0x00000004 = false := by decide
theorem test_word_reserved_bits : commandWordWf 0x80000001 = false := by decide
theorem test_instr_wf : ([.nop, .cfg, .conv, .pix] : List Instr).all Instr.wf = true := by decide

/-! ### Decoding: R92's words, bit by bit; R93's illegal words (95_test_vectors.md section 4.2) -/

theorem test_decode_nop : decodeTableWord 32 0b00000000000000000000000000000000 = some .nop := by decide
theorem test_decode_cfg : decodeTableWord 32 0b00000000000000000000000000000001 = some .cfg := by decide
theorem test_decode_conv : decodeTableWord 32 0b00000000000000000000000000000010 = some .conv := by decide
theorem test_decode_pix : decodeTableWord 32 0b00000000000000000000000000000011 = some .pix := by decide
theorem test_decode_pix_bytes : decodeBytes [0x03, 0x00, 0x00, 0x00, 0xAA] = .ok (.pix, [0xAA]) := by rfl
theorem test_decode_reserved_op : decodeWord 0x0000000F = .error (.reservedOpcode 0xF) := by rfl
theorem test_decode_reserved_bits : decodeWord 0x00000012 = .error (.reservedBits 1) := by rfl
theorem test_decode_truncated : decodeBytes [0x00, 0x00, 0x00] = .error .truncated := by rfl

/-! ### Small states -/

/-- The next state of an outcome. -/
def nextOf (o : Host.Outcome State Fault Refusal) : State :=
  match o with
  | .next t => t
  | _ => State.reset

/-- Arguments of a CFG. -/
def argsOf (fmt : Word) (cvt : Bool) (prec type w h : Word) : Args :=
  { srcType := type, dstFmt := fmt, convertYuv := cvt, precision := prec, srcWidth := w, srcHeight := h }

/-- R137's example: P = 1, pass-through, 1 × 2 packed. -/
def packedBufs : Buffers := { Buffers.zero with srcBase := 0x1000, srcStride := 4, dst0Base := 0x2000, dst0Stride := 8 }

/-- R142's example: P = 1, matrix, 1 × 1 planar, all strides 16. -/
def planarBufs : Buffers :=
  { srcBase := 0x1000, srcStride := 16, dst0Base := 0x3000, dst0Stride := 16, dst1Base := 0x3100, dst2Base := 0x3200
    dstUvStride := 16 }

/-- A configured idle block. -/
def configured (a : Args) (bufs : Buffers) (mem : Memory) : State :=
  { State.reset with
    args := a, active := cfgActive a, dstWidth := cfgWidth a, dstHeight := a.srcHeight, cfgValid := true
    bufs := bufs, mem := mem }

/-- Source bytes of R137's example. -/
def packedMem : Memory :=
  [(0x1000, 0x10), (0x1001, 0x20), (0x1002, 0x30), (0x1003, 0xAA), (0x1004, 0x40), (0x1005, 0x50), (0x1006, 0x60),
   (0x1007, 0xBB)]

/-- Source bytes of R142's example. -/
def planarMem : Memory := [(0x1000, 0xFF), (0x1001, 0xFF), (0x1002, 0xFF)]

/-- R137's block with CONV in flight. -/
def packedConv : State := (configured (argsOf 3 false 1 1 1 2) packedBufs packedMem).issue 2

/-- R142's block with CONV in flight. -/
def planarConv : State := (configured (argsOf 1 true 1 1 1 1) planarBufs planarMem).issue 2

/-- A block with PIX in flight on the given operands. -/
def pixState (a : Args) (px : PixIn) : State := { configured a Buffers.zero [] with pix := px }.issue 3

/-- A block after reset with CFG in flight on the given arguments. -/
def cfgState (a : Args) : State := { State.reset with args := a }.issue 1

/-- The snapshot in flight. -/
def inFlight (s : State) : Command := s.commandFor 0

/-! ### Examples worked in the spec -/

/-- R110's example. -/
theorem test_nop_clears_err :
    ({ packedConv with phase := .idle, done := true, err := 6 } : State).statusWord = 0x00000606
      ∧ (nextOf (exec .nop { packedConv with phase := .idle, done := true, err := 6 })).statusWord = 0x00000006 := by
  decide

/-- R111's example. -/
theorem test_cfg_example :
    let t := nextOf (exec .cfg (cfgState (argsOf 3 true 2 1 8 2)))
    t.statusWord = 6 ∧ t.active.word = 0x0000033E ∧ t.dstWidth = 4 ∧ t.dstHeight = 2 := by decide

/-- R114(b): an odd width with precision 2 (95_test_vectors.md section 4.1). -/
theorem test_cfg_odd_width :
    (nextOf (exec .cfg (cfgState (argsOf 3 true 2 1 3 1)))).statusWord = 0x00000402 := by decide

/-- R137's example: the flip, the alpha byte, the padding. -/
theorem test_conv_packed :
    (nextOf (exec .conv packedConv)).mem.readBytes 0x2000 16
      = [0x40, 0x50, 0x60, 0, 0, 0, 0, 0, 0x10, 0x20, 0x30, 0, 0, 0, 0, 0] := by decide

/-- R142's example: white. -/
theorem test_conv_planar :
    let t := nextOf (exec .conv planarConv)
    t.mem.read 0x3000 = 0xEB ∧ t.mem.read 0x3100 = 0x80 ∧ t.mem.read 0x3200 = 0x80 := by decide

/-- R175's example. -/
theorem test_pix_example :
    (nextOf (exec .pix (pixState (argsOf 1 true 2 1 2 1) { b := 0x3C00, g := 0x3C00, r := 0x3C00 }))).pixOutWord
      = 0x00EB8080 := by decide

/-- 95_test_vectors.md section 3.1, red: the named mapping of U and V, and R43's mask (program 3). -/
theorem test_pix_red :
    (nextOf (exec .pix (pixState (argsOf 1 true 1 1 2 1) { b := 0x0100, g := 0x0200, r := 0x03FF }))).pixOutWord
      = 0x00525AF0 := by decide

/-- 95_test_vectors.md section 5: the two arithmetics differ at the tie of (B, G, R) = (31, 35, 46). -/
theorem test_kernel_tie :
    kernelExact 0 1 true 31 35 46 = { o0 := 49, o1 := 125, o2 := 133 }
      ∧ kernel32 0 1 true 31 35 46 = { o0 := 48, o1 := 125, o2 := 133 } := by decide

/-- 95_test_vectors.md section 2: RC32 rounds 0.5 − 2^−25 + 0.5 up to 1; RC does not. -/
theorem test_rc_corner :
    rc32 0 (.fin { num := 2 ^ 24 - 1, den := 2 ^ 25 }) = 1 ∧ rc 0 (.fin { num := 2 ^ 24 - 1, den := 2 ^ 25 }) = 0 := by
  decide

/-- An illegal word in flight (95_test_vectors.md section 4.2): STATUS 0x606, ACTIVE kept. -/
theorem test_illegal_word :
    let t := nextOf (step ((configured (argsOf 3 true 2 1 8 2) Buffers.zero []).withFetchWord 32 0x12))
    t.statusWord = 0x00000606 ∧ t.active.word = 0x0000033E := by decide

/-- The host's WR CMD, then WAIT: the boot path of R222 for NOP, from reset. -/
theorem test_host_program :
    hostProgram [.command .nop, .wait] = [.regWrite { offset := 0, bytes := 4 } 0, .wait] := by decide

/-! ### Witnesses: the hypotheses of each statement hold together somewhere -/

theorem witness_StepRunsDecodedCommand :
    packedConv.phase = .busy (inFlight packedConv)
      ∧ decodeFields (inFlight packedConv).op (inFlight packedConv).rsv = .ok .conv ∧ packedConv.turns = []
      ∧ (packedConv.withFetchWord 32 3).turns = .engine :: [] := ⟨rfl, rfl, rfl, rfl⟩

theorem witness_StepRunsDecodedCommand_illegal :
    (State.reset.issue 0x12).phase = .busy (inFlight (State.reset.issue 0x12))
      ∧ decodeFields (inFlight (State.reset.issue 0x12)).op (inFlight (State.reset.issue 0x12)).rsv
          = .error (.reservedBits 1)
      ∧ ({ State.reset with turns := [.engine] } : State).phase = .idle := ⟨rfl, rfl, rfl⟩

theorem witness_StepRunsHostAction :
    ({ packedConv with turns := [.host], host := [.memRead 0x2000 1] } : State).turns = .host :: []
      ∧ ({ packedConv with turns := [.host], host := [.memRead 0x2000 1] } : State).host = .memRead 0x2000 1 :: []
      ∧ State.reset.turns = [] ∧ State.reset.phase = .idle ∧ State.reset.host = [] := ⟨rfl, rfl, rfl, rfl, rfl⟩

theorem witness_ExecInIdleBlockIssuesFirst : State.reset.phase = .idle := rfl

theorem witness_CommandWriteIssues :
    State.reset.phase = .idle
      ∧ (configured (argsOf 3 false 1 1 1 2) Buffers.zero []).phase = .idle
      ∧ ((configured (argsOf 3 false 1 1 1 2) Buffers.zero []).snapshot 2).hostDuties Params.spec [] = false :=
  ⟨rfl, rfl, by decide⟩

theorem witness_IllegalWordReportsIllegalCommand :
    (State.reset.issue 0x4).phase = .busy (inFlight (State.reset.issue 0x4))
      ∧ 4 ≤ (inFlight (State.reset.issue 0x4)).op.toNat
      ∧ (State.reset.issue 0x10).phase = .busy (inFlight (State.reset.issue 0x10))
      ∧ (inFlight (State.reset.issue 0x10)).rsv ≠ 0 := ⟨rfl, by decide, rfl, by decide⟩

/-- A command in flight, and an idle block. -/
theorem witness_NopOnlyClearsErr :
    packedConv.phase = .busy (inFlight packedConv) ∧ (State.reset.issue 0).phase = .busy (inFlight (State.reset.issue 0))
      ∧ State.reset.phase = .idle := ⟨rfl, rfl, rfl⟩

theorem witness_CfgLatchesConfiguration :
    ∀ a ∈ [argsOf 1 true 1 1 1 1, argsOf 3 false 2 1 2 0xFFFFFFFF],
      (cfgState a).phase = .busy (inFlight (cfgState a)) ∧ (inFlight (cfgState a)).args.srcType = 1
      ∧ ((inFlight (cfgState a)).args.dstFmt = 1 ∨ (inFlight (cfgState a)).args.dstFmt = 3)
      ∧ ((inFlight (cfgState a)).args.precision = 1 ∨ (inFlight (cfgState a)).args.precision = 2)
      ∧ (inFlight (cfgState a)).args.srcWidth ≠ 0 ∧ (inFlight (cfgState a)).args.srcHeight ≠ 0
      ∧ ((inFlight (cfgState a)).args.precision = 2 → (inFlight (cfgState a)).args.srcWidth.toNat % 2 = 0) := by
  decide

theorem witness_CfgFailsWithFirstError :
    (cfgState (argsOf 9 true 7 0 0 0)).phase = .busy (inFlight (cfgState (argsOf 9 true 7 0 0 0)))
      ∧ (argsOf 9 true 7 0 0 0).srcType ≠ 1
      ∧ ((argsOf 4 true 7 1 0 0).srcType = 1 ∧ (argsOf 4 true 7 1 0 0).dstFmt = 4)
      ∧ ((argsOf 3 true 3 1 0 0).srcType = 1 ∧ (argsOf 3 true 3 1 0 0).precision = 3)
      ∧ ((argsOf 3 true 2 1 1 1).srcType = 1 ∧ (argsOf 3 true 2 1 1 1).srcWidth.toNat % 2 = 1) := by decide

theorem witness_ActiveWordAfterCfg :
    exec .cfg (cfgState (argsOf 2 false 2 1 2 1)) = .next (nextOf (exec .cfg (cfgState (argsOf 2 false 2 1 2 1))))
      ∧ (nextOf (exec .cfg (cfgState (argsOf 2 false 2 1 2 1)))).err = 0 := ⟨rfl, by decide⟩

theorem witness_GeometryLaw :
    (nextOf (exec .cfg (cfgState (argsOf 2 false 2 1 2 1)))).active.prec = 2
      ∧ (nextOf (exec .cfg (cfgState (argsOf 1 true 1 1 3 5)))).active.prec = 1
      ∧ (nextOf (exec .cfg (cfgState (argsOf 1 true 1 1 3 5)))).err = 0 := by decide

theorem witness_PackedConvFinalState :
    packedConv.mem.wf = true ∧ packedConv.phase = .busy (inFlight packedConv) ∧ (inFlight packedConv).cfgValid = true
      ∧ (inFlight packedConv).hostDuties packedConv.params packedConv.devices = true
      ∧ (inFlight packedConv).active.packed = true ∧ 1 < (inFlight packedConv).H
      ∧ 7 < (inFlight packedConv).bufs.dst0Stride.toNat ∧ 0x2010 ∉ (inFlight packedConv).packedBytes := by decide

theorem witness_PlanarConvFinalState :
    planarConv.mem.wf = true ∧ planarConv.phase = .busy (inFlight planarConv) ∧ (inFlight planarConv).cfgValid = true
      ∧ (inFlight planarConv).hostDuties planarConv.params planarConv.devices = true
      ∧ (inFlight planarConv).active.packed = false ∧ 0 < (inFlight planarConv).H ∧ 0 < (inFlight planarConv).W := by
  decide

theorem witness_PixelReadsItsOwnChannels :
    (inFlight packedConv).active.prec = 1
      ∧ (inFlight ((configured (argsOf 3 false 2 1 2 1) packedBufs []).issue 2)).active.prec = 2 := by decide

theorem witness_PackedFlipAndZeroBytes :
    exec .conv packedConv = .next (nextOf (exec .conv packedConv)) ∧ 0 < (inFlight packedConv).H
      ∧ 0 < (inFlight packedConv).W := ⟨by rfl, by decide, by decide⟩

theorem witness_UnconfiguredCommandsDoNothing :
    (State.reset.issue 2).phase = .busy (inFlight (State.reset.issue 2))
      ∧ (inFlight (State.reset.issue 2)).cfgValid = false := by decide

theorem witness_ConvFaultsWhenDutyFails :
    let s := (configured (argsOf 3 false 1 1 1 2) Buffers.zero []).issue 2
    s.phase = .busy (inFlight s) ∧ (inFlight s).cfgValid = true
      ∧ (inFlight s).hostDuties s.params s.devices = false := by decide

theorem witness_ConvRepeatsItsResult :
    let u : State := { nextOf (exec .conv packedConv) with phase := packedConv.phase }
    u.mem.wf = true ∧ u.phase = .busy (inFlight packedConv) ∧ u.params = packedConv.params
      ∧ u.devices = packedConv.devices ∧ (inFlight packedConv).active.word ∈ configuredWords
      ∧ ∀ a ∈ (inFlight packedConv).srcBytes, u.mem.read a = packedConv.mem.read a := by decide

theorem witness_PixelOrderDoesNotMatter :
    (inFlight packedConv).hostDuties Params.spec [] = true
      ∧ [(1, 0), (0, 0)].Perm (inFlight packedConv).pixels := by decide

/-- R137's block before its CONV, with one more move of the host to come: a write next to the owned bytes. -/
def beforeConv : State :=
  { configured (argsOf 3 false 1 1 1 2) packedBufs packedMem with host := [.memWrite 0x2010 [1]] }

/-- The planar form, with two pixels. -/
theorem witness_PixelOrderDoesNotMatter_planar :
    let c := inFlight ((configured (argsOf 1 true 1 1 2 1) planarBufs planarMem).issue 2)
    planarMem.wf = true ∧ c.hostDuties Params.spec [] = true ∧ c.active.packed = false
      ∧ [(0, 1), (0, 0)].Perm c.pixels := by decide

theorem witness_ConvSeesSourceAsAtIssue :
    beforeConv.Inv ∧ beforeConv.phase = .idle ∧ beforeConv.cfgValid = true ∧ decodeWord 2 = .ok .conv
      ∧ hostRegWrite { offset := 0, bytes := 4 } 2 beforeConv = .next (beforeConv.issue 2)
      ∧ hostMoves 1 (beforeConv.issue 2) = .next (nextOf (hostMoves 1 (beforeConv.issue 2)))
      ∧ (nextOf (hostMoves 1 (beforeConv.issue 2))).mem.read 0x2010 = 1 :=
  ⟨{ params := by decide
     memCanonical := by decide
     memInSpace := by decide
     config := ⟨by decide, by decide, by decide⟩
     err := by decide
     busyStatus := fun h => absurd h (by decide)
     snapshot := fun _ h => by cases h
     duties := fun _ h _ => by cases h
     awaited := fun _ h => by cases h }, rfl, rfl, rfl, by rfl, by rfl, by decide⟩

theorem witness_PixWritesKernelResult :
    let s := pixState (argsOf 1 true 2 1 2 1) { b := 0x7C00, g := 0, r := 0 }
    s.phase = .busy (inFlight s) ∧ (inFlight s).cfgValid = true := by decide

theorem witness_PixAgreesWithConv :
    let c : Command := { inFlight packedConv with pix := { b := 0xFF10, g := 0x20, r := 0x30 } }
    c.active.prec = 1 ∧ c.pix.b.setWidth 8 = packedMem.read (c.chanAddr 0 0 0)
      ∧ c.pix.g.setWidth 8 = packedMem.read (c.chanAddr 0 0 1)
      ∧ c.pix.r.setWidth 8 = packedMem.read (c.chanAddr 0 0 2) := by decide

theorem witness_PixAgreesWithConv_half :
    let c : Command :=
      { inFlight ((configured (argsOf 3 false 2 1 2 1) packedBufs packedMem).issue 2) with
        pix := { b := 0x2010, g := 0xAA30, r := 0x5040 } }
    c.active.prec = 2 ∧ c.pix.b = packedMem.read (c.chanAddr 0 0 0 + 1) ++ packedMem.read (c.chanAddr 0 0 0)
      ∧ c.pix.g = packedMem.read (c.chanAddr 0 0 1 + 1) ++ packedMem.read (c.chanAddr 0 0 1)
      ∧ c.pix.r = packedMem.read (c.chanAddr 0 0 2 + 1) ++ packedMem.read (c.chanAddr 0 0 2) := by decide

/-- 254.5, just above 255, and a negative value (95_test_vectors.md section 2). -/
theorem witness_RoundHalfUpAndSaturate :
    0 < ({ num := 509, den := 2 } : Frac).den ∧ 255 * (10 : Int) < 2551 ∧ (-1 : Int) < 0
      ∧ rc 0 (.fin { num := 509, den := 2 }) = 255 := by decide

/-- The boundary exponents 0, 1, 30 and 31. -/
theorem witness_Binary16DecodesExactly :
    ((0x83FF : BitVec 16).extractLsb' 10 5).toNat = 0 ∧ ((0x0400 : BitVec 16).extractLsb' 10 5).toNat = 1
      ∧ ((0x7BFF : BitVec 16).extractLsb' 10 5).toNat = 30 ∧ ((0xFC00 : BitVec 16).extractLsb' 10 5).toNat = 31
      ∧ ((0x7C01 : BitVec 16).extractLsb' 0 10).toNat ≠ 0 := by decide

theorem witness_GreyLaw : chan 2 0xBC00 = .fin { num := 255 * -1024, den := 1 * 1024 } := by decide

theorem witness_NanByteShowsOnlyForNan : dec16 0x7E00 = .nan ∧ dec16 0x7C01 = .nan := by decide

theorem witness_OppositeInfinitiesGiveNanByte :
    dec16 0x0000 = .fin { num := 0, den := 2 ^ 24 } ∧ dec16 0x7C00 = Ext.inf false ∧ dec16 0xFC00 = Ext.inf true := by
  decide

/-- Every case of a channel: finite, both infinities, NaN. -/
theorem witness_Precision2KernelScalesBy255 :
    dec16 0x3C00 = .fin { num := 1024, den := 1024 } ∧ dec16 0x7C00 = .posInf ∧ dec16 0xFC00 = .negInf
      ∧ dec16 0x7E00 = .nan := by decide

/-- The largest binary16 value; a tie, whose two neighbours differ in the last bit; the least value that overflows. -/
theorem witness_Binary16FitsBinary32 :
    dec16 0x7BFF = .fin { num := 2047 * 2 ^ 5, den := 1 }
      ∧ f32 { num := 2 ^ 24 + 1, den := 1 } = dec32 0x4B800000 ∧ f32 { num := 2 ^ 24 + 3, den := 1 } = dec32 0x4B800002
      ∧ f32 { num := 2 ^ 128 - 2 ^ 103, den := 1 } = .posInf := by decide

/-- Both infinities, a finite channel and NaN; with r and g both +inf the V row is inf − inf. -/
theorem witness_Binary32InfinitiesFollowTheirSigns :
    dec16 0x7C00 = .posInf ∧ dec16 0xFC00 = .negInf ∧ dec16 0x3C00 = .fin { num := 1024, den := 1024 }
      ∧ dec16 0x7E00 = .nan ∧ kernel32 77 2 true 0x3C00 0x7C00 0x7C00 = { o0 := 255, o1 := 0, o2 := 77 } := by decide

theorem witness_RegisterAccessRules :
    Reg.pixOut.writable = false ∧ packedConv.phase.isBusy = true ∧ Reg.convertYuv.writable = true
      ∧ State.reset.phase.isBusy = false := by decide

theorem witness_ReservedOffsetsReadZero : 0x58 % 4 = 0 ∧ 0xFC % 4 = 0 ∧ 0x58 ≤ 0xFC := by decide

theorem witness_BadRegisterAccessFaults :
    ({ offset := 4, bytes := 2 } : RegAccess).bytes ≠ 4 ∧ ({ offset := 5, bytes := 4 } : RegAccess).offset % 4 ≠ 0
      ∧ 0x100 ≤ ({ offset := 0x100, bytes := 4 } : RegAccess).offset := by decide

theorem witness_DoneAndErrLifetime :
    step packedConv = .next (nextOf (step packedConv)) ∧ packedConv.turns.head? ≠ some .reset
      ∧ packedConv.phase.isBusy = true ∧ (nextOf (step packedConv)).phase.isBusy = false :=
  ⟨by rfl, by decide, by decide, by decide⟩

theorem witness_DoneAndErrLifetime_issue :
    let s : State := { State.reset with host := [Reg.cmd.wr 0] }
    step s = .next (nextOf (step s)) ∧ s.phase.isBusy = false ∧ (nextOf (step s)).phase.isBusy = true :=
  ⟨by rfl, by decide, by decide⟩

theorem witness_WaitPollsUntilDone : ({ State.reset with host := [.wait] } : State).host = .wait :: [] := rfl

theorem witness_HostWriteToOwnedByteFaults :
    packedConv.phase = .busy (inFlight packedConv)
      ∧ decodeFields (inFlight packedConv).op (inFlight packedConv).rsv = .ok .conv
      ∧ (inFlight packedConv).cfgValid = true ∧ 0x1006 ∈ (inFlight packedConv).srcBytes
      ∧ 0x200F ∈ (inFlight packedConv).dstBytes ∧ 0x1006 + [(1 : Byte)].length ≤ 2 ^ packedConv.params.addrW :=
  ⟨rfl, rfl, rfl, by decide, by decide, by decide⟩

theorem witness_HostWriteLandsElsewhere :
    packedConv.mem.wf = true ∧ 0x1003 + [(1 : Byte)].length ≤ 2 ^ packedConv.params.addrW
      ∧ ordinary packedConv.devices 0x1003 = true ∧ 0x1003 ∉ (inFlight packedConv).srcBytes
      ∧ 0x1003 ∉ (inFlight packedConv).dstBytes := by decide

/-- A read that begins just below the destination of a CONV in flight. -/
theorem witness_HostReadOfDestinationIsFree :
    0x1FFF + 2 ≤ 2 ^ packedConv.params.addrW ∧ packedConv.devices = [] ∧ packedConv.unspecified 0x1FFF = false
      ∧ packedConv.unspecified 0x2000 = true := by decide

/-- R137's block with its CONV completed and a host that polls. -/
def packedDone : State := { nextOf (exec .conv packedConv) with host := [.wait] }

theorem witness_ConvResultUnspecifiedUntilDoneIsRead :
    packedConv.phase = .busy (inFlight packedConv) ∧ (inFlight packedConv).converts = true
      ∧ engineTurn packedConv = .next (nextOf (engineTurn packedConv)) ∧ 0x2000 ∈ (inFlight packedConv).dstBytes
      ∧ 0x2010 ∉ (inFlight packedConv).dstBytes := ⟨rfl, rfl, rfl, by decide, by decide⟩

theorem witness_OnlyReadingDoneDelivers :
    packedDone.Inv ∧ step packedDone = .next (nextOf (step packedDone)) ∧ packedDone.unspecified 0x2000 = true
      ∧ (nextOf (step packedDone)).unspecified 0x2000 = false :=
  ⟨{ params := by decide
     memCanonical := by decide
     memInSpace := by decide
     config := ⟨by decide, by decide, by decide⟩
     err := by decide
     busyStatus := fun h => absurd h (by decide)
     snapshot := fun _ h => by cases h
     duties := fun _ h _ => by cases h
     awaited := fun _ _ => ⟨rfl, rfl⟩ }, by rfl, by decide, by decide⟩

/-- R78(2): DONE = 1 read for a later NOP delivers nothing of a CONV whose own DONE = 1 the host never read. -/
theorem test_done_of_another_command :
    let s := nextOf (exec .nop (packedDone.issue 0))
    s.done = true ∧ s.statusRead.unspecified 0x2000 = true ∧ packedDone.statusRead.unspecified 0x2000 = false := by
  decide

theorem witness_ResetSignalState :
    ({ packedConv with turns := [.reset] } : State).turns = .reset :: []
      ∧ packedConv.mem.wf = true ∧ (inFlight packedConv).converts = true := by decide

/-- The last byte of the space. -/
theorem witness_HostWriteLandsElsewhere_top :
    0xFFFFFFFF + [(1 : Byte)].length ≤ 2 ^ packedConv.params.addrW
      ∧ 0xFFFFFFFF ∉ (inFlight packedConv).srcBytes ∧ 0xFFFFFFFF ∉ (inFlight packedConv).dstBytes := by decide

/-- A write to a destination byte of a CONV that has completed and whose DONE = 1 the host has not read (entry 22). -/
theorem witness_HostWriteLandsElsewhere_unseen :
    packedDone.mem.wf = true ∧ packedDone.unspecified 0x2000 = true ∧ ordinary packedDone.devices 0x2000 = true
      ∧ packedDone.phase.isBusy = false := by decide

theorem witness_ConfigurationChangesOnlyByCfgOrReset :
    step (cfgState (argsOf 3 true 2 1 8 2)) = .next (nextOf (step (cfgState (argsOf 3 true 2 1 8 2))))
      ∧ (nextOf (step (cfgState (argsOf 3 true 2 1 8 2)))).active ≠ (cfgState (argsOf 3 true 2 1 8 2)).active
      ∧ (nextOf (step { packedConv with turns := [.reset] })).cfgValid ≠ packedConv.cfgValid :=
  ⟨by rfl, by decide, by decide⟩

theorem witness_CfgValidRisesOnlyBySuccessfulCfg :
    step (cfgState (argsOf 3 true 2 1 8 2)) = .next (nextOf (step (cfgState (argsOf 3 true 2 1 8 2))))
      ∧ (cfgState (argsOf 3 true 2 1 8 2)).cfgValid = false
      ∧ (nextOf (step (cfgState (argsOf 3 true 2 1 8 2)))).cfgValid = true := ⟨by rfl, by decide, by decide⟩

theorem witness_PixOutChangesOnlyByPixOrReset :
    let s := pixState (argsOf 1 true 2 1 2 1) { b := 0, g := 0, r := 0 }
    step s = .next (nextOf (step s)) ∧ (nextOf (step s)).pixOut ≠ s.pixOut := ⟨by rfl, by decide⟩

/-- A CONV's completion, and a host write. -/
theorem witness_MemoryChangesOnlyWhereOwned :
    packedConv.mem.wf = true ∧ step packedConv = .next (nextOf (step packedConv))
      ∧ (nextOf (step packedConv)).mem.read 0x2000 ≠ packedConv.mem.read 0x2000
      ∧ (nextOf (step { State.reset with host := [.memWrite 0 [1]] })).mem.read 0 ≠ State.reset.mem.read 0 :=
  ⟨by decide, by rfl, by decide, by decide⟩

theorem witness_StepKeepsParameters : step packedConv = .next (nextOf (step packedConv)) := by rfl

theorem witness_StepKeepsInvariant : beforeConv.Inv ∧ step beforeConv = .next (nextOf (step beforeConv)) :=
  ⟨witness_ConvSeesSourceAsAtIssue.1, by rfl⟩

/-- R137's block satisfies the invariant, with a command in flight and port-only host actions. -/
theorem witness_EveryCommandCompletes : packedConv.Inv ∧ packedConv.phase.isBusy = true
    ∧ ∀ act ∈ packedConv.host, act.atRegisterPort = true :=
  ⟨{ params := by decide
     memCanonical := by decide
     memInSpace := by decide
     config := ⟨by decide, by decide, by decide⟩
     err := by decide
     busyStatus := fun _ => by decide
     snapshot := fun _ h => ⟨2, (Phase.busy.inj h).symm⟩
     duties := fun _ h _ => by cases h; decide
     awaited := fun _ h => by cases h }, by decide, by decide⟩

/-- R137's block and a host that reads source bytes, which the engine owns, while BUSY: the read does not stop. -/
def packedConvRead : State := { packedConv with turns := [.host], host := [.memRead 0x1000 1, .memWrite 0x1003 [1]] }

theorem witness_EveryCommandCompletes_memory :
    packedConvRead.Inv ∧ packedConvRead.phase.isBusy = true
      ∧ ∀ j t, j ≤ packedConvRead.turns.length → Sys2Proof.core.run j packedConvRead = .next t →
          t.phase.isBusy = true → (∃ ts, t.turns = .host :: ts) → ∃ u, hostTurn t = .next u := by
  have hi := witness_EveryCommandCompletes.1
  refine ⟨{ hi with busyStatus := hi.busyStatus }, by decide, fun j t hj hr _ ht => ?_⟩
  obtain ⟨ts, ht⟩ := ht
  match j, hj, hr with
  | 0, _, hr => cases hr; exact ⟨_, rfl⟩
  | 1, _, hr => cases hr; cases ht

end Sys2Proof.Tests
end

section
/-! PROOFS. The step of the host and the fields that no step changes (R7, R8, R71, R96). -/

namespace Sys2Proof.Proofs.Scope

open Sys2Proof Sys2Proof.Machine

/-! ### The host's move -/

/-- When it is the host's turn, or no turn is left in an idle block, the step is the host's move (R8). -/
theorem step_eq_hostTurn {s : State} (h : s.turns = [] ∧ s.phase = .idle ∨ ∃ ts, s.turns = .host :: ts) :
    step s = hostTurn { s with turns := s.turns.tail } := by
  rcases h with ⟨hturns, hidle⟩ | ⟨ts, hturns⟩
  · have hdefault : s.defaultTurn = .host := by simp [State.defaultTurn, hidle, Phase.isBusy]
    have hsame : ({ s with turns := s.turns.tail } : State) = s := by
      rw [hturns, List.tail_nil, ← hturns]
    rw [hsame]
    simp only [step, hturns, hdefault, takeTurn]
  · simp only [step, hturns, takeTurn, List.tail_cons]

theorem hostTurn_of_nil {s : State} (h : s.host = []) : hostTurn s = .next s := by
  simp only [hostTurn, h]

theorem hostTurn_of_cons {s : State} {act : HostAction} {rest : List HostAction} (h : s.host = act :: rest) :
    hostTurn s = hostAct act { s with host := rest } := by
  simp only [hostTurn, h]

/-- Settles O4. -/
theorem stepRunsHostAction : Obligations.StepRunsHostAction := by
  intro s hturn
  rw [step_eq_hostTurn hturn]
  refine ⟨fun hnone => hostTurn_of_nil hnone, fun act rest hhost => ?_⟩
  rw [hostTurn_of_cons (s := { s with turns := s.turns.tail }) hhost]
  cases act <;> rfl

/-! ### The fields that no step changes -/

/-- No agent's move touches the parameters or the platform's map. -/
theorem takeTurn_keeps_parameters {k : Turn} {s t : State} (h : takeTurn k s = .next t) :
    t.params = s.params ∧ t.devices = s.devices := by
  cases k with
  | host =>
    obtain ⟨hparams, hdevices, _⟩ := hostTurn_frame h
    exact ⟨hparams, hdevices⟩
  | engine =>
    rcases engineTurn_next h with ⟨_, rfl⟩ | ⟨c, _, ⟨e, _, rfl⟩ | ⟨i, _, hexec⟩⟩
    · exact ⟨rfl, rfl⟩
    · simp
    · obtain ⟨hparams, hdevices, _⟩ := exec_frame hexec
      exact ⟨hparams, hdevices⟩
  | reset =>
    obtain rfl := Host.Outcome.next.inj h
    simp

/-- Settles O55. -/
theorem stepKeepsParameters : Obligations.StepKeepsParameters := by
  intro s t h
  obtain ⟨k, ts, hmove, _⟩ := step_takeTurn h
  exact takeTurn_keeps_parameters (s := { s with turns := ts }) hmove

end Sys2Proof.Proofs.Scope
end

section
/-! PROOFS. Rounding to binary32 (R10): `f32` rounds the significand of a rational to the nearest integer on the grid of
binary32 values at its magnitude, that grid point is the nearest binary32 value, and a pattern spells it. -/

namespace Sys2Proof.Proofs.Rounding

open Sys2Proof Sys2Proof.Machine

/-! ### The two parts of `f32`: the exponent and the rounded significand -/

/-- Scaling numerator or denominator by `2^|q|`, as `f32` and `floorLog2` do, divides the ratio by `2^q`. -/
theorem scaled_ratio (n d : ℕ) (q : ℤ) :
    ((n * 2 ^ (-q).toNat : ℕ) : ℚ) / ((d * 2 ^ q.toNat : ℕ) : ℚ) = (n / d : ℚ) / 2 ^ q := by
  push_cast
  rcases le_total 0 q with hq | hq
  · obtain ⟨k, rfl⟩ := Int.eq_ofNat_of_zero_le hq
    simp [div_div]
  · obtain ⟨k, hk⟩ := Int.eq_ofNat_of_zero_le (show 0 ≤ -q by omega)
    obtain rfl : q = -(k : ℤ) := by omega
    simp [mul_div_right_comm]

/-- The binary logarithm brackets a positive natural number, read in ℚ. -/
theorem log2_bracket {n : ℕ} (hn : n ≠ 0) :
    (2 : ℚ) ^ (Nat.log2 n : ℤ) ≤ n ∧ (n : ℚ) < 2 ^ ((Nat.log2 n : ℤ) + 1) := by
  constructor
  · exact_mod_cast Nat.log2_self_le hn
  · exact_mod_cast Nat.lt_log2_self (n := n)

/-- What `floorLog2` promises. -/
theorem floorLog2_bracket {n d : ℕ} (hn : n ≠ 0) (hd : d ≠ 0) :
    (2 : ℚ) ^ floorLog2 n d ≤ n / d ∧ (n / d : ℚ) < 2 ^ (floorLog2 n d + 1) := by
  obtain ⟨hn1, hn2⟩ := log2_bracket hn
  obtain ⟨hd1, hd2⟩ := log2_bracket hd
  have hdpos : (0 : ℚ) < d := by exact_mod_cast Nat.pos_of_ne_zero hd
  set k : ℤ := (Nat.log2 n : ℤ) - (Nat.log2 d : ℤ) with hk
  have htest : d * 2 ^ k.toNat ≤ n * 2 ^ (-k).toNat ↔ (2 : ℚ) ^ k ≤ n / d := by
    have hden : (0 : ℚ) < ((d * 2 ^ k.toNat : ℕ) : ℚ) := by
      exact_mod_cast Nat.mul_pos (Nat.pos_of_ne_zero hd) (Nat.two_pow_pos _)
    rw [← one_le_div₀ (show (0 : ℚ) < 2 ^ k by positivity), ← scaled_ratio, one_le_div₀ hden]
    exact Nat.cast_le.symm
  have hlow : (2 : ℚ) ^ (k - 1) ≤ n / d := by
    rw [le_div_iff₀ hdpos]
    calc (2 : ℚ) ^ (k - 1) * d ≤ 2 ^ (k - 1) * 2 ^ ((Nat.log2 d : ℤ) + 1) := by gcongr
      _ = 2 ^ (Nat.log2 n : ℤ) := by rw [← zpow_add₀ two_ne_zero]; congr 1; omega
      _ ≤ n := hn1
  have hhigh : (n / d : ℚ) < 2 ^ (k + 1) := by
    rw [div_lt_iff₀ hdpos]
    calc (n : ℚ) < 2 ^ ((Nat.log2 n : ℤ) + 1) := hn2
      _ = 2 ^ (k + 1) * 2 ^ (Nat.log2 d : ℤ) := by rw [← zpow_add₀ two_ne_zero]; congr 1; omega
      _ ≤ 2 ^ (k + 1) * d := by gcongr
  simp only [floorLog2, ← hk, htest]
  split
  · exact ⟨‹_›, hhigh⟩
  · rw [sub_add_cancel]
    exact ⟨hlow, lt_of_not_ge ‹_›⟩

/-- What `roundHalfEven` promises: a nearest integer, the even one at a tie. -/
theorem roundHalfEven_nearest (N : ℕ) {D : ℕ} (hD : 0 < D) :
    |(N / D : ℚ) - roundHalfEven N D| ≤ 1 / 2
      ∧ (|(N / D : ℚ) - roundHalfEven N D| = 1 / 2 → Even (roundHalfEven N D)) := by
  have hDq : (0 : ℚ) < D := by exact_mod_cast hD
  have hr : N % D < D := Nat.mod_lt N hD
  have hsplit : (N : ℚ) / D = (N / D : ℕ) + (N % D : ℕ) / D := by
    rw [div_eq_iff hDq.ne', add_mul, div_mul_cancel₀ _ hDq.ne']
    exact_mod_cast (Nat.div_add_mod' N D).symm
  have hfrac : 0 ≤ ((N % D : ℕ) : ℚ) / D := by positivity
  have hfrac1 : ((N % D : ℕ) : ℚ) / D < 1 := by
    rw [div_lt_one hDq]
    exact_mod_cast hr
  have hhalf : ((N % D : ℕ) : ℚ) / D ≤ 1 / 2 ↔ 2 * (N % D) ≤ D := by
    rw [div_le_div_iff₀ hDq two_pos, one_mul, mul_comm]
    exact_mod_cast Iff.rfl
  have htie : ((N % D : ℕ) : ℚ) / D = 1 / 2 ↔ 2 * (N % D) = D := by
    rw [div_eq_div_iff hDq.ne' two_ne_zero, one_mul, mul_comm]
    exact_mod_cast Iff.rfl
  simp only [roundHalfEven]
  rw [hsplit]
  split
  case isTrue hup =>
    simp only [Bool.or_eq_true, decide_eq_true_eq, Bool.and_eq_true, beq_iff_eq] at hup
    have hge : 1 / 2 ≤ ((N % D : ℕ) : ℚ) / D := by
      rcases hup with hgt | ⟨heq, _⟩
      · exact le_of_not_ge fun hle => by have := hhalf.mp hle; omega
      · exact (htie.mpr heq).ge
    have hdist : |((N / D : ℕ) + (N % D : ℕ) / D : ℚ) - ((N / D + 1 : ℕ) : ℚ)| = 1 - (N % D : ℕ) / D := by
      rw [abs_of_neg (by push_cast; linarith)]
      push_cast
      ring
    rw [hdist]
    refine ⟨by linarith, fun h => ?_⟩
    have heq := htie.mp (by linarith)
    rw [Nat.even_iff]
    omega
  case isFalse hdown =>
    simp only [Bool.or_eq_true, decide_eq_true_eq, Bool.and_eq_true, beq_iff_eq, not_or, not_and] at hdown
    obtain ⟨hle, hodd⟩ := hdown
    rw [add_sub_cancel_left, abs_of_nonneg hfrac]
    refine ⟨hhalf.mpr (by omega), fun h => ?_⟩
    have := hodd (htie.mp h)
    rw [Nat.even_iff]
    omega

/-! ### The grid point that `f32` chooses -/

/-- The magnitude `r * 2^q` is rounded to `m * 2^q` on the grid of spacing `2^q` that binary32 has there (R10). -/
structure RoundsOnGrid (r : ℚ) (q : ℤ) (m : ℕ) : Prop where
  nonneg : 0 ≤ r
  minExp : -149 ≤ q
  /-- The grid is no finer than binary32's: below a full significand only subnormals lie. -/
  low : q = -149 ∨ 2 ^ 23 ≤ r
  high : r < 2 ^ 24
  half : |r - m| ≤ 1 / 2
  tie : |r - m| = 1 / 2 → Even m

theorem RoundsOnGrid.le_top {r : ℚ} {q : ℤ} {m : ℕ} (h : RoundsOnGrid r q m) : m ≤ 2 ^ 24 := by
  have hlt : (m : ℚ) < (2 ^ 24 + 1 : ℕ) := by
    have := (abs_le.mp h.half).1
    have := h.high
    push_cast
    linarith
  exact Nat.lt_succ_iff.mp (by exact_mod_cast hlt)

theorem RoundsOnGrid.normal {r : ℚ} {q : ℤ} {m : ℕ} (h : RoundsOnGrid r q m) : q = -149 ∨ 2 ^ 23 ≤ m := by
  refine h.low.imp_right fun hlow => ?_
  have hlt : ((2 ^ 23 : ℕ) : ℚ) < (m + 1 : ℕ) := by
    have := (abs_le.mp h.half).2
    push_cast
    linarith
  exact Nat.lt_succ_iff.mp (by exact_mod_cast hlt)

/-- `f32`'s exponent and rounded significand round the magnitude on the right grid. -/
theorem f32_parts_round {n d : ℕ} (hn : n ≠ 0) (hd : 0 < d) {q : ℤ} (hq : q = max (floorLog2 n d) (-126) - 23) :
    RoundsOnGrid ((n / d : ℚ) / 2 ^ q) q (roundHalfEven (n * 2 ^ (-q).toNat) (d * 2 ^ q.toNat)) := by
  obtain ⟨hlow, hhigh⟩ := floorLog2_bracket hn hd.ne'
  obtain ⟨hhalf, htie⟩ :=
    roundHalfEven_nearest (n * 2 ^ (-q).toNat) (Nat.mul_pos hd (Nat.two_pow_pos q.toNat))
  rw [scaled_ratio] at hhalf htie
  have hpow : (0 : ℚ) < 2 ^ q := by positivity
  refine { nonneg := by positivity, minExp := by omega, low := ?_, high := ?_, half := hhalf, tie := htie }
  · rcases le_total (floorLog2 n d) (-126) with hk | hk
    · exact .inl (by omega)
    · refine .inr ((le_div_iff₀ hpow).mpr (le_of_eq_of_le ?_ hlow))
      rw [show floorLog2 n d = 23 + q by omega, zpow_add₀ two_ne_zero]
      norm_num
  · rw [div_lt_iff₀ hpow]
    calc (n / d : ℚ) < 2 ^ (floorLog2 n d + 1) := hhigh
      _ ≤ 2 ^ (24 + q) := zpow_le_zpow_right₀ one_le_two (by omega)
      _ = 2 ^ 24 * 2 ^ q := by rw [zpow_add₀ two_ne_zero]; norm_num

/-- A sign on a magnitude in ℚ. -/
def withSign (negative : Bool) (a : ℚ) : ℚ := if negative then -a else a

@[simp] theorem withSign_withSign (b : Bool) (a : ℚ) : withSign b (withSign b a) = a := by
  cases b <;> simp [withSign]

@[simp] theorem abs_withSign (b : Bool) (a : ℚ) : |withSign b a| = |a| := by
  cases b <;> simp [withSign]

theorem withSign_of_ne {b c : Bool} (h : b ≠ c) (a : ℚ) : withSign b (withSign c a) = -a := by
  obtain rfl := Bool.eq_not.mpr h
  cases c <;> simp [withSign]

theorem withSign_sub (b : Bool) (a c : ℚ) : withSign b (a - c) = withSign b a - withSign b c := by
  cases b <;> simp [withSign]
  ring

theorem cast_signed_mul (b : Bool) (m : ℕ) (a : ℚ) : (signed b m : ℚ) * a = withSign b (m * a) := by
  cases b <;> simp [signed, withSign]

/-- A fraction's value is its numerator's sign on its magnitude. -/
theorem toRat_eq_withSign (x : Frac) : x.toRat = withSign (x.num < 0) (x.num.natAbs / x.den) := by
  unfold Frac.toRat withSign
  rcases lt_or_ge x.num 0 with h | h
  · rw [if_pos (by simpa using h), ← neg_div, Nat.cast_natAbs, abs_of_neg h]
    simp
  · rw [if_neg (by simpa using h), Nat.cast_natAbs, abs_of_nonneg h]

/-- The overflow test of `f32`, which scales only by non-negative powers, speaks of the rounded magnitude. -/
theorem overflow_test_iff {m : ℕ} (hm : m ≤ 2 ^ 24) {q : ℤ} :
    (2 ^ 128 ≤ m * 2 ^ q.toNat ∧ 0 ≤ q) ↔ (2 : ℚ) ^ 128 ≤ m * 2 ^ q := by
  rcases le_or_gt 0 q with hpos | hneg
  · obtain ⟨k, rfl⟩ := Int.eq_ofNat_of_zero_le hpos
    simp only [Int.toNat_natCast, hpos, and_true, zpow_natCast]
    exact_mod_cast Iff.rfl
  · have hlt : (m : ℚ) * 2 ^ q < 2 ^ 128 := by
      have hm24 : (m : ℚ) ≤ 2 ^ 24 := by exact_mod_cast hm
      have hq1 : (2 : ℚ) ^ q < 1 := zpow_lt_one_of_neg₀ one_lt_two hneg
      calc (m : ℚ) * 2 ^ q ≤ 2 ^ 24 * 1 := by gcongr
        _ < 2 ^ 128 := by norm_num
    exact iff_of_false (fun h => absurd h.2 (not_le.mpr hneg)) (not_le.mpr hlt)

/-- R10: `f32` rounds the magnitude on binary32's grid and puts the sign back; from 2^128 on the
result is an infinity (log entry 11). -/
theorem f32_rounds (x : Frac) (hx : 0 < x.den) :
    ∃ (r : ℚ) (q : ℤ) (m : ℕ), RoundsOnGrid r q m ∧ x.toRat = withSign (x.num < 0) (r * 2 ^ q)
      ∧ if (2 : ℚ) ^ 128 ≤ m * 2 ^ q then f32 x = Ext.inf (x.num < 0)
        else ∃ y, f32 x = .fin y ∧ 0 < y.den ∧ y.toRat = withSign (x.num < 0) (m * 2 ^ q) := by
  by_cases hn : x.num.natAbs = 0
  · have hnum : x.num = 0 := Int.natAbs_eq_zero.mp hn
    refine ⟨0, -149, 0, ⟨le_rfl, le_rfl, .inl rfl, by norm_num, by norm_num, by simp⟩, ?_, ?_⟩
    · simp [Frac.toRat, hnum, withSign]
    · rw [if_neg (by norm_num)]
      exact ⟨Frac.ofInt 0, by simp [f32, hn], by simp, by simp [hnum, withSign]⟩
  · obtain ⟨q, hq⟩ : ∃ q : ℤ, q = max (floorLog2 x.num.natAbs x.den) (-126) - 23 := ⟨_, rfl⟩
    obtain ⟨m, hm⟩ : ∃ m, m = roundHalfEven (x.num.natAbs * 2 ^ (-q).toNat) (x.den * 2 ^ q.toNat) := ⟨_, rfl⟩
    have hround := f32_parts_round hn hx hq
    rw [← hm] at hround
    have hf32 : f32 x = if 2 ^ 128 ≤ m * 2 ^ q.toNat ∧ 0 ≤ q then Ext.inf (x.num < 0)
        else .fin (Frac.dyadic (signed (x.num < 0) m) q) := by
      rw [hm, hq]
      simp only [f32, if_neg hn]
    refine ⟨_, q, m, hround, ?_, ?_⟩
    · rw [div_mul_cancel₀ _ (by positivity), ← toRat_eq_withSign]
    · rw [hf32]
      simp only [overflow_test_iff hround.le_top]
      split
      · rfl
      · exact ⟨_, rfl, by simp, by rw [Frac.toRat_dyadic, cast_signed_mul]⟩

/-! ### Overflow -/

/-- Half a step below the top of the binade is a tie, whose even neighbour is the top. -/
theorem RoundsOnGrid.reaches_top_iff {r : ℚ} {q : ℤ} {m : ℕ} (h : RoundsOnGrid r q m) :
    2 ^ 24 ≤ m ↔ 2 ^ 24 - 1 / 2 ≤ r := by
  have hhalf := abs_le.mp h.half
  constructor
  · intro hle
    have : (2 ^ 24 : ℚ) ≤ m := by exact_mod_cast hle
    linarith
  · intro hle
    by_contra hlt
    have hmq : (m : ℚ) + 1 ≤ 2 ^ 24 := by exact_mod_cast (show m + 1 ≤ 2 ^ 24 by omega)
    have hlast : 2 ^ 24 ≤ m + 1 := by
      have : (2 ^ 24 : ℚ) ≤ m + 1 := by linarith
      exact_mod_cast this
    have heven := h.tie (le_antisymm h.half (le_trans (by linarith) (le_abs_self _)))
    rw [Nat.even_iff] at heven
    omega

/-- The rounded magnitude reaches 2^128 exactly when the magnitude reaches half a step above the largest finite binary32
value. -/
theorem RoundsOnGrid.overflow_iff {r : ℚ} {q : ℤ} {m : ℕ} (h : RoundsOnGrid r q m) :
    (2 : ℚ) ^ 128 ≤ m * 2 ^ q ↔ (2 ^ 128 - 2 ^ 103 : ℚ) ≤ r * 2 ^ q := by
  have hpow : (0 : ℚ) < 2 ^ q := by positivity
  rcases lt_trichotomy q 104 with hq | rfl | hq
  · -- below the top binade neither side reaches its bound
    have hm : (m : ℚ) ≤ 2 ^ 24 := by exact_mod_cast h.le_top
    have hq103 : (2 : ℚ) ^ q ≤ 2 ^ (103 : ℤ) := zpow_le_zpow_right₀ one_le_two (by omega)
    have hleft : (m : ℚ) * 2 ^ q ≤ 2 ^ 24 * 2 ^ (103 : ℤ) := by gcongr
    have hright : r * 2 ^ q < 2 ^ 24 * 2 ^ (103 : ℤ) :=
      lt_of_lt_of_le (mul_lt_mul_of_pos_right h.high hpow) (by gcongr)
    norm_num at hleft hright ⊢
    exact iff_of_false (by linarith) (by linarith)
  · -- in the top binade the bound is the tie below the top
    have hscale : (2 : ℚ) ^ (104 : ℤ) = 2 ^ 104 := by norm_cast
    have hm : (2 : ℚ) ^ 128 ≤ m * 2 ^ (104 : ℤ) ↔ 2 ^ 24 ≤ m := by
      rw [hscale, show (2 : ℚ) ^ 128 = 2 ^ 24 * 2 ^ 104 by norm_num, mul_le_mul_iff_left₀ (by positivity)]
      exact_mod_cast Iff.rfl
    have hr : (2 ^ 128 - 2 ^ 103 : ℚ) ≤ r * 2 ^ (104 : ℤ) ↔ 2 ^ 24 - 1 / 2 ≤ r := by
      rw [hscale, show (2 ^ 128 - 2 ^ 103 : ℚ) = (2 ^ 24 - 1 / 2) * 2 ^ 104 by norm_num,
        mul_le_mul_iff_left₀ (by positivity)]
    rw [hm, hr]
    exact h.reaches_top_iff
  · -- above it both sides are past their bounds
    have hrlow : (2 : ℚ) ^ 23 ≤ r := h.low.resolve_left (by omega)
    have hmlow : (2 : ℚ) ^ 23 ≤ m := by exact_mod_cast h.normal.resolve_left (by omega)
    have hq105 : (2 : ℚ) ^ (105 : ℤ) ≤ 2 ^ q := zpow_le_zpow_right₀ one_le_two (by omega)
    have hleft : (2 : ℚ) ^ 23 * 2 ^ (105 : ℤ) ≤ m * 2 ^ q := by gcongr
    have hright : (2 : ℚ) ^ 23 * 2 ^ (105 : ℤ) ≤ r * 2 ^ q := by gcongr
    norm_num at hleft hright ⊢
    exact iff_of_true (by linarith) (by linarith)

/-! ### The nearest binary32 value -/

/-- A rational that an integer of at most 24 bits and a binary32 exponent give. -/
def Representable (w : ℚ) : Prop := ∃ i e : ℤ, |i| < 2 ^ 24 ∧ -149 ≤ e ∧ w = i * 2 ^ e

theorem representable_withSign {w : ℚ} (h : Representable w) (b : Bool) : Representable (withSign b w) := by
  obtain ⟨i, e, hi, he, rfl⟩ := h
  cases b
  · exact ⟨i, e, hi, he, rfl⟩
  · exact ⟨-i, e, by rwa [abs_neg], he, by simp [withSign]⟩

/-- On the grid of spacing `2^q` a representable value is a grid point, or it lies below the grid's full significand. -/
theorem Representable.on_grid {w : ℚ} (h : Representable w) (q : ℤ) :
    ∃ u : ℚ, w = u * 2 ^ q ∧ ((∃ j : ℤ, u = j) ∨ (q ≠ -149 ∧ |u| < 2 ^ 23)) := by
  obtain ⟨i, e, hi, he, rfl⟩ := h
  refine ⟨i * 2 ^ (e - q), by rw [mul_assoc, ← zpow_add₀ two_ne_zero, sub_add_cancel], ?_⟩
  rcases le_or_gt q e with hle | hlt
  · obtain ⟨k, hk⟩ := Int.eq_ofNat_of_zero_le (show 0 ≤ e - q by omega)
    exact .inl ⟨i * 2 ^ k, by rw [hk]; push_cast; simp⟩
  · refine .inr ⟨by omega, ?_⟩
    have hi' : |(i : ℚ)| < 2 ^ 24 := by exact_mod_cast hi
    have hpow : (2 : ℚ) ^ (e - q) ≤ 2 ^ (-1 : ℤ) := zpow_le_zpow_right₀ one_le_two (by omega)
    rw [abs_mul, abs_of_pos (show (0 : ℚ) < 2 ^ (e - q) by positivity)]
    calc |(i : ℚ)| * 2 ^ (e - q) ≤ |(i : ℚ)| * 2 ^ (-1 : ℤ) := by gcongr
      _ < 2 ^ 24 * 2 ^ (-1 : ℤ) := by gcongr
      _ = 2 ^ 23 := by norm_num

/-- Among integers the rounded significand is nearest, and at a tie with another one it is even. -/
theorem RoundsOnGrid.nearest_int {r : ℚ} {q : ℤ} {m : ℕ} (h : RoundsOnGrid r q m) (j : ℤ) :
    |r - m| ≤ |r - j| ∧ (|r - m| = |r - j| → (j : ℚ) ≠ m → Even m) := by
  by_cases hj : j = m
  · subst hj
    simp
  · have hsep : 1 ≤ |r - m| + |r - j| := by
      have hone : (1 : ℚ) ≤ |((j - m : ℤ) : ℚ)| := by exact_mod_cast Int.one_le_abs (sub_ne_zero.mpr hj)
      calc (1 : ℚ) ≤ |((j - m : ℤ) : ℚ)| := hone
        _ = |(r - m) - (r - j)| := by congr 1; push_cast; ring
        _ ≤ |r - m| + |r - j| := abs_sub _ _
    have hhalf := h.half
    exact ⟨by linarith, fun heq _ => h.tie (by linarith)⟩

/-- No representable value is nearer than the grid point, and at a tie with another one its significand is even. -/
theorem RoundsOnGrid.nearest {r : ℚ} {q : ℤ} {m : ℕ} (h : RoundsOnGrid r q m) {w : ℚ} (hw : Representable w) :
    |r * 2 ^ q - m * 2 ^ q| ≤ |r * 2 ^ q - w|
      ∧ (|r * 2 ^ q - m * 2 ^ q| = |r * 2 ^ q - w| → w ≠ m * 2 ^ q → Even m) := by
  obtain ⟨u, rfl, hu⟩ := hw.on_grid q
  have hpow : (0 : ℚ) < 2 ^ q := by positivity
  have hne : u * 2 ^ q ≠ m * 2 ^ q ↔ u ≠ m := (mul_left_inj' hpow.ne').not
  simp only [← sub_mul, abs_mul, abs_of_pos hpow, mul_le_mul_iff_left₀ hpow, mul_left_inj' hpow.ne', hne]
  rcases hu with ⟨j, rfl⟩ | ⟨hq, hu⟩
  · exact h.nearest_int j
  · have hr : (2 : ℚ) ^ 23 ≤ r := h.low.resolve_left hq
    have hu' := (abs_lt.mp hu).2
    have hfull := (h.nearest_int (2 ^ 23)).1
    rw [Int.cast_pow, Int.cast_ofNat, abs_of_nonneg (show 0 ≤ r - 2 ^ 23 by linarith)] at hfull
    have hlt : |r - m| < |r - u| := by
      rw [abs_of_pos (show 0 < r - u by linarith)]
      linarith
    exact ⟨hlt.le, fun heq => absurd heq hlt.ne⟩

/-! ### Bit patterns -/

/-- The binary32 pattern of a sign, a biased exponent and a fraction (R168). -/
def pattern32 (negative : Bool) (e f : ℕ) : BitVec 32 := BitVec.ofNat 32 (negative.toNat * 2 ^ 31 + e * 2 ^ 23 + f)

section
variable {e f : ℕ} (b : Bool)

theorem pattern32_toNat (he : e < 256) (hf : f < 2 ^ 23) :
    (pattern32 b e f).toNat = b.toNat * 2 ^ 31 + e * 2 ^ 23 + f := by
  have hb : b.toNat ≤ 1 := Bool.toNat_le b
  rw [pattern32, BitVec.toNat_ofNat, Nat.mod_eq_of_lt (by omega)]

theorem pattern32_sign (he : e < 256) (hf : f < 2 ^ 23) : (pattern32 b e f).getLsbD 31 = b := by
  rw [BitVec.getLsbD, pattern32_toNat b he hf, Nat.testBit_eq_decide_div_mod_eq]
  cases b <;> simp <;> omega

theorem pattern32_exponent (he : e < 256) (hf : f < 2 ^ 23) :
    ((pattern32 b e f).extractLsb' 23 8).toNat = e := by
  rw [BitVec.extractLsb'_toNat, pattern32_toNat b he hf, Nat.shiftRight_eq_div_pow]
  cases b <;> simp <;> omega

theorem pattern32_fraction (he : e < 256) (hf : f < 2 ^ 23) :
    ((pattern32 b e f).extractLsb' 0 23).toNat = f := by
  rw [BitVec.extractLsb'_toNat, pattern32_toNat b he hf, Nat.shiftRight_zero]
  omega

theorem pattern32_last (he : e < 256) (hf : f < 2 ^ 23) (heven : Even f) :
    (pattern32 b e f).getLsbD 0 = false := by
  rw [Nat.even_iff] at heven
  rw [BitVec.getLsbD, pattern32_toNat b he hf, Nat.testBit_eq_decide_div_mod_eq]
  simp
  omega

/-- The value of a subnormal pattern. -/
theorem dec32_pattern32_subnormal (hf : f < 2 ^ 23) :
    dec32 (pattern32 b 0 f) = .fin (Frac.dyadic (signed b f) (-149)) := by
  have he : 0 < 256 := by omega
  simp only [dec32, pattern32_sign b he hf, pattern32_exponent b he hf, pattern32_fraction b he hf, if_pos]

/-- The value of a normal pattern. -/
theorem dec32_pattern32_normal (he0 : e ≠ 0) (he : e < 255) (hf : f < 2 ^ 23) :
    dec32 (pattern32 b e f) = .fin (Frac.dyadic (signed b (2 ^ 23 + f)) ((e : ℤ) - 150)) := by
  have he' : e < 256 := by omega
  simp only [dec32, pattern32_sign b he' hf, pattern32_exponent b he' hf, pattern32_fraction b he' hf, if_neg he0,
    if_pos he]

end

/-- Every grid point below 2^128 has a binary32 pattern, whose last bit is 0 when the significand is even: a subnormal, a
normal, or the first of the next binade. -/
theorem exists_pattern (b : Bool) {q : ℤ} {m : ℕ} (hq : -149 ≤ q) (htop : m ≤ 2 ^ 24)
    (hnormal : q = -149 ∨ 2 ^ 23 ≤ m) (hfin : (m : ℚ) * 2 ^ q < 2 ^ 128) :
    ∃ (bits : BitVec 32) (z : Frac), dec32 bits = .fin z ∧ z.toRat = withSign b (m * 2 ^ q)
      ∧ (Even m → bits.getLsbD 0 = false) := by
  have hexp : ∀ k : ℕ, 2 ^ k ≤ m → (k : ℤ) + q < 128 := by
    intro k hk
    have hk' : (2 : ℚ) ^ (k : ℤ) ≤ m := by exact_mod_cast hk
    have : (2 : ℚ) ^ ((k : ℤ) + q) < 2 ^ (128 : ℤ) := by
      rw [zpow_add₀ two_ne_zero]
      calc (2 : ℚ) ^ (k : ℤ) * 2 ^ q ≤ m * 2 ^ q := by gcongr
        _ < 2 ^ 128 := hfin
        _ = 2 ^ (128 : ℤ) := by norm_cast
    exact (zpow_lt_zpow_iff_right₀ one_lt_two).mp this
  rcases lt_or_ge m (2 ^ 23) with hsub | hge
  · obtain rfl : q = -149 := hnormal.resolve_right (by omega)
    refine ⟨_, _, dec32_pattern32_subnormal b hsub, ?_, pattern32_last b (by omega) hsub⟩
    rw [Frac.toRat_dyadic, cast_signed_mul]
  · rcases htop.lt_or_eq with hlt | rfl
    · obtain ⟨e, he⟩ := Int.eq_ofNat_of_zero_le (show 0 ≤ q + 150 by omega)
      have hq128 := hexp 23 hge
      refine ⟨_, _, dec32_pattern32_normal b (e := e) (f := m - 2 ^ 23) (by omega) (by omega) (by omega), ?_,
        fun heven => pattern32_last b (by omega) (by omega) ?_⟩
      · rw [Frac.toRat_dyadic, cast_signed_mul, Nat.add_sub_cancel' hge, ← he, add_sub_cancel_right]
      · rw [Nat.even_iff] at heven ⊢
        omega
    · obtain ⟨e, he⟩ := Int.eq_ofNat_of_zero_le (show 0 ≤ q + 151 by omega)
      have hq128 := hexp 24 le_rfl
      refine ⟨_, _, dec32_pattern32_normal b (e := e) (f := 0) (by omega) (by omega) (by omega), ?_,
        fun _ => pattern32_last b (by omega) (by omega) (by decide)⟩
      rw [Frac.toRat_dyadic, cast_signed_mul, ← he, show q + 151 - 150 = 1 + q by ring, zpow_add₀ two_ne_zero]
      congr 1
      push_cast
      ring

theorem abs_signed (b : Bool) (n : ℕ) : |signed b n| = n := by
  cases b <;> simp [signed]

theorem inf_injective {b c : Bool} (h : Ext.inf b = Ext.inf c) : b = c := by
  revert h
  cases b <;> cases c <;> simp [Ext.inf]

theorem inf_ne_fin (b : Bool) (y : Frac) : Ext.inf b ≠ .fin y := by
  cases b <;> simp [Ext.inf]

/-- Every finite binary32 pattern has a representable value (R168). -/
theorem dec32_representable {bits : BitVec 32} {z : Frac} (h : dec32 bits = .fin z) : Representable z.toRat := by
  have hf : (bits.extractLsb' 0 23).toNat < 2 ^ 23 := BitVec.isLt _
  simp only [dec32] at h
  split at h
  · cases h
    exact ⟨_, -149, by rw [abs_signed]; omega, le_rfl, Frac.toRat_dyadic _ _⟩
  · split at h
    · cases h
      exact ⟨_, _, by rw [abs_signed]; omega, by omega, Frac.toRat_dyadic _ _⟩
    · split at h
      · exact absurd h (inf_ne_fin _ _)
      · cases h

/-- Every finite binary16 pattern is an 11-bit integer at an exponent of binary16 (R162). -/
theorem dec16_value {raw : BitVec 16} {x : Frac} (h : dec16 raw = .fin x) :
    ∃ i e : ℤ, |i| < 2 ^ 11 ∧ -24 ≤ e ∧ e ≤ 5 ∧ x.toRat = i * 2 ^ e := by
  have hf : (raw.extractLsb' 0 10).toNat < 2 ^ 10 := BitVec.isLt _
  simp only [dec16] at h
  split at h
  · cases h
    exact ⟨_, -24, by rw [abs_signed]; omega, le_rfl, by omega, Frac.toRat_dyadic _ _⟩
  · split at h
    · cases h
      exact ⟨_, _, by rw [abs_signed]; omega, by omega, by omega, Frac.toRat_dyadic _ _⟩
    · split at h
      · exact absurd h (inf_ne_fin _ _)
      · cases h

/-! ### The results of `f32` -/

/-- `f32` never answers NaN: it answers an infinity or a finite value. -/
theorem f32_ne_nan {x : Frac} (hx : 0 < x.den) : f32 x ≠ .nan := by
  obtain ⟨r, q, m, _, _, hres⟩ := f32_rounds x hx
  split at hres
  · rw [hres]
    unfold Ext.inf
    split <;> simp
  · obtain ⟨y, hy, _⟩ := hres
    simp [hy]

/-- `f32` answers the infinity of a sign exactly when `x` lies beyond the overflow bound on that side. -/
theorem f32_eq_inf_iff {x : Frac} (hx : 0 < x.den) (b : Bool) :
    f32 x = Ext.inf b ↔ (2 ^ 128 - 2 ^ 103 : ℚ) ≤ withSign b x.toRat := by
  obtain ⟨r, q, m, hround, hval, hres⟩ := f32_rounds x hx
  have hmag : 0 ≤ r * 2 ^ q := mul_nonneg hround.nonneg (by positivity)
  rw [hval]
  by_cases hb : b = decide (x.num < 0)
  · rw [hb, withSign_withSign]
    split at hres
    case isTrue hover => exact iff_of_true hres (hround.overflow_iff.mp hover)
    case isFalse hfin =>
      obtain ⟨y, hy, _⟩ := hres
      exact iff_of_false (fun h => inf_ne_fin _ y (h.symm.trans hy)) (fun h => hfin (hround.overflow_iff.mpr h))
  · have hneg : withSign b (withSign (decide (x.num < 0)) (r * 2 ^ q)) = -(r * 2 ^ q) := withSign_of_ne hb _
    have hbound : (0 : ℚ) < 2 ^ 128 - 2 ^ 103 := by norm_num
    rw [hneg]
    refine iff_of_false (fun h => ?_) (by linarith)
    split at hres
    · exact hb (inf_injective (h.symm.trans hres))
    · obtain ⟨y, hy, _⟩ := hres
      exact inf_ne_fin b y (h.symm.trans hy)

/-- A finite result is the value of a binary32 pattern that is nearest among the representable values, ties to even. -/
theorem f32_fin_nearest {x y : Frac} (hx : 0 < x.den) (h : f32 x = .fin y) :
    0 < y.den ∧ ∃ (bits : BitVec 32) (z : Frac), dec32 bits = .fin z ∧ z.toRat = y.toRat
      ∧ ∀ w, Representable w → |x.toRat - y.toRat| ≤ |x.toRat - w|
          ∧ (|x.toRat - y.toRat| = |x.toRat - w| → w ≠ y.toRat → bits.getLsbD 0 = false) := by
  obtain ⟨r, q, m, hround, hval, hres⟩ := f32_rounds x hx
  generalize decide (x.num < 0) = b at hval hres
  split at hres
  · exact absurd (hres.symm.trans h) (inf_ne_fin b y)
  case isFalse hfin =>
    obtain ⟨y', hy', hden, hyval⟩ := hres
    obtain rfl : y' = y := Ext.fin.inj (hy'.symm.trans h)
    obtain ⟨bits, z, hbits, hz, hlast⟩ :=
      exists_pattern b hround.minExp hround.le_top hround.normal (lt_of_not_ge hfin)
    refine ⟨hden, bits, z, hbits, hz.trans hyval.symm, fun w hw => ?_⟩
    have hdist : |withSign b (r * 2 ^ q) - w| = |r * 2 ^ q - withSign b w| := by
      rw [← abs_withSign b (r * 2 ^ q - withSign b w), withSign_sub, withSign_withSign]
    have hne : w ≠ withSign b (m * 2 ^ q) → withSign b w ≠ m * 2 ^ q :=
      fun hw' heq => hw' (by rw [← heq, withSign_withSign])
    obtain ⟨hle, heven⟩ := hround.nearest (representable_withSign hw b)
    rw [hval, hyval, ← withSign_sub, abs_withSign, hdist]
    exact ⟨hle, fun heq hw' => hlast (heven heq (hne hw'))⟩

/-- `f32` is exact on the representable values below the overflow bound. -/
theorem f32_exact {x : Frac} (hx : 0 < x.den) (hrep : Representable x.toRat)
    (hsmall : |x.toRat| < 2 ^ 128 - 2 ^ 103) : ∃ y, f32 x = .fin y ∧ 0 < y.den ∧ y.toRat = x.toRat := by
  have hfinite : ∀ b, f32 x ≠ Ext.inf b := fun b h => by
    have hbound := (f32_eq_inf_iff hx b).mp h
    have hle := le_abs_self (withSign b x.toRat)
    rw [abs_withSign] at hle
    linarith
  cases hres : f32 x with
  | fin y =>
    obtain ⟨hden, _, _, _, _, hnear⟩ := f32_fin_nearest hx hres
    have hzero := (hnear _ hrep).1
    rw [sub_self, abs_zero, abs_nonpos_iff, sub_eq_zero] at hzero
    exact ⟨y, rfl, hden, hzero.symm⟩
  | posInf => exact absurd hres (hfinite false)
  | negInf => exact absurd hres (hfinite true)
  | nan => exact absurd hres (f32_ne_nan hx)

/-- A finite binary16 value is representable, far below the overflow bound. -/
theorem dec16_representable {raw : BitVec 16} {x : Frac} (h : dec16 raw = .fin x) :
    Representable x.toRat ∧ |x.toRat| < 2 ^ 128 - 2 ^ 103 := by
  obtain ⟨i, e, hi, hemin, hemax, hx⟩ := dec16_value h
  refine ⟨⟨i, e, by omega, by omega, hx⟩, ?_⟩
  have hi' : |(i : ℚ)| < 2 ^ 11 := by exact_mod_cast hi
  have he : (2 : ℚ) ^ e ≤ 2 ^ (5 : ℤ) := zpow_le_zpow_right₀ one_le_two hemax
  rw [hx, abs_mul, abs_of_pos (show (0 : ℚ) < 2 ^ e by positivity)]
  calc |(i : ℚ)| * 2 ^ e ≤ 2 ^ 11 * 2 ^ (5 : ℤ) := by gcongr
    _ < 2 ^ 128 - 2 ^ 103 := by norm_num

/-! ### The statement -/

/-- The statement's name for the value of a fraction, and the one of the model's laws. -/
theorem rationalOf_eq_toRat (x : Frac) : rationalOf x = x.toRat := rfl

/-- Settles O39. -/
theorem binary16FitsBinary32 : Obligations.Binary16FitsBinary32 := by
  refine ⟨fun x hx => ⟨f32_eq_inf_iff hx false, ?_, f32_ne_nan hx, fun y hy => ?_⟩, fun raw x hraw => ?_⟩
  · exact (f32_eq_inf_iff hx true).trans le_neg
  · obtain ⟨hden, bits, z, hbits, hz, hnear⟩ := f32_fin_nearest hx hy
    exact ⟨bits, z, hden, hbits, hz, fun bits' z' hz' => hnear _ (dec32_representable hz')⟩
  · obtain ⟨hrep, hsmall⟩ := dec16_representable hraw
    have hx := dec16_den_pos hraw
    obtain ⟨y, hy, hden, hval⟩ := f32_exact hx hrep hsmall
    refine ⟨y, hy, hden, ?_⟩
    rw [Frac.toRat, Frac.toRat, div_eq_div_iff (by exact_mod_cast hden.ne') (by exact_mod_cast hx.ne')] at hval
    exact_mod_cast hval

end Sys2Proof.Proofs.Rounding
end

section
/-! PROOFS. What each agent's move does to the configuration, STATUS and PIX_OUT, and who moves in a step (R8, R90, R220):
the facts about steps that the invariant and the frame statements share. -/

namespace Sys2Proof.Proofs.Moves

open Sys2Proof Sys2Proof.Machine

/-! ### Who moves -/

/-- A step is a reset that the turns name, or a move of the engine or of the host that the turns name or leave to the
default. -/
theorem step_agent {s t : State} (h : step s = .next t) :
    (∃ ts, s.turns = .reset :: ts ∧ t = ({ s with turns := ts } : State).hardReset)
    ∨ ((s.turns = [] ∨ ∃ l, s.turns = .engine :: l) ∧ ∃ ts, engineTurn { s with turns := ts } = .next t)
    ∨ ((s.turns = [] ∨ ∃ l, s.turns = .host :: l) ∧ ∃ ts, hostTurn { s with turns := ts } = .next t) := by
  rcases step_cases s with ⟨k, ts, hturns, hstep⟩ | ⟨hturns, hstep⟩
  · rw [hstep] at h
    cases k with
    | reset => exact .inl ⟨ts, hturns, (Host.Outcome.next.inj h).symm⟩
    | engine => exact .inr (.inl ⟨.inr ⟨ts, hturns⟩, ts, h⟩)
    | host => exact .inr (.inr ⟨.inr ⟨ts, hturns⟩, ts, h⟩)
  · rw [hstep] at h
    cases hk : s.defaultTurn with
    | reset => exact absurd hk s.defaultTurn_ne_reset
    | engine => exact .inr (.inl ⟨.inl hturns, s.turns, by rwa [hk] at h⟩)
    | host => exact .inr (.inr ⟨.inl hturns, s.turns, by rwa [hk] at h⟩)

/-! ### What a move of the engine does -/

/-- Every outcome code is one of R200's. -/
theorem code_le_six (e : CmdErr) : e.code.toNat ≤ 6 := by cases e <;> decide

/-- A command that runs ends with a code of R200. -/
theorem exec_err_le {i : Instr} {s t : State} (h : exec i s = .next t) : t.err.toNat ≤ 6 := by
  cases i with
  | nop => obtain rfl := execNop_next h; exact code_le_six _
  | cfg => rcases execCfg_next h with ⟨_, rfl⟩ | ⟨_, rfl⟩ <;> exact code_le_six _
  | conv => rcases execConv_next h with ⟨_, rfl⟩ | ⟨_, _, rfl⟩ <;> exact code_le_six _
  | pix => rcases execPix_next h with ⟨_, rfl⟩ | ⟨_, rfl⟩ <;> exact code_le_six _

/-- The engine does nothing in an idle block, and otherwise completes the command in flight (R90, R200). -/
theorem engineTurn_status {s t : State} (h : engineTurn s = .next t) :
    (s.phase = .idle ∧ t = s)
    ∨ (s.phase.isBusy = true ∧ t.phase = .idle ∧ t.done = true ∧ t.err.toNat ≤ 6) := by
  rcases engineTurn_next h with hidle | ⟨c, hc, ⟨e, _, rfl⟩ | ⟨i, _, hexec⟩⟩
  · exact .inl hidle
  · exact .inr ⟨by simp [hc], rfl, rfl, code_le_six _⟩
  · obtain ⟨_, _, _, _, _, _, _, _, _, hphase, hdone, _⟩ := exec_frame hexec
    exact .inr ⟨by simp [hc], hphase, hdone, exec_err_le hexec⟩

/-- The engine changes the configuration only by running a CFG (R80). -/
theorem engineTurn_configuration {s t : State} (h : engineTurn s = .next t) :
    (t.cfgValid = s.cfgValid ∧ t.active = s.active ∧ t.dstWidth = s.dstWidth ∧ t.dstHeight = s.dstHeight)
    ∨ ∃ c, s.phase = .busy c ∧ decodeFields c.op c.rsv = .ok .cfg ∧ execCfg s = .next t := by
  rcases engineTurn_next h with ⟨_, rfl⟩ | ⟨c, hc, ⟨e, _, rfl⟩ | ⟨i, hdecode, hexec⟩⟩
  · exact .inl ⟨rfl, rfl, rfl, rfl⟩
  · exact .inl ⟨rfl, rfl, rfl, rfl⟩
  · by_cases hi : i = .cfg
    · subst hi
      exact .inr ⟨c, hc, hdecode, hexec⟩
    · obtain ⟨_, _, _, _, _, _, _, _, _, _, _, hconfig, _⟩ := exec_frame hexec
      exact .inl (hconfig hi)

/-- The engine changes PIX_OUT only by running a PIX whose snapshot is configured (R44, R175). -/
theorem engineTurn_pixOut {s t : State} (h : engineTurn s = .next t) :
    t.pixOut = s.pixOut
    ∨ ∃ c, s.phase = .busy c ∧ decodeFields c.op c.rsv = .ok .pix ∧ c.cfgValid = true := by
  rcases engineTurn_next h with ⟨_, rfl⟩ | ⟨c, hc, ⟨e, _, rfl⟩ | ⟨i, hdecode, hexec⟩⟩
  · exact .inl rfl
  · exact .inl rfl
  · by_cases hi : i = .pix
    · subst hi
      rcases execPix_next hexec with ⟨_, rfl⟩ | ⟨hvalid, rfl⟩
      · exact .inl (by simp)
      · rw [State.commandFor_busy hc] at hvalid
        exact .inr ⟨c, hc, hdecode, hvalid⟩
    · obtain ⟨_, _, _, _, _, _, _, _, _, _, _, _, hpixOut, _⟩ := exec_frame hexec
      exact .inl (hpixOut hi)

/-! ### The checks of CFG -/

/-- CFG succeeds exactly when every check of R111 passes. -/
theorem cfgCheck_eq_ok_iff (a : Args) :
    cfgCheck a = .ok ↔ a.srcType = 1 ∧ (a.dstFmt = 1 ∨ a.dstFmt = 2 ∨ a.dstFmt = 3)
      ∧ (a.precision = 1 ∨ a.precision = 2) ∧ a.srcWidth ≠ 0 ∧ a.srcHeight ≠ 0
      ∧ (a.precision = 2 → a.srcWidth.toNat % 2 = 0) := by
  have heven : a.srcWidth.getLsbD 0 = true ↔ ¬ a.srcWidth.toNat % 2 = 0 := by
    simp [BitVec.getLsbD, Nat.testBit_zero]
  simp only [cfgCheck, heven]
  split_ifs with htype hfmt hprec hgeom
  · exact iff_of_false nofun fun ⟨h, _⟩ => htype h
  · exact iff_of_false nofun fun ⟨_, h, _⟩ => by simp only [hfmt, or_self] at h
  · exact iff_of_false nofun fun ⟨_, _, h, _⟩ => by simp only [hprec, or_self] at h
  · refine iff_of_false nofun fun ⟨_, _, _, hwidth, hheight, hpair⟩ => ?_
    rcases hgeom with h | h | ⟨h, hodd⟩
    · exact hwidth h
    · exact hheight h
    · exact hodd (hpair h)
  · simp only [not_and_or, not_or, not_not] at htype hfmt hprec hgeom
    obtain ⟨hwidth, hheight, hpair⟩ := hgeom
    exact iff_of_true rfl ⟨htype, hfmt, hprec, hwidth, hheight, fun h => hpair.resolve_left (not_not_intro h)⟩

end Sys2Proof.Proofs.Moves
end

section
/-! PROOFS. The lifetime of the fields the block itself writes: DONE and ERR, the configuration, PIX_OUT (R22 to R25,
R33 to R35, R44, R80). -/

namespace Sys2Proof.Proofs.Lifetime

open Sys2Proof Sys2Proof.Machine Sys2Proof.Proofs.Moves

/-- What a step without a reset can do to BUSY, DONE and ERR: nothing, an issue, or a completion (R22, R23, R25). -/
theorem step_status {s t : State} (h : step s = .next t) (hreset : s.turns.head? ≠ some .reset) :
    (t.phase = s.phase ∧ t.done = s.done ∧ t.err = s.err)
    ∨ (s.phase = .idle ∧ t.phase.isBusy = true ∧ t.done = false ∧ t.err = 0)
    ∨ (s.phase.isBusy = true ∧ t.phase = .idle ∧ t.done = true ∧ t.err.toNat ≤ 6) := by
  rcases step_agent h with ⟨ts, hturns, _⟩ | ⟨_, ts, hengine⟩ | ⟨_, ts, hhost⟩
  · simp [hturns] at hreset
  · rcases engineTurn_status hengine with ⟨_, rfl⟩ | hcompletes
    · exact .inl ⟨rfl, rfl, rfl⟩
    · exact .inr (.inr hcompletes)
  · obtain ⟨_, _, _, _, _, _, _, _, hkept | hissued, _⟩ := hostTurn_frame hhost
    · exact .inl hkept
    · exact .inr (.inl hissued)

/-- Settles O44. -/
theorem doneAndErrLifetime : Obligations.DoneAndErrLifetime := by
  intro s t h hreset
  rcases step_status h hreset with
    ⟨hphase, hdone, herr⟩ | ⟨hidle, hbusy, hdone, herr⟩ | ⟨hbusy, hidle, hdone, herr⟩
  · simp +contextual [hphase, hdone, herr]
  · simp [hidle, hbusy, hdone, herr]
  · simp [hidle, hbusy, hdone, herr]

/-- Settles O56. -/
theorem configurationChangesOnlyByCfgOrReset : Obligations.ConfigurationChangesOnlyByCfgOrReset := by
  intro s t h hchange
  rcases step_agent h with ⟨ts, hturns, _⟩ | ⟨hturns, ts, hengine⟩ | ⟨_, ts, hhost⟩
  · exact .inl ⟨ts, hturns⟩
  · rcases engineTurn_configuration hengine with ⟨hvalid, hactive, hwidth, hheight⟩ | ⟨c, hc, hdecode, _⟩
    · simp [hvalid, hactive, hwidth, hheight] at hchange
    · exact .inr ⟨hturns, c, hc, hdecode⟩
  · obtain ⟨_, _, hvalid, hactive, hwidth, hheight, _⟩ := hostTurn_frame hhost
    simp [hvalid, hactive, hwidth, hheight] at hchange

/-- Settles O57: the rise is the engine's, by a CFG, and a CFG that fails leaves CFG_VALID 0. -/
theorem cfgValidRisesOnlyBySuccessfulCfg : Obligations.CfgValidRisesOnlyBySuccessfulCfg := by
  intro s t h hbefore hafter
  rcases step_agent h with ⟨ts, _, rfl⟩ | ⟨_, ts, hengine⟩ | ⟨_, ts, hhost⟩
  · simp at hafter
  · rcases engineTurn_configuration hengine with ⟨hvalid, _⟩ | ⟨c, hc, hdecode, hcfg⟩
    · simp [hvalid, hbefore] at hafter
    · rcases execCfg_next hcfg with ⟨hok, _⟩ | ⟨_, rfl⟩
      · rw [State.commandFor_busy hc, cfgCheck_eq_ok_iff] at hok
        exact ⟨c, hc, hdecode, hok⟩
      · simp at hafter
  · obtain ⟨_, _, hvalid, _⟩ := hostTurn_frame hhost
    simp [hvalid, hbefore] at hafter

/-- Settles O58. -/
theorem pixOutChangesOnlyByPixOrReset : Obligations.PixOutChangesOnlyByPixOrReset := by
  intro s t h hchange
  rcases step_agent h with ⟨ts, hturns, _⟩ | ⟨hturns, ts, hengine⟩ | ⟨_, ts, hhost⟩
  · exact .inl ⟨ts, hturns⟩
  · rcases engineTurn_pixOut hengine with hsame | hpix
    · exact absurd hsame hchange
    · exact .inr ⟨hturns, hpix⟩
  · obtain ⟨_, _, _, _, _, _, hsame, _⟩ := hostTurn_frame hhost
    exact absurd hsame hchange

end Sys2Proof.Proofs.Lifetime
end

section
/-! PROOFS. The invariant (R24, R33, R46, R49, R60, R76, R200): each operation keeps it, so each agent's move does, so a
step does. -/

namespace Sys2Proof.Proofs.Invariant

open Sys2Proof Sys2Proof.Machine Sys2Proof.Proofs.Moves

/-! ### A CONV writes inside the space -/

/-- The three bytes a packed pixel writes are in the destination set, under the stride duty (R70, R133). -/
theorem packedAddr_mem {c : Command} (hpacked : c.active.packed = true) (hstrides : c.stridesOk = true) {i x j : Nat}
    (hi : i < c.H) (hx : x < c.W) (hj : j < 4) : c.packedAddr i x + j ∈ c.dstBytes := by
  have hwidth : 4 * c.W ≤ c.bufs.dst0Stride.toNat := by simpa [Command.stridesOk, hpacked] using hstrides
  rw [Command.dstBytes, if_pos hpacked, Command.mem_packedBytes]
  exact ⟨c.H - 1 - i, 4 * x + j, by omega, by omega, by rw [Command.packedAddr]; omega⟩

/-- The three samples a planar pixel writes are in the destination set (R69, R140). -/
theorem planeAddr_mem {c : Command} (hplanar : c.active.packed = false) {i x : Nat} (hi : i < c.H) (hx : x < c.W) :
    planeAddr c.bufs.dst0Base c.bufs.dst0Stride i x ∈ c.dstBytes
    ∧ planeAddr c.bufs.dst1Base c.bufs.dstUvStride i x ∈ c.dstBytes
    ∧ planeAddr c.bufs.dst2Base c.bufs.dstUvStride i x ∈ c.dstBytes := by
  have sample : ∀ base stride : Word, planeAddr base stride i x ∈ c.planeBytes base stride := fun base stride =>
    (c.mem_planeBytes base stride _).2 ⟨i, x, hi, hx, rfl⟩
  simp [Command.dstBytes, hplanar, Command.planarBytes, Command.yBytes, Command.uBytes, Command.vBytes, sample]

/-- Painting packed pixels below a bound keeps every entry below it. -/
theorem paintPacked_below (p : Params) (c : Command) (m0 : Memory) (l : List (Nat × Nat)) {m : Memory} {n : Nat}
    (hm : m.below n = true) (h : ∀ px ∈ l, c.packedAddr px.1 px.2 + 3 ≤ n) :
    (c.paintPacked p m0 l m).below n = true := by
  induction l generalizing m with
  | nil => exact hm
  | cons px l ih =>
    exact ih (Memory.writeBytes_below hm _ _ (.inr (h px (by simp)))) fun q hq => h q (by simp [hq])

/-- Painting planar pixels below a bound keeps every entry below it. -/
theorem paintPlanar_below (p : Params) (c : Command) (m0 : Memory) (l : List (Nat × Nat)) {m : Memory} {n : Nat}
    (hm : m.below n = true)
    (h : ∀ px ∈ l, planeAddr c.bufs.dst0Base c.bufs.dst0Stride px.1 px.2 < n
      ∧ planeAddr c.bufs.dst1Base c.bufs.dstUvStride px.1 px.2 < n
      ∧ planeAddr c.bufs.dst2Base c.bufs.dstUvStride px.1 px.2 < n) :
    (c.paintPlanar p m0 l m).below n = true := by
  induction l generalizing m with
  | nil => exact hm
  | cons px l ih =>
    obtain ⟨hy, hu, hv⟩ := h px (by simp)
    exact ih (Memory.write_below (Memory.write_below (Memory.write_below hm hy _) hu _) hv _)
      fun q hq => h q (by simp [hq])

/-- A CONV whose host duties hold writes only addresses of the space (R60, R132). -/
theorem drive_below {p : Params} {devices : List Region} {c : Command} (hduties : c.hostDuties p devices = true)
    {m : Memory} (hm : m.below (2 ^ p.addrW) = true) : (c.drive p m).below (2 ^ p.addrW) = true := by
  obtain ⟨hstrides, _, hspace, _⟩ := (c.hostDuties_iff p devices).1 hduties
  unfold Command.drive
  split
  case isTrue hpacked =>
    have hfill : (c.zeroFill m).below (2 ^ p.addrW) = true := by
      refine Memory.writeBytes_below hm _ _ ?_
      simpa [Command.dstInSpace, hpacked, List.replicate_eq_nil_iff] using hspace
    refine paintPacked_below p c m c.pixels hfill fun ⟨i, x⟩ hpx => ?_
    obtain ⟨hi, hx⟩ := (c.mem_pixels i x).1 hpx
    exact Command.dst_lt_of_inSpace hspace (packedAddr_mem hpacked hstrides hi hx (j := 2) (by decide))
  case isFalse hplanar =>
    refine paintPlanar_below p c m c.pixels hm fun ⟨i, x⟩ hpx => ?_
    obtain ⟨hi, hx⟩ := (c.mem_pixels i x).1 hpx
    obtain ⟨hy, hu, hv⟩ := planeAddr_mem (Bool.eq_false_of_not_eq_true hplanar) hi hx
    exact ⟨Command.dst_lt_of_inSpace hspace hy, Command.dst_lt_of_inSpace hspace hu,
      Command.dst_lt_of_inSpace hspace hv⟩

/-! ### A successful CFG latches a legal configuration -/

/-- A CFG that passes its checks latches one of R116's 12 words. -/
theorem cfgActive_word_mem {a : Args} (hfmt : a.dstFmt = 1 ∨ a.dstFmt = 2 ∨ a.dstFmt = 3)
    (hprec : a.precision = 1 ∨ a.precision = 2) : (cfgActive a).word ∈ configuredWords := by
  rcases hfmt with hfmt | hfmt | hfmt <;> rcases hprec with hprec | hprec <;> rw [cfgActive, hfmt, hprec] <;>
    cases a.convertYuv <;> decide

/-- A CFG that passes its checks derives a non-empty frame (R112, R115): the half of an even width is not 0. -/
theorem cfgWidth_ne_zero {a : Args} (hwidth : a.srcWidth ≠ 0)
    (heven : a.precision = 2 → a.srcWidth.toNat % 2 = 0) : cfgWidth a ≠ 0 := by
  unfold cfgWidth
  split
  case isTrue hprec =>
    intro hzero
    have hhalf : a.srcWidth.toNat / 2 = 0 := congrArg BitVec.toNat hzero
    have hnonzero : a.srcWidth.toNat ≠ 0 := fun h => hwidth (BitVec.eq_of_toNat_eq h)
    have heven := heven hprec
    omega
  case isFalse => exact hwidth

theorem configOk_of_cfgCheck {a : Args} (h : cfgCheck a = .ok) :
    ConfigOk true (cfgActive a) (cfgWidth a) a.srcHeight := by
  obtain ⟨_, hfmt, hprec, hwidth, hheight, heven⟩ := (cfgCheck_eq_ok_iff a).1 h
  exact ⟨cfgActive_word_mem hfmt hprec, cfgWidth_ne_zero hwidth heven, hheight⟩

/-! ### Each operation keeps the invariant -/

/-- The model's own fields do not count, as long as no completion newly awaits the host (assumptions 6, 7, 22). -/
theorem inv_of_bookkeeping {s : State} (hs : s.Inv) {host : List HostAction} {turns : List Turn}
    {observed : List Observation} {awaited : Option Command} {missed : List Nat} {draws : Nat}
    (hawaited : ∀ c, awaited = some c → s.awaited = some c) :
    ({ s with
        host := host, turns := turns, observed := observed
        awaited := awaited, missed := missed, draws := draws } : State).Inv :=
  { hs with awaited := fun c hc => hs.awaited c (hawaited c hc) }

/-- Every completion gives a state that meets the invariant, when memory and the configuration do (R90, R200). -/
theorem inv_completeWith {s : State} (hparams : s.params.wf = true) (hcanonical : s.mem.wf = true)
    (hspace : s.mem.below (2 ^ s.params.addrW) = true)
    (hconfig : ConfigOk s.cfgValid s.active s.dstWidth s.dstHeight) (e : CmdErr) : (s.completeWith e).Inv where
  params := hparams
  memCanonical := hcanonical
  memInSpace := hspace
  config := hconfig
  err := code_le_six e
  busyStatus := nofun
  snapshot := nofun
  duties := nofun
  awaited := fun _ _ => ⟨rfl, rfl⟩

/-- The issue of a command keeps the invariant when a CONV that converts satisfies its duties (R90, R207). -/
theorem inv_issue {s : State} (hs : s.Inv) {w : Word}
    (hduties : (s.snapshot w).converts = true → (s.snapshot w).hostDuties s.params s.devices = true) :
    (s.issue w).Inv where
  params := hs.params
  memCanonical := hs.memCanonical
  memInSpace := hs.memInSpace
  config := hs.config
  err := Nat.zero_le 6
  busyStatus := fun _ => ⟨rfl, rfl⟩
  snapshot := fun _ hc => ⟨w, (Phase.busy.inj hc).symm⟩
  duties := fun _ hc => Phase.busy.inj hc ▸ hduties
  awaited := nofun

/-- A register write in an idle block keeps the invariant (R49). -/
theorem inv_storeReg {s : State} (hs : s.Inv) (hidle : s.phase = .idle) (r : Reg) (v : Word) :
    (s.storeReg r v).Inv where
  params := by simpa using hs.params
  memCanonical := by simpa using hs.memCanonical
  memInSpace := by simpa using hs.memInSpace
  config := by simpa using hs.config
  err := by simpa using hs.err
  busyStatus := by simp [hidle]
  snapshot := by simp [hidle]
  duties := by simp [hidle]
  awaited := by simpa using hs.awaited

/-- A host write inside the space keeps the invariant (R60). -/
theorem inv_writeBytes {s : State} (hs : s.Inv) {addr : Nat} {bs : List Byte}
    (hspace : ∀ a, addr ≤ a → a < addr + bs.length → a < 2 ^ s.params.addrW) :
    ({ s with mem := s.mem.writeBytes addr bs } : State).Inv :=
  { hs with
    memCanonical := Memory.writeBytes_wf hs.memCanonical addr bs
    memInSpace := Memory.writeBytes_below hs.memInSpace addr bs <| by
      cases bs with
      | nil => exact .inl rfl
      | cons b bs =>
        have hlast := hspace (addr + bs.length) (by omega) (by simp)
        exact .inr (by rw [List.length_cons]; omega) }

/-- Every byte that a reset draws is in the space: the CONV in flight satisfies its duties (R132, R221). -/
theorem abandoned_lt {s : State} (hs : s.Inv) {a : Nat} (ha : a ∈ s.phase.abandoned) : a < 2 ^ s.params.addrW := by
  cases hphase : s.phase with
  | idle => simp [hphase, Phase.abandoned] at ha
  | busy c =>
    simp only [hphase, Phase.abandoned] at ha
    split at ha
    · rename_i hconverts
      obtain ⟨_, _, hspace, _⟩ := (c.hostDuties_iff _ _).1 (hs.duties c hphase hconverts)
      exact Command.dst_lt_of_inSpace hspace ha
    · cases ha

/-- A reset keeps the invariant (R220, R221). -/
theorem inv_hardReset {s : State} (hs : s.Inv) : s.hardReset.Inv where
  params := hs.params
  memCanonical := Memory.drawAt_wf hs.memCanonical _ _
  memInSpace := Memory.drawAt_below hs.memInSpace _ _ fun _ => abandoned_lt hs
  config := ⟨rfl, rfl, rfl⟩
  err := Nat.zero_le 6
  busyStatus := nofun
  snapshot := nofun
  duties := nofun
  awaited := nofun

/-! ### Each agent's move keeps the invariant -/

/-- Every command keeps the invariant (R90, R94). -/
theorem exec_keeps_inv {i : Instr} {s t : State} (hs : s.Inv) (h : exec i s = .next t) : t.Inv := by
  have hparams : ∀ w, (s.begun w).params.wf = true := fun w => by simpa using hs.params
  have hcanonical : ∀ w, (s.begun w).mem.wf = true := fun w => by simpa using hs.memCanonical
  have hspace : ∀ w, (s.begun w).mem.below (2 ^ (s.begun w).params.addrW) = true := fun w => by
    simpa using hs.memInSpace
  have hconfig : ∀ w, ConfigOk (s.begun w).cfgValid (s.begun w).active (s.begun w).dstWidth (s.begun w).dstHeight :=
    fun w => by simpa using hs.config
  have hcompletes : ∀ w e, ((s.begun w).completeWith e).Inv := fun w e =>
    inv_completeWith (hparams w) (hcanonical w) (hspace w) (hconfig w) e
  cases i with
  | nop => exact execNop_next h ▸ hcompletes _ _
  | cfg =>
    rcases execCfg_next h with ⟨hok, rfl⟩ | ⟨_, rfl⟩
    · refine inv_completeWith ?_ ?_ ?_ ?_ .ok
      exacts [hparams _, hcanonical _, hspace _, configOk_of_cfgCheck hok]
    · refine inv_completeWith ?_ ?_ ?_ ?_ _
      exacts [hparams _, hcanonical _, hspace _, ⟨rfl, rfl, rfl⟩]
  | conv =>
    rcases execConv_next h with ⟨_, rfl⟩ | ⟨_, hduties, rfl⟩
    · exact hcompletes _ _
    · rw [← State.begun_params s (encode .conv)] at hduties
      refine inv_completeWith ?_ ?_ ?_ ?_ .ok
      exacts [hparams _, Command.drive_wf _ _ (hcanonical _), drive_below hduties (hspace _), hconfig _]
  | pix =>
    rcases execPix_next h with ⟨_, rfl⟩ | ⟨_, rfl⟩
    · exact hcompletes _ _
    · refine inv_completeWith ?_ ?_ ?_ ?_ .ok
      exacts [hparams _, hcanonical _, hspace _, hconfig _]

/-- The engine's move keeps the invariant. -/
theorem engineTurn_keeps_inv {s t : State} (hs : s.Inv) (h : engineTurn s = .next t) : t.Inv := by
  rcases engineTurn_next h with ⟨_, rfl⟩ | ⟨c, _, ⟨e, _, rfl⟩ | ⟨i, _, hexec⟩⟩
  · exact hs
  · exact inv_completeWith hs.params hs.memCanonical hs.memInSpace hs.config .illegalCommand
  · exact exec_keeps_inv hs hexec

/-- A read of STATUS makes no completion await the host (R78). -/
theorem statusRead_awaited {s : State} {c : Command} (h : s.statusRead.awaited = some c) : s.awaited = some c := by
  unfold State.statusRead State.deliver at h
  split at h
  · split at h
    · exact h
    · cases h
  · exact h

/-- A read of STATUS keeps the invariant. -/
theorem inv_statusRead {s : State} (hs : s.Inv) : s.statusRead.Inv := by
  rw [State.statusRead_eq]
  exact inv_of_bookkeeping hs fun _ => statusRead_awaited

/-- Every action of the host keeps the invariant (R49, R60, R76, R96). -/
theorem hostAct_keeps_inv {act : HostAction} {s t : State} (hs : s.Inv) (h : hostAct act s = .next t) : t.Inv := by
  cases act with
  | regWrite a v =>
    rcases hostRegWrite_next h with rfl | ⟨hidle, r, _, _, rfl⟩ | ⟨_, _, hissue⟩
    · exact hs
    · exact inv_storeReg hs hidle r v
    · obtain ⟨rfl, hduties⟩ := issueCommand_next hissue
      exact inv_issue hs hduties
  | regRead a =>
    rw [hostRegRead_next h]
    split
    · exact inv_of_bookkeeping (inv_statusRead hs) fun _ hc => hc
    · exact inv_of_bookkeeping hs fun _ hc => hc
  | wait =>
    obtain ⟨l, rfl⟩ := hostWait_next h
    exact inv_of_bookkeeping (inv_statusRead hs) fun _ hc => hc
  | memWrite addr bs =>
    obtain ⟨rfl, hspace⟩ := hostMemWrite_next h
    exact inv_writeBytes hs fun a hlow hhigh => (hspace a hlow hhigh).1
  | memRead addr n =>
    rw [hostMemRead_next h]
    exact inv_of_bookkeeping hs fun _ hc => hc

/-- The host's move keeps the invariant. -/
theorem hostTurn_keeps_inv {s t : State} (hs : s.Inv) (h : hostTurn s = .next t) : t.Inv := by
  rcases hostTurn_next h with ⟨_, rfl⟩ | ⟨act, rest, _, hact⟩
  · exact hs
  · exact hostAct_keeps_inv (inv_of_bookkeeping hs fun _ hc => hc) hact

/-- Settles O54, by the agent that moves. -/
theorem stepKeepsInvariant : Obligations.StepKeepsInvariant := by
  intro s t hs h
  have hturns : ∀ ts, ({ s with turns := ts } : State).Inv := fun ts => inv_of_bookkeeping hs fun _ hc => hc
  rcases step_agent h with ⟨ts, _, rfl⟩ | ⟨_, ts, hengine⟩ | ⟨_, ts, hhost⟩
  · exact inv_hardReset (hturns ts)
  · exact engineTurn_keeps_inv (hturns ts) hengine
  · exact hostTurn_keeps_inv (hturns ts) hhost

end Sys2Proof.Proofs.Invariant
end

section
/-! PROOFS. Decoding and encoding are inverse over words and over byte lists (R20, R91 to R93). -/

namespace Sys2Proof.Proofs.Encoding

open Sys2Proof Sys2Proof.Machine

/-! ### Words -/

/-- OP and RSV are all of a command word (R91). -/
theorem word_eq_of_fields {w v : Word} (hop : opField w = opField v) (hrsv : rsvField w = rsvField v) : w = v := by
  apply BitVec.eq_of_getLsbD_eq
  intro i hi
  by_cases hlow : i < 4
  · have hbit := congrArg (BitVec.getLsbD · i) hop
    simpa only [opField, BitVec.getLsbD_extractLsb', hlow, decide_true, Bool.true_and, Nat.zero_add] using hbit
  · have hbit := congrArg (BitVec.getLsbD · (i - 4)) hrsv
    simpa only [rsvField, BitVec.getLsbD_extractLsb', show i - 4 < 28 by omega, decide_true, Bool.true_and,
      show 4 + (i - 4) = i by omega] using hbit

/-- The opcode map reads a command exactly from the fields of its word (R92, R93). -/
theorem decodeFields_eq_ok_iff (op : BitVec 4) (rsv : BitVec 28) (i : Instr) :
    decodeFields op rsv = .ok i ↔ op = opField (encode i) ∧ rsv = rsvField (encode i) := by
  constructor
  · intro h
    unfold decodeFields at h
    split_ifs at h with hrsv hnop hcfg hconv hpix
    all_goals
      cases h
      exact ⟨‹_›, not_not.1 hrsv⟩
  · rintro ⟨rfl, rfl⟩
    cases i <;> rfl

/-- Every word with a meaning is the encoding of that meaning (R92, R93). -/
theorem decodeWord_eq_ok_iff (w : Word) (i : Instr) : decodeWord w = .ok i ↔ w = encode i := by
  rw [decodeWord, decodeFields_eq_ok_iff]
  constructor
  · rintro ⟨hop, hrsv⟩
    exact word_eq_of_fields hop hrsv
  · rintro rfl
    exact ⟨rfl, rfl⟩

/-! ### Bytes -/

/-- The bytes of a word put together from four bytes are those four (R20). -/
theorem wordBytes_wordOfBytes (b0 b1 b2 b3 : Byte) : wordBytes (wordOfBytes b0 b1 b2 b3) = [b0, b1, b2, b3] := by
  simp only [wordBytes, List.cons.injEq, and_true]
  refine ⟨?_, ?_, ?_, ?_⟩
  all_goals
    apply BitVec.eq_of_getLsbD_eq
    intro i hi
    rw [BitVec.getLsbD_extractLsb', getLsbD_wordOfBytes]
    simp (disch := omega) only [hi, decide_true, Bool.true_and, if_true, if_pos, if_neg, Nat.zero_add,
      Nat.add_sub_cancel_left]

/-- Four bytes make up a word exactly when they are its bytes (R20). -/
theorem wordOfBytes_eq_iff (b0 b1 b2 b3 : Byte) (w : Word) :
    wordOfBytes b0 b1 b2 b3 = w ↔ [b0, b1, b2, b3] = wordBytes w := by
  constructor
  · rintro rfl
    exact (wordBytes_wordOfBytes b0 b1 b2 b3).symm
  · intro h
    rw [← wordOfBytes_wordBytes w]
    simp only [wordBytes, List.cons.injEq, and_true] at h
    obtain ⟨h0, h1, h2, h3⟩ := h
    rw [h0, h1, h2, h3]

/-- Four bytes and more decode to the command of their word, and leave the rest (R91). -/
theorem decodeBytes_cons_eq_ok_iff (b0 b1 b2 b3 : Byte) (bs rest : List Byte) (i : Instr) :
    decodeBytes (b0 :: b1 :: b2 :: b3 :: bs) = .ok (i, rest)
      ↔ decodeWord (wordOfBytes b0 b1 b2 b3) = .ok i ∧ bs = rest := by
  rw [decodeBytes]
  cases decodeWord (wordOfBytes b0 b1 b2 b3) <;> simp

/-- Fewer than four bytes are no command (R91). -/
theorem decodeBytes_short {bs : List Byte} (h : bs.length < 4) : decodeBytes bs = .error .truncated := by
  match bs, h with
  | [], _ | [_], _ | [_, _], _ | [_, _, _], _ => rfl

/-- Settles O2, by whether the list holds a whole command word. -/
theorem decodeAndEncodeAgree : Obligations.DecodeAndEncodeAgree := by
  intro bs i rest
  match bs with
  | b0 :: b1 :: b2 :: b3 :: tail =>
    rw [decodeBytes_cons_eq_ok_iff, decodeWord_eq_ok_iff, wordOfBytes_eq_iff]
    simp [encodeBytes, wordBytes, and_assoc]
  | [] | [_] | [_, _] | [_, _, _] =>
    rw [decodeBytes_short (by simp)]
    simp [encodeBytes, wordBytes]

end Sys2Proof.Proofs.Encoding
end

section
/-! PROOFS. The register window (R20, R21, R26, R43 to R45, R49, R207): which register an offset names, what each register
shows, and what a host access at the register port does. -/

namespace Sys2Proof.Proofs.Window

open Sys2Proof Sys2Proof.Machine

/-! ### Offsets and accesses -/

theorem offset_le (r : Reg) : r.offset ≤ 0x54 := by cases r <;> decide

/-- Above the last register no offset names one (R45). -/
theorem ofOffset_reserved {o : Nat} (h : 0x58 ≤ o) : Reg.ofOffset o = none := by
  cases hr : Reg.ofOffset o with
  | none => rfl
  | some r =>
    have hoffset := Reg.offset_of_ofOffset hr
    have hle := offset_le r
    omega

theorem access_wf_iff (a : RegAccess) : a.wf = true ↔ a.bytes = 4 ∧ a.offset % 4 = 0 ∧ a.offset < 0x100 := by
  simp [RegAccess.wf, and_assoc]

/-- A register access outside the interface is a fault (R207). -/
theorem hostRegWrite_bad {a : RegAccess} (h : a.wf = false) (v : Word) (s : State) :
    hostRegWrite a v s = .fault .badRegisterAccess := by
  simp [hostRegWrite, h]

theorem hostRegRead_bad {a : RegAccess} (h : a.wf = false) (s : State) :
    hostRegRead a s = .fault .badRegisterAccess := by
  simp [hostRegRead, h]

/-- While BUSY a write is dropped (R49). -/
theorem hostRegWrite_busy {a : RegAccess} (h : a.wf = true) (v : Word) {s : State} (hbusy : s.phase.isBusy = true) :
    hostRegWrite a v s = .next s := by
  simp [hostRegWrite, h, hbusy]

/-- A write at a reserved offset is dropped (R45). -/
theorem hostRegWrite_reserved {a : RegAccess} (h : a.wf = true) (v : Word) (s : State)
    (hreserved : Reg.ofOffset a.offset = none) : hostRegWrite a v s = .next s := by
  simp [hostRegWrite, h, hreserved]

/-- In an idle block a write to a register other than CMD stores (R49). -/
theorem hostRegWrite_idle {r : Reg} (hcmd : r ≠ .cmd) (v : Word) {s : State} (hidle : s.phase.isBusy = false) :
    hostRegWrite { offset := r.offset, bytes := 4 } v s = .next (s.storeReg r v) := by
  simp [hostRegWrite, Reg.access_wf, hidle]

theorem hostRegRead_wf {a : RegAccess} (h : a.wf = true) (s : State) :
    hostRegRead a s = .next ((if a.offset = Reg.status.offset then s.statusRead else s).observe
      (.reg a.offset (s.readReg a.offset))) := by
  simp [hostRegRead, h]

/-! ### What each register shows -/

/-- The word that a register shows the host (R21 to R44). -/
def shownWord (s : State) : Reg → Word
  | .cmd => 0
  | .status => s.statusWord
  | .srcType => s.args.srcType
  | .dstFmt => s.args.dstFmt
  | .convertYuv => s.args.convertYuvWord
  | .precision => s.args.precision
  | .srcWidth => s.args.srcWidth
  | .srcHeight => s.args.srcHeight
  | .active => s.active.word
  | .dstWidth => s.dstWidth
  | .dstHeight => s.dstHeight
  | .srcBase => s.bufs.srcBase
  | .srcStride => s.bufs.srcStride
  | .dst0Base => s.bufs.dst0Base
  | .dst0Stride => s.bufs.dst0Stride
  | .dst1Base => s.bufs.dst1Base
  | .dst2Base => s.bufs.dst2Base
  | .dstUvStride => s.bufs.dstUvStride
  | .pixB => halfWord s.pix.b
  | .pixG => halfWord s.pix.g
  | .pixR => halfWord s.pix.r
  | .pixOut => s.pixOutWord

/-- A read gives the word of the register that the offset names, and 0 at every other offset (R20, R45). -/
theorem readReg_eq (s : State) (o : Nat) : s.readReg o = (Reg.ofOffset o).elim 0 (shownWord s) := by
  unfold State.readReg
  cases Reg.ofOffset o with
  | none => rfl
  | some r => cases r <;> rfl

theorem readReg_offset (s : State) (r : Reg) : s.readReg r.offset = shownWord s r := by
  rw [readReg_eq, Reg.ofOffset_offset, Option.elim_some]

/-- A field at bit 0 of a word is its zero-extension. -/
theorem toNat_fieldAt_zero {n : Nat} (f : BitVec n) (h : n ≤ 32) : (fieldAt f 0).toNat = f.toNat := by
  have hlt : f.toNat < 2 ^ 32 := lt_of_lt_of_le f.isLt (Nat.pow_le_pow_right (by decide) h)
  rw [fieldAt, BitVec.shiftLeft_zero, BitVec.toNat_setWidth, Nat.mod_eq_of_lt hlt]

/-- A flag at bit 0 of a word, all others 0, is 1 or 0. -/
theorem bitAt_zero (b : Bool) : bitAt b 0 = if b then 1 else 0 := by cases b <;> rfl

/-- The bits of STATUS (R22 to R26). -/
theorem getLsbD_statusWord (s : State) (i : Nat) :
    s.statusWord.getLsbD i = (decide (i < 32) && (decide (i = 0) && s.phase.isBusy || decide (i = 1) && s.done
      || decide (i = 2) && s.cfgValid || decide (8 ≤ i) && s.err.getLsbD (i - 8))) := by
  simp only [State.statusWord, BitVec.getLsbD_or, getLsbD_bitAt, getLsbD_fieldAt, Bool.and_assoc, Bool.and_or_distrib_left]

/-! ### Writing a register -/

/-- A 16-bit register stores bits 15:0 (R43). -/
theorem halfWord_setWidth (v : Word) : halfWord (v.setWidth 16) = v &&& 0x0000FFFF := by
  apply BitVec.eq_of_toNat_eq
  rw [halfWord, toNat_fieldAt_zero _ (by decide), BitVec.toNat_setWidth, BitVec.toNat_and]
  exact (Nat.and_two_pow_sub_one_eq_mod v.toNat 16).symm

/-- CONVERT_YUV stores bit 0 (R29). -/
theorem bitAt_lowBit (v : Word) : bitAt (v.getLsbD 0) 0 = v &&& 0x00000001 := by
  apply BitVec.eq_of_toNat_eq
  have hand : (v &&& 0x00000001).toNat = v.toNat % 2 := Nat.and_two_pow_sub_one_eq_mod v.toNat 1
  have hbit : v.getLsbD 0 = decide (v.toNat % 2 = 1) := Nat.testBit_zero v.toNat
  rw [hand, hbit, bitAt_zero]
  rcases Nat.mod_two_eq_zero_or_one v.toNat with h | h <;> simp [h]

/-- A written register shows the stored bits of the value, every other bit 0 (R29, R43, R49). -/
theorem shownWord_storeReg_same (s : State) {r : Reg} (v : Word) (h : r.writable = true) :
    shownWord (s.storeReg r v) r = v &&& r.storedBits := by
  have hwhole : v = v &&& 0xFFFFFFFF := (BitVec.and_allOnes (x := v)).symm
  cases r with
  | cmd | status | active | dstWidth | dstHeight | pixOut => cases h
  | convertYuv => exact bitAt_lowBit v
  | pixB | pixG | pixR => exact halfWord_setWidth v
  | _ => exact hwhole

/-- A write to a register leaves what every other one shows (R49): no two registers share a field. -/
theorem shownWord_storeReg_other (s : State) {r r' : Reg} (v : Word) (h : r' ≠ r) :
    shownWord (s.storeReg r v) r' = shownWord s r' := by
  cases r <;> cases r' <;> first | rfl | exact absurd rfl h

/-! ### Reading a register -/

/-- A read of STATUS changes what the host has seen and what later reads of memory give, and nothing else (R49, R78). -/
theorem observe_statusRead (s : State) (o : Observation) :
    s.statusRead.observe o = { s with
      observed := o :: s.observed, awaited := s.statusRead.awaited, missed := s.statusRead.missed } := by
  conv_lhs => rw [State.statusRead_eq]
  rfl

/-- With DONE = 0 a read of STATUS delivers nothing (R78). -/
theorem statusRead_of_not_done {s : State} (h : s.done = false) : s.statusRead = s := by
  simp [State.statusRead, h]

theorem offset_ne_of_ne {r r' : Reg} (h : r ≠ r') : r.offset ≠ r'.offset := fun hoffset =>
  h (Option.some.inj (by rw [← Reg.ofOffset_offset r, hoffset, Reg.ofOffset_offset]))

/-! ### The statements -/

/-- Settles O40. -/
theorem registerAccessRules : Obligations.RegisterAccessRules := by
  refine ⟨fun s r v => ⟨?_, ?_, ?_, ?_⟩, fun s => ?_⟩
  · intro hreadOnly hcmd
    cases hbusy : s.phase.isBusy with
    | true => exact hostRegWrite_busy r.access_wf v hbusy
    | false => rw [hostRegWrite_idle hcmd v hbusy, State.storeReg_readOnly s r v hreadOnly]
  · exact hostRegWrite_busy r.access_wf v
  · refine ⟨_, hostRegRead_wf r.access_wf s, ?_⟩
    by_cases hstatus : r = .status
    · subst hstatus
      rw [if_pos rfl, observe_statusRead]
      refine ⟨rfl, fun hdone => ?_, fun o => rfl⟩
      rw [statusRead_of_not_done (hdone.resolve_left (not_not_intro rfl))]
      exact ⟨rfl, rfl⟩
    · rw [if_neg (offset_ne_of_ne hstatus)]
      exact ⟨rfl, fun _ => ⟨rfl, rfl⟩, fun o => rfl⟩
  · intro hwritable hidle
    have hcmd : r ≠ .cmd := by rintro rfl; cases hwritable
    refine ⟨s.storeReg r v, hostRegWrite_idle hcmd v hidle, ?_, fun r' hne => ?_⟩
    · rw [readReg_offset, shownWord_storeReg_same s v hwritable]
    · rw [readReg_offset, readReg_offset, shownWord_storeReg_other s v hne]
  · exact ⟨rfl, rfl, rfl, rfl, bitAt_zero _, rfl, rfl, rfl, rfl, rfl, rfl, rfl, rfl, rfl, rfl, rfl, rfl, rfl,
      toNat_fieldAt_zero _ (by decide), toNat_fieldAt_zero _ (by decide), toNat_fieldAt_zero _ (by decide), rfl,
      toNat_fieldAt_zero _ (by decide)⟩

/-- Settles O41. -/
theorem reservedOffsetsReadZero : Obligations.ReservedOffsetsReadZero := by
  intro s o v hlow hhigh haligned
  have hwf : ({ offset := o, bytes := 4 } : RegAccess).wf = true :=
    (access_wf_iff _).2 ⟨rfl, haligned, Nat.lt_of_le_of_lt hhigh (by decide)⟩
  have hnone : Reg.ofOffset o = none := ofOffset_reserved hlow
  have hstatus : o ≠ Reg.status.offset := by simp [Reg.offset]; omega
  refine ⟨hostRegWrite_reserved hwf v s hnone, ?_⟩
  rw [hostRegRead_wf hwf, if_neg hstatus, readReg_eq, hnone, Option.elim_none]

/-- Settles O42. -/
theorem badRegisterAccessFaults : Obligations.BadRegisterAccessFaults := by
  intro s a v hbad
  have hwf : a.wf = false := by
    rw [← Bool.not_eq_true, access_wf_iff]
    omega
  exact ⟨hostRegWrite_bad hwf v s, hostRegRead_bad hwf s⟩

/-- Settles O43. -/
theorem statusBits : Obligations.StatusBits := by
  intro s
  refine ⟨readReg_offset s .status, by rw [getLsbD_statusWord]; simp, by rw [getLsbD_statusWord]; simp,
    by rw [getLsbD_statusWord]; simp, ?_, fun i hi => ?_⟩
  · apply BitVec.eq_of_getLsbD_eq
    intro i hi
    rw [BitVec.getLsbD_extractLsb', getLsbD_statusWord]
    simp [hi, show 8 + i < 32 by omega, show 8 + i ≠ 1 by omega, show 8 + i ≠ 2 by omega]
  · rw [getLsbD_statusWord]
    have hflags : i ≠ 0 ∧ i ≠ 1 ∧ i ≠ 2 := by omega
    have herr : 8 ≤ i → s.err.getLsbD (i - 8) = false := fun h => BitVec.getLsbD_of_ge s.err _ (by omega)
    simpa [hflags] using fun _ => herr

end Sys2Proof.Proofs.Window
end

section
/-! PROOFS. What the drivers of CONV leave in memory (R65, R68, R69, R133, R140): each driver is a list of written cells, no
two of which give one address two values, so every address reads its own cell. -/

namespace Sys2Proof.Proofs.Drivers

open Sys2Proof Sys2Proof.Machine Sys2Proof.Proofs.Invariant

/-! ### Memory after a list of written cells -/

/-- The cells of a list written one after the other. -/
def writeCells (m : Memory) (cells : List Host.Cell) : Memory := cells.foldl (fun mem cell => mem.write cell.1 cell.2) m

theorem writeCells_append (m : Memory) (l l' : List Host.Cell) :
    writeCells m (l ++ l') = writeCells (writeCells m l) l' := List.foldl_append

theorem read_writeCells_of_not_mem {m : Memory} (hm : m.wf = true) {cells : List Host.Cell} {a : Nat}
    (h : ∀ v, (a, v) ∉ cells) : (writeCells m cells).read a = m.read a := by
  induction cells generalizing m with
  | nil => rfl
  | cons cell cells ih =>
    have hne : a ≠ cell.1 := fun heq => h cell.2 (by simp [heq])
    calc (writeCells (m.write cell.1 cell.2) cells).read a
        = (m.write cell.1 cell.2).read a := ih (Memory.write_wf hm _ _) fun v hv => h v (List.mem_cons_of_mem _ hv)
      _ = m.read a := Memory.read_write_other hm _ hne

/-- Where the list gives an address one value only, memory holds that value afterwards, whatever the order. -/
theorem read_writeCells_of_mem {m : Memory} (hm : m.wf = true) {cells : List Host.Cell} {a : Nat} {v : Byte}
    (hmem : (a, v) ∈ cells) (honly : ∀ w, (a, w) ∈ cells → w = v) : (writeCells m cells).read a = v := by
  induction cells generalizing m with
  | nil => cases hmem
  | cons cell cells ih =>
    have htail : ∀ w, (a, w) ∈ cells → w = v := fun w hw => honly w (List.mem_cons_of_mem _ hw)
    by_cases hlater : (a, v) ∈ cells
    · exact ih (Memory.write_wf hm _ _) hlater htail
    · obtain rfl : (a, v) = cell := (List.mem_cons.1 hmem).resolve_right hlater
      calc (writeCells (m.write a v) cells).read a
          = (m.write a v).read a :=
            read_writeCells_of_not_mem (Memory.write_wf hm _ _) fun w hw => hlater (htail w hw ▸ hw)
        _ = v := Memory.read_write_same hm a v

/-- An address of a grid with rows of `w` names its row and its column. -/
theorem row_column_unique {w i x i' x' : Nat} (hx : x < w) (hx' : x' < w) (h : i * w + x = i' * w + x') :
    i = i' ∧ x = x' := by
  have hw : 0 < w := Nat.zero_lt_of_lt hx
  obtain ⟨hi, hx⟩ : (i * w + x) / w = i ∧ (i * w + x) % w = x :=
    (Nat.div_mod_unique hw).2 ⟨by rw [Nat.add_comm, Nat.mul_comm], hx⟩
  obtain ⟨hi', hx'⟩ : (i * w + x) / w = i' ∧ (i * w + x) % w = x' :=
    (Nat.div_mod_unique hw).2 ⟨by rw [Nat.add_comm, Nat.mul_comm, h], hx'⟩
  exact ⟨hi.symm.trans hi', hx.symm.trans hx'⟩

/-! ### The packed driver -/

/-- The three cells that a packed pixel writes (R133). -/
def packedCells (p : Params) (c : Command) (m0 : Memory) (px : Nat × Nat) : List Host.Cell :=
  [(c.packedAddr px.1 px.2, (c.pixelAt p m0 px.1 px.2).o2), (c.packedAddr px.1 px.2 + 1, (c.pixelAt p m0 px.1 px.2).o1),
    (c.packedAddr px.1 px.2 + 2, (c.pixelAt p m0 px.1 px.2).o0)]

theorem paintPacked_eq_writeCells (p : Params) (c : Command) (m0 : Memory) (l : List (Nat × Nat)) (m : Memory) :
    c.paintPacked p m0 l m = writeCells m (l.flatMap (packedCells p c m0)) := by
  induction l generalizing m with
  | nil => rfl
  | cons px l ih => rw [Command.paintPacked_cons, ih, List.flatMap_cons, writeCells_append]; rfl

/-- The packed pixels write the first three of every four bytes of a memory row, up to 4W, and each gets the value that
R134 gives it. -/
theorem mem_packedCells_iff (p : Params) (c : Command) (m0 : Memory) (a : Nat) (v : Byte) :
    (a, v) ∈ c.pixels.flatMap (packedCells p c m0) ↔
      ∃ m j, m < c.H ∧ j < 4 * c.W ∧ j % 4 ≠ 3
        ∧ a = c.bufs.dst0Base.toNat + m * c.bufs.dst0Stride.toNat + j ∧ v = c.packedByte p m0 m j := by
  simp only [List.mem_flatMap, Prod.exists, Command.mem_pixels]
  constructor
  · rintro ⟨i, x, ⟨hi, hx⟩, hcell⟩
    have hrow : c.H - 1 - (c.H - 1 - i) = i := by omega
    have hcell : ∃ k < 3, a = c.packedAddr i x + k ∧ v = c.packedByte p m0 (c.H - 1 - i) (4 * x + k) := by
      simp only [packedCells, List.mem_cons, Prod.mk.injEq, List.not_mem_nil, or_false] at hcell
      rcases hcell with ⟨ha, hv⟩ | ⟨ha, hv⟩ | ⟨ha, hv⟩
      · exact ⟨0, by omega, ha, by simp [Command.packedByte, hv, hrow, hx]⟩
      · exact ⟨1, by omega, ha, by
          simp [Command.packedByte, hv, hrow, show 4 * x + 1 < 4 * c.W by omega, show (4 * x + 1) / 4 = x by omega,
            show (4 * x + 1) % 4 = 1 by omega]⟩
      · exact ⟨2, by omega, ha, by
          simp [Command.packedByte, hv, hrow, show 4 * x + 2 < 4 * c.W by omega, show (4 * x + 2) / 4 = x by omega,
            show (4 * x + 2) % 4 = 2 by omega]⟩
    obtain ⟨k, hk, ha, hv⟩ := hcell
    exact ⟨c.H - 1 - i, 4 * x + k, by omega, by omega, by omega, by rw [ha, Command.packedAddr]; omega, hv⟩
  · rintro ⟨m, j, hm, hj, hthree, rfl, rfl⟩
    refine ⟨c.H - 1 - m, j / 4, ⟨by omega, by omega⟩, ?_⟩
    have haddr : c.bufs.dst0Base.toNat + m * c.bufs.dst0Stride.toNat + j
        = c.packedAddr (c.H - 1 - m) (j / 4) + j % 4 := by
      rw [Command.packedAddr, show c.H - 1 - (c.H - 1 - m) = m by omega]
      omega
    rw [haddr]
    have hphase : j % 4 = 0 ∨ j % 4 = 1 ∨ j % 4 = 2 := by omega
    rcases hphase with h | h | h <;> simp [packedCells, Command.packedByte, hj, h]

/-- What the packed driver leaves at offset `j` of memory row `m` (R134). -/
theorem read_packedDriver {c : Command} (hwidth : 4 * c.W ≤ c.bufs.dst0Stride.toNat) (p : Params) {mem : Memory}
    (hmem : mem.wf = true) {m j : Nat} (hm : m < c.H) (hj : j < c.bufs.dst0Stride.toNat) :
    (c.packedDriver p mem).read (c.bufs.dst0Base.toNat + m * c.bufs.dst0Stride.toNat + j)
      = c.packedByte p mem m j := by
  have honly : ∀ v, (c.bufs.dst0Base.toNat + m * c.bufs.dst0Stride.toNat + j, v)
      ∈ c.pixels.flatMap (packedCells p c mem) → j < 4 * c.W ∧ j % 4 ≠ 3 ∧ v = c.packedByte p mem m j := by
    intro v hv
    obtain ⟨m', j', _, hj', hthree, haddr, rfl⟩ := (mem_packedCells_iff p c mem _ v).1 hv
    obtain ⟨rfl, rfl⟩ : m = m' ∧ j = j' := row_column_unique hj (Nat.lt_of_lt_of_le hj' hwidth) (by omega)
    exact ⟨hj', hthree, rfl⟩
  rw [Command.packedDriver, paintPacked_eq_writeCells]
  by_cases hpainted : j < 4 * c.W ∧ j % 4 ≠ 3
  · refine read_writeCells_of_mem (c.zeroFill_wf hmem) ?_ fun w hw => (honly w hw).2.2
    exact (mem_packedCells_iff p c mem _ _).2 ⟨m, j, hm, hpainted.1, hpainted.2, rfl, rfl⟩
  · have hin := (c.inPacked_iff _).2 ((c.mem_packedBytes _).2 ⟨m, j, hm, hj, rfl⟩)
    have hzero : c.packedByte p mem m j = 0 := by
      unfold Command.packedByte
      split
      · have hthree : j % 4 = 3 := by omega
        simp [hthree]
      · rfl
    rw [read_writeCells_of_not_mem (c.zeroFill_wf hmem) fun v hv => hpainted ⟨(honly v hv).1, (honly v hv).2.1⟩,
      c.read_zeroFill hmem, if_pos hin, hzero]

/-! ### The planar driver -/

/-- The three planes of the planar destination (R69). -/
inductive Plane where
  | y | u | v

/-- Each plane's base address (R38, R40, R41). -/
def planeBase (c : Command) : Plane → Word
  | .y => c.bufs.dst0Base
  | .u => c.bufs.dst1Base
  | .v => c.bufs.dst2Base

/-- Each plane's stride (R39, R42). -/
def planeStride (c : Command) : Plane → Word
  | .y => c.bufs.dst0Stride
  | .u => c.bufs.dstUvStride
  | .v => c.bufs.dstUvStride

/-- The kernel output that each plane holds (R140). -/
def sample (o : Pixel) : Plane → Byte
  | .y => o.o0
  | .u => o.o1
  | .v => o.o2

/-- The address of the sample of logical pixel (i, x) in a plane (R69). -/
def sampleAddr (c : Command) (k : Plane) (i x : Nat) : Nat := planeAddr (planeBase c k) (planeStride c k) i x

/-- The cell that a planar pixel writes in a plane (R140). -/
def sampleCell (p : Params) (c : Command) (m0 : Memory) (px : Nat × Nat) (k : Plane) : Host.Cell :=
  (sampleAddr c k px.1 px.2, sample (c.pixelAt p m0 px.1 px.2) k)

/-- The three cells that a planar pixel writes (R140). -/
def planarCells (p : Params) (c : Command) (m0 : Memory) (px : Nat × Nat) : List Host.Cell :=
  [.y, .u, .v].map (sampleCell p c m0 px)

theorem paintPlanar_eq_writeCells (p : Params) (c : Command) (m0 : Memory) (l : List (Nat × Nat)) (m : Memory) :
    c.paintPlanar p m0 l m = writeCells m (l.flatMap (planarCells p c m0)) := by
  induction l generalizing m with
  | nil => rfl
  | cons px l ih => rw [Command.paintPlanar_cons, ih, List.flatMap_cons, writeCells_append]; rfl

theorem mem_planarCells_iff (p : Params) (c : Command) (m0 : Memory) (a : Nat) (v : Byte) :
    (a, v) ∈ c.pixels.flatMap (planarCells p c m0) ↔
      ∃ k i x, i < c.H ∧ x < c.W ∧ a = sampleAddr c k i x ∧ v = sample (c.pixelAt p m0 i x) k := by
  have hall : ∀ k : Plane, k ∈ [Plane.y, .u, .v] := fun k => by cases k <;> simp
  simp only [List.mem_flatMap, Prod.exists, Command.mem_pixels, planarCells, List.mem_map, hall, true_and, sampleCell,
    Prod.mk.injEq]
  constructor
  · rintro ⟨i, x, ⟨hi, hx⟩, k, rfl, rfl⟩
    exact ⟨k, i, x, hi, hx, rfl, rfl⟩
  · rintro ⟨k, i, x, hi, hx, rfl, rfl⟩
    exact ⟨i, x, ⟨hi, hx⟩, k, rfl, rfl⟩

/-- The planar destination set is the samples of the three planes (R69). -/
theorem mem_dstBytes_planar_iff {c : Command} (hplanar : c.active.packed = false) (a : Nat) :
    a ∈ c.dstBytes ↔ ∃ k i x, i < c.H ∧ x < c.W ∧ a = sampleAddr c k i x := by
  simp only [Command.dstBytes, hplanar, Bool.false_eq_true, if_false, Command.planarBytes, Command.yBytes,
    Command.uBytes, Command.vBytes, List.mem_append, Command.mem_planeBytes]
  constructor
  · rintro ((⟨i, x, h⟩ | ⟨i, x, h⟩) | ⟨i, x, h⟩)
    exacts [⟨.y, i, x, h⟩, ⟨.u, i, x, h⟩, ⟨.v, i, x, h⟩]
  · rintro ⟨k, i, x, h⟩
    cases k with
    | y => exact .inl (.inl ⟨i, x, h⟩)
    | u => exact .inl (.inr ⟨i, x, h⟩)
    | v => exact .inr ⟨i, x, h⟩

/-- R70(c): samples of two planes never share an address. -/
theorem plane_eq_of_sampleAddr_eq {c : Command} (hplanar : c.active.packed = false) (hdisjoint : c.planesDisjoint = true)
    {k k' : Plane} {i x i' x' : Nat} (hi : i < c.H) (hx : x < c.W) (hi' : i' < c.H) (hx' : x' < c.W)
    (h : sampleAddr c k i x = sampleAddr c k' i' x') : k = k' := by
  simp only [Command.planesDisjoint, hplanar, Bool.false_or, Bool.and_eq_true, List.all_eq_true, Bool.not_eq_true',
    ← Bool.not_eq_true, Command.inPlane_iff] at hdisjoint
  obtain ⟨⟨huy, hvy⟩, hvu⟩ := hdisjoint
  have hmem : sampleAddr c k i x ∈ c.planeBytes (planeBase c k) (planeStride c k) :=
    (c.mem_planeBytes _ _ _).2 ⟨i, x, hi, hx, rfl⟩
  have hmem' : sampleAddr c k i x ∈ c.planeBytes (planeBase c k') (planeStride c k') :=
    (c.mem_planeBytes _ _ _).2 ⟨i', x', hi', hx', h⟩
  cases k <;> cases k'
  case y.y | u.u | v.v => rfl
  case u.y => exact absurd hmem' (huy _ hmem)
  case y.u => exact absurd hmem (huy _ hmem')
  case v.y => exact absurd hmem' (hvy _ hmem)
  case y.v => exact absurd hmem (hvy _ hmem')
  case v.u => exact absurd hmem' (hvu _ hmem)
  case u.v => exact absurd hmem (hvu _ hmem')

/-- What the planar driver leaves at the address of a sample (R140). -/
theorem read_planarDriver {p : Params} {devices : List Region} {c : Command} (hduties : c.hostDuties p devices = true)
    (hplanar : c.active.packed = false) {mem : Memory} (hmem : mem.wf = true) (k : Plane) {i x : Nat} (hi : i < c.H)
    (hx : x < c.W) : (c.planarDriver p mem).read (sampleAddr c k i x) = sample (c.pixelAt p mem i x) k := by
  obtain ⟨hstrides, _, _, _, hdisjoint, _⟩ := (c.hostDuties_iff p devices).1 hduties
  have hwidth : c.W ≤ (planeStride c k).toNat := by
    obtain ⟨hy, huv⟩ : c.W ≤ c.bufs.dst0Stride.toNat ∧ c.W ≤ c.bufs.dstUvStride.toNat := by
      simpa [Command.stridesOk, hplanar] using hstrides
    cases k with
    | y => exact hy
    | u | v => exact huv
  rw [Command.planarDriver, paintPlanar_eq_writeCells]
  refine read_writeCells_of_mem hmem ((mem_planarCells_iff p c mem _ _).2 ⟨k, i, x, hi, hx, rfl, rfl⟩) fun w hw => ?_
  obtain ⟨k', i', x', hi', hx', haddr, rfl⟩ := (mem_planarCells_iff p c mem _ w).1 hw
  obtain rfl := plane_eq_of_sampleAddr_eq hplanar hdisjoint hi hx hi' hx' haddr
  obtain ⟨rfl, rfl⟩ : i = i' ∧ x = x' := by
    refine row_column_unique (Nat.lt_of_lt_of_le hx hwidth) (Nat.lt_of_lt_of_le hx' hwidth) ?_
    simp only [sampleAddr, planeAddr] at haddr
    omega
  rfl

/-! ### Either driver -/

/-- A CONV writes its destination set only (R68, R69). -/
theorem read_drive_outside {p : Params} {devices : List Region} {c : Command} (hduties : c.hostDuties p devices = true)
    {mem : Memory} (hmem : mem.wf = true) {a : Nat} (ha : a ∉ c.dstBytes) : (c.drive p mem).read a = mem.read a := by
  obtain ⟨hstrides, _⟩ := (c.hostDuties_iff p devices).1 hduties
  unfold Command.drive
  split
  case isTrue hpacked =>
    have hout : ¬ c.inPacked a = true := by
      rw [Command.inPacked_iff]
      rwa [Command.dstBytes, if_pos hpacked] at ha
    rw [Command.packedDriver, c.read_paintPacked_outside p mem _ (c.zeroFill_wf hmem), c.read_zeroFill hmem, if_neg hout]
    rintro ⟨i, x⟩ hpx
    obtain ⟨hi, hx⟩ := (c.mem_pixels i x).1 hpx
    show a < c.packedAddr i x ∨ c.packedAddr i x + 3 ≤ a
    by_contra hcovers
    refine ha ?_
    rw [show a = c.packedAddr i x + (a - c.packedAddr i x) by omega]
    exact packedAddr_mem hpacked hstrides hi hx (by omega)
  case isFalse hplanar =>
    have hplanar := Bool.eq_false_of_not_eq_true hplanar
    rw [Command.planarDriver, paintPlanar_eq_writeCells, read_writeCells_of_not_mem hmem]
    intro v hv
    obtain ⟨k, i, x, hi, hx, haddr, _⟩ := (mem_planarCells_iff p c mem a v).1 hv
    exact ha ((mem_dstBytes_planar_iff hplanar a).2 ⟨k, i, x, hi, hx, haddr⟩)

/-- A CONV in flight that is configured and whose host duties hold completes with its driver's memory (R130). -/
theorem exec_conv_eq_converted {s : State} {c : Command} (hphase : s.phase = .busy c) (hvalid : c.cfgValid = true)
    (hduties : c.hostDuties s.params s.devices = true) : exec .conv s = .next (s.converted c) := by
  rw [show exec .conv s = execConv s from rfl, execConv_busy hphase, if_pos hvalid, Command.hostDuties_none hduties]

/-- Settles O14. -/
theorem packedConvFinalState : Obligations.PackedConvFinalState := by
  intro s c hmem hphase hvalid hduties hpacked
  obtain ⟨hstrides, _⟩ := (c.hostDuties_iff _ _).1 hduties
  have hwidth : 4 * c.W ≤ c.bufs.dst0Stride.toNat := by simpa [Command.stridesOk, hpacked] using hstrides
  have hdriver : (s.converted c).mem = c.packedDriver s.params s.mem := if_pos hpacked
  refine ⟨s.converted c, exec_conv_eq_converted hphase hvalid hduties, rfl, fun m j hm hj => ?_, fun a ha => ?_⟩
  · rw [hdriver, read_packedDriver hwidth s.params hmem hm hj]
  · exact read_drive_outside hduties hmem (by rwa [Command.dstBytes, if_pos hpacked])

/-- Settles O15. -/
theorem planarConvFinalState : Obligations.PlanarConvFinalState := by
  intro s c hmem hphase hvalid hduties hplanar
  have hdriver : (s.converted c).mem = c.planarDriver s.params s.mem := if_neg (by simp [hplanar])
  refine ⟨s.converted c, exec_conv_eq_converted hphase hvalid hduties, rfl, fun i x hi hx => ?_, fun a ha => ?_⟩
  · have hsample : ∀ k, (s.converted c).mem.read (sampleAddr c k i x) = sample (c.pixelAt s.params s.mem i x) k :=
      fun k => by rw [hdriver, read_planarDriver hduties hplanar hmem k hi hx]
    exact ⟨hsample .y, hsample .u, hsample .v⟩
  · refine read_drive_outside hduties hmem fun hdst => ?_
    obtain ⟨k, i, x, hi, hx, haddr⟩ := (mem_dstBytes_planar_iff hplanar a).1 hdst
    obtain ⟨hy, hu, hv⟩ := ha i x hi hx
    cases k with
    | y => exact hy haddr
    | u => exact hu haddr
    | v => exact hv haddr

/-! ### The source of a pixel -/

/-- Settles O16. -/
theorem pixelReadsItsOwnChannels : Obligations.PixelReadsItsOwnChannels := by
  intro p c m i x at'
  have haddr : c.pixAddr i x = at' := by rw [Command.pixAddr, Nat.shiftLeft_eq]; rfl
  constructor
  · intro hprec
    have hP : c.P = 1 := by rw [Command.P, hprec]; rfl
    simp [Command.pixelAt, Command.raw, Command.chanAddr, hP, hprec, haddr]
  · intro hprec
    have hP : c.P = 2 := by rw [Command.P, hprec]; rfl
    simp [Command.pixelAt, Command.raw, Command.chanAddr, hP, hprec, haddr, le16_eq_append, Nat.add_assoc]

end Sys2Proof.Proofs.Drivers
end

section
/-! PROOFS. Memory between the host and the engine (R60, R76 to R79, R225): what the engine owns, what a host access does,
which moves change a byte, and which moves make a byte specified to the host. -/

namespace Sys2Proof.Proofs.HostMemory

open Sys2Proof Sys2Proof.Machine Sys2Proof.Proofs.Moves Sys2Proof.Proofs.Window Sys2Proof.Proofs.Drivers

/-! ### What the engine owns -/

theorem converts_iff (c : Command) :
    c.converts = true ↔ c.cfgValid = true ∧ decodeFields c.op c.rsv = .ok .conv := by
  unfold Command.converts
  cases decodeFields c.op c.rsv with
  | error e => simp
  | ok i => cases i <;> simp

theorem ownsSrc_iff (ph : Phase) (a : Nat) :
    ph.ownsSrc a = true ↔ ∃ c, ph = .busy c ∧ c.converts = true ∧ a ∈ c.srcBytes := by
  cases ph <;> simp [Phase.ownsSrc, Command.inSrc_iff]

theorem ownsDst_iff (ph : Phase) (a : Nat) :
    ph.ownsDst a = true ↔ ∃ c, ph = .busy c ∧ c.converts = true ∧ a ∈ c.dstBytes := by
  cases ph <;> simp [Phase.ownsDst, Command.inDst_iff]

theorem mem_abandoned_iff (ph : Phase) (a : Nat) :
    a ∈ ph.abandoned ↔ ∃ c, ph = .busy c ∧ c.converts = true ∧ a ∈ c.dstBytes := by
  cases ph with
  | idle => simp [Phase.abandoned]
  | busy c => cases h : c.converts <;> simp [Phase.abandoned, h]

/-! ### The host's accesses to memory -/

/-- A host write to addresses of the space that are ordinary memory and not owned lands. -/
theorem hostMemWrite_eq_next {addr : Nat} {bs : List Byte} {s : State}
    (hspace : addr + bs.length ≤ 2 ^ s.params.addrW)
    (hfree : ∀ a, addr ≤ a → a < addr + bs.length →
      s.phase.ownsSrc a = false ∧ s.phase.ownsDst a = false ∧ ordinary s.devices a = true) :
    hostMemWrite addr bs s = .next { s with mem := s.mem.writeBytes addr bs } := by
  unfold hostMemWrite
  rw [if_neg, if_neg, if_neg]
  all_goals
    simp only [List.any_eq_true, mem_addrRange, not_exists, not_and]
    rintro a ⟨hlow, hhigh⟩
    obtain ⟨hsrc, hdst, hordinary⟩ := hfree a hlow hhigh
  · simp [hordinary]
  · simp [hsrc, hdst]
  · simpa using by omega

/-- Settles O46. -/
theorem hostWriteToOwnedByteFaults : Obligations.HostWriteToOwnedByteFaults := by
  intro s c addr bs a hphase hdecode hvalid howned hlow hhigh hspace
  have hconverts : c.converts = true := (converts_iff c).2 ⟨hvalid, hdecode⟩
  have howns : s.phase.ownsSrc a = true ∨ s.phase.ownsDst a = true := by
    rw [ownsSrc_iff, ownsDst_iff]
    exact howned.imp (fun h => ⟨c, hphase, hconverts, h⟩) fun h => ⟨c, hphase, hconverts, h⟩
  unfold hostMemWrite
  rw [if_neg, if_pos]
  · exact List.any_eq_true.2 ⟨a, (mem_addrRange _ _ _).2 ⟨hlow, hhigh⟩, by simpa using howns⟩
  · simp only [List.any_eq_true, mem_addrRange, decide_eq_true_eq, not_exists, not_and, not_le]
    rintro b ⟨_, hb⟩
    omega

/-- The bytes written are the bytes read back. -/
theorem readBytes_writeBytes_same {m : Memory} (hm : m.wf = true) (addr : Nat) (bs : List Byte) :
    (m.writeBytes addr bs).readBytes addr bs.length = bs := by
  refine List.ext_getElem (by simp [Memory.readBytes]) fun j _ hj => ?_
  simp [Memory.readBytes, Memory.read_writeBytes hm, hj]

/-- Settles O47. -/
theorem hostWriteLandsElsewhere : Obligations.HostWriteLandsElsewhere := by
  intro s addr bs hmem hspace hordinary hunowned
  have hfree : ∀ a, addr ≤ a → a < addr + bs.length →
      s.phase.ownsSrc a = false ∧ s.phase.ownsDst a = false ∧ ordinary s.devices a = true := by
    intro a hlow hhigh
    rw [← Bool.not_eq_true, ← Bool.not_eq_true, ownsSrc_iff, ownsDst_iff]
    exact ⟨fun ⟨c, hphase, hconverts, ha⟩ => (hunowned c hphase hconverts a hlow hhigh).1 ha,
      fun ⟨c, hphase, hconverts, ha⟩ => (hunowned c hphase hconverts a hlow hhigh).2 ha, hordinary a hlow hhigh⟩
  exact ⟨_, hostMemWrite_eq_next hspace hfree, rfl, readBytes_writeBytes_same hmem addr bs,
    fun a ha => Memory.read_writeBytes_outside hmem ha⟩

/-- A host read of addresses of the space that are ordinary memory records the bytes of `hostBytes`. -/
theorem hostMemRead_eq_next {addr n : Nat} {s : State} (hspace : addr + n ≤ 2 ^ s.params.addrW)
    (hordinary : ∀ a, addr ≤ a → a < addr + n → ordinary s.devices a = true) :
    hostMemRead addr n s = .next
      { s with
        observed := .mem addr (hostBytes s s.draws (addrRange addr n)).1 :: s.observed
        draws := (hostBytes s s.draws (addrRange addr n)).2 } := by
  unfold hostMemRead
  rw [if_neg, if_neg]
  · rfl
  all_goals
    simp only [List.any_eq_true, mem_addrRange, not_exists, not_and]
    rintro a ⟨hlow, hhigh⟩
  · simp [hordinary a hlow hhigh]
  · simpa using by omega

/-- How many of the first `j` addresses from `addr` are unspecified. -/
theorem length_filter_addrRange (s : State) (addr j : Nat) :
    ((addrRange addr j).filter s.unspecified).length
      = ((List.range j).filter fun i => s.unspecified (addr + i)).length := by
  rw [addrRange, List.filter_map, List.length_map]
  rfl

theorem take_addrRange {addr j n : Nat} (h : j ≤ n) : (addrRange addr n).take j = addrRange addr j := by
  rw [addrRange, ← List.map_take, List.take_range, Nat.min_eq_left h, addrRange]

/-- Settles O48. -/
theorem hostReadOfDestinationIsFree : Obligations.HostReadOfDestinationIsFree := by
  refine ⟨?_, State.unspecified_iff⟩
  intro s addr n hspace hordinary drawn
  have hlength : (addrRange addr n).length = n := by simp [addrRange]
  have hbytes : (hostBytes s s.draws (addrRange addr n)).1 = (List.range n).map fun j =>
      if s.unspecified (addr + j) then Config.freeByte (s.draws + drawn j) else s.mem.read (addr + j) := by
    refine List.ext_getElem? fun j => ?_
    by_cases hj : j < n
    · have haddr : (addrRange addr n)[j]'(hlength.symm ▸ hj) = addr + j := by simp [addrRange]
      rw [hostBytes_get s _ _ j (hlength.symm ▸ hj), haddr, take_addrRange hj.le, length_filter_addrRange]
      simp [hj, drawn]
    · rw [List.getElem?_eq_none (by rw [hostBytes_length, hlength]; omega), List.getElem?_eq_none (by simpa using hj)]
  rw [hostMemRead_eq_next hspace hordinary, hbytes, hostBytes_draws, length_filter_addrRange]

/-! ### Which moves change a byte -/

/-- The engine's move is the completion of a CONV that converts, or it leaves memory, and which bytes await the host,
alone. -/
theorem engineTurn_converts {s t : State} (h : engineTurn s = .next t) :
    (∃ c, s.phase = .busy c ∧ c.converts = true ∧ c.hostDuties s.params s.devices = true ∧ t = s.converted c)
    ∨ ((∀ c, s.phase = .busy c → c.converts = false) ∧ t.mem = s.mem ∧ t.awaited = s.awaited
        ∧ t.missed = s.missed) := by
  rcases engineTurn_next h with ⟨hidle, rfl⟩ | ⟨c, hc, ⟨e, hdecode, rfl⟩ | ⟨i, hdecode, hexec⟩⟩
  · exact .inr ⟨by simp [hidle], rfl, rfl, rfl⟩
  · exact .inr ⟨by simp [hc, Command.converts, hdecode], rfl, rfl, rfl⟩
  · cases i with
    | nop =>
      obtain rfl := execNop_next hexec
      exact .inr ⟨by simp [hc, Command.converts, hdecode], by simp [State.begun_busy hc]⟩
    | cfg =>
      rcases execCfg_next hexec with ⟨_, rfl⟩ | ⟨_, rfl⟩ <;>
        exact .inr ⟨by simp [hc, Command.converts, hdecode], by simp [State.begun_busy hc]⟩
    | conv =>
      rcases execConv_next hexec with ⟨hvalid, rfl⟩ | ⟨hvalid, hduties, rfl⟩ <;>
        rw [State.commandFor_busy hc] at hvalid
      · exact .inr ⟨by simp [hc, Command.converts, hvalid], by simp [State.begun_busy hc]⟩
      · rw [State.commandFor_busy hc] at hduties
        rw [State.commandFor_busy hc, State.begun_busy hc]
        exact .inl ⟨c, hc, (converts_iff c).2 ⟨hvalid, hdecode⟩, hduties, rfl⟩
    | pix =>
      rcases execPix_next hexec with ⟨_, rfl⟩ | ⟨_, rfl⟩ <;>
        exact .inr ⟨by simp [hc, Command.converts, hdecode], by simp [State.begun_busy hc]⟩

/-- Settles O59, by the agent that moves. -/
theorem memoryChangesOnlyWhereOwned : Obligations.MemoryChangesOnlyWhereOwned := by
  intro s t a hmem h hchange
  rcases step_agent h with ⟨ts, hturns, rfl⟩ | ⟨hturns, ts, hengine⟩ | ⟨hturns, ts, hhost⟩
  · have ha : a ∈ s.phase.abandoned := by
      by_contra hout
      exact hchange (Memory.read_drawAt_outside hmem _ hout)
    obtain ⟨c, hc, hconverts, ha⟩ := (mem_abandoned_iff _ a).1 ha
    obtain ⟨hvalid, hdecode⟩ := (converts_iff c).1 hconverts
    exact .inl ⟨c, hc, hdecode, hvalid, ha, .inr (.inr ⟨ts, hturns⟩)⟩
  · rcases engineTurn_converts hengine with ⟨c, hc, hconverts, hduties, rfl⟩ | ⟨_, hsame, _⟩
    · obtain ⟨hvalid, hdecode⟩ := (converts_iff c).1 hconverts
      have ha : a ∈ c.dstBytes := by
        by_contra hout
        exact hchange (read_drive_outside hduties hmem hout)
      exact .inl ⟨c, hc, hdecode, hvalid, ha, hturns.imp_right .inl⟩
    · exact absurd (by rw [hsame]) hchange
  · obtain ⟨_, _, _, _, _, _, _, _, _, hsame | ⟨addr, bs, rest, hact, hwrite⟩⟩ := hostTurn_frame hhost
    · exact absurd (by rw [hsame]) hchange
    · have hcovers : addr ≤ a ∧ a < addr + bs.length := by
        by_contra hout
        exact hchange (by rw [hwrite]; exact Memory.read_writeBytes_outside hmem (by omega))
      exact .inr ⟨hturns, addr, bs, rest, hact, hcovers⟩

/-! ### Which moves make a byte specified to the host -/

theorem unspecified_congr {s t : State} (hphase : t.phase = s.phase) (hawaited : t.awaited = s.awaited)
    (hmissed : t.missed = s.missed) (a : Nat) : t.unspecified a = s.unspecified a := by
  simp only [State.unspecified, State.awaitedBytes, hphase, hawaited, hmissed]

/-- The engine makes no byte specified: the bytes of a CONV that completes await the host instead (R78). The premise is
the invariant's: no completion awaits the host while a command is in flight. -/
theorem engineTurn_keeps_unspecified {s t : State} (hawaited : ∀ c, s.awaited = some c → s.phase = .idle)
    (h : engineTurn s = .next t) {a : Nat} (ha : s.unspecified a = true) : t.unspecified a = true := by
  rw [State.unspecified_iff] at ha ⊢
  rcases engineTurn_converts h with ⟨c, hc, _, _, rfl⟩ | ⟨hnone, _, hsameAwaited, hsameMissed⟩
  · rcases ha with ⟨c', hc', _, ha⟩ | ⟨c', hc', _⟩ | ha
    · obtain rfl : c' = c := Phase.busy.inj (hc'.symm.trans hc)
      exact .inr (.inl ⟨c', rfl, ha⟩)
    · cases hc.symm.trans (hawaited c' hc')
    · exact .inr (.inr ha)
  · rcases ha with ⟨c, hc, hconverts, _⟩ | ha
    · cases hconverts.symm.trans (hnone c hc)
    · rw [hsameAwaited, hsameMissed]
      exact .inr ha

/-- What a reset makes specified: the bytes of the CONV that it abandons (R221). -/
theorem ownsDst_of_hardReset_specifies {s : State} {a : Nat} (hbefore : s.unspecified a = true)
    (hafter : s.hardReset.unspecified a = false) : s.phase.ownsDst a = true := by
  have hlost : s.hardReset.unspecified a = (s.awaitedBytes.contains a || s.missed.contains a) := by
    simp only [State.unspecified, State.hardReset_missed, List.contains_append]
    rfl
  rw [hlost] at hafter
  rwa [State.unspecified, Bool.or_assoc, hafter, Bool.or_false] at hbefore

/-- What a read of STATUS makes specified: with DONE = 1, the bytes of the CONV that awaits it (R78). -/
theorem awaited_of_statusRead_specifies {s : State} {a : Nat} (hbefore : s.unspecified a = true)
    (hafter : s.statusRead.unspecified a = false) :
    s.done = true ∧ ∃ c, s.awaited = some c ∧ a ∈ c.dstBytes := by
  cases hdone : s.done with
  | false => simp [statusRead_of_not_done hdone, hbefore] at hafter
  | true =>
    rw [State.statusRead, if_pos hdone, State.deliver_unspecified, Bool.or_eq_false_iff] at hafter
    obtain ⟨howned, hmissed⟩ := hafter
    have hin : s.awaitedBytes.contains a = true := by
      by_contra hout
      rw [Bool.not_eq_true] at hout
      rw [hout, Bool.not_false, Bool.and_true] at hmissed
      simp only [State.unspecified, howned, hout, hmissed, Bool.or_self, Bool.false_eq_true] at hbefore
    cases hawaited : s.awaited with
    | none => simp [State.awaitedBytes, hawaited] at hin
    | some c => exact ⟨rfl, c, rfl, by simpa [State.awaitedBytes, hawaited] using hin⟩

/-- Of the host's actions, only a read of STATUS or a poll makes a byte specified. -/
theorem hostAct_specifies {act : HostAction} {s t : State} (h : hostAct act s = .next t) {a : Nat}
    (hbefore : s.unspecified a = true) (hafter : t.unspecified a = false) :
    s.statusRead.unspecified a = false ∧ (act = .wait ∨ act = .regRead { offset := 0x04, bytes := 4 }) := by
  cases act with
  | regWrite acc v =>
    rcases hostRegWrite_next h with rfl | ⟨_, r, _, _, rfl⟩ | ⟨hidle, _, hissue⟩
    · simp [hbefore] at hafter
    · rw [unspecified_congr (s := s) (by simp) (by simp) (by simp), hbefore] at hafter
      cases hafter
    · obtain ⟨rfl, _⟩ := issueCommand_next hissue
      rw [← s.loseDone_unspecified a, State.unspecified_iff] at hbefore
      rw [← Bool.not_eq_true, State.unspecified_iff] at hafter
      refine absurd (.inr (hbefore.resolve_left ?_)) hafter
      simp [hidle]
  | regRead acc =>
    have hwf : acc.wf = true := by
      by_contra hbad
      cases (hostRegRead_bad (Bool.eq_false_of_not_eq_true hbad) s).symm.trans h
    rw [hostRegRead_next h] at hafter
    split at hafter
    case isTrue hstatus =>
      obtain ⟨offset, bytes⟩ := acc
      obtain rfl : offset = 0x04 := hstatus
      obtain rfl : bytes = 4 := ((access_wf_iff _).1 hwf).1
      exact ⟨hafter, .inr rfl⟩
    case isFalse => cases hbefore.symm.trans hafter
  | wait =>
    obtain ⟨l, rfl⟩ := hostWait_next h
    exact ⟨hafter, .inl rfl⟩
  | memWrite addr bs =>
    obtain ⟨rfl, _⟩ := hostMemWrite_next h
    cases hbefore.symm.trans hafter
  | memRead addr n =>
    rw [hostMemRead_next h] at hafter
    cases hbefore.symm.trans hafter

/-- Settles O50, by the agent that moves. -/
theorem onlyReadingDoneDelivers : Obligations.OnlyReadingDoneDelivers := by
  intro s t a hs h hbefore hafter
  rcases step_agent h with ⟨ts, hturns, rfl⟩ | ⟨_, ts, hengine⟩ | ⟨hturns, ts, hhost⟩
  · exact .inl ⟨⟨ts, hturns⟩, (ownsDst_iff _ a).1 (ownsDst_of_hardReset_specifies hbefore hafter)⟩
  · have hawaited : ∀ c, s.awaited = some c → s.phase = .idle := fun c hc => (hs.awaited c hc).1
    have hkept := engineTurn_keeps_unspecified (s := { s with turns := ts }) hawaited hengine hbefore
    cases hkept.symm.trans hafter
  · rcases hostTurn_next hhost with ⟨_, rfl⟩ | ⟨act, rest, hact, hrun⟩
    · cases hbefore.symm.trans hafter
    · obtain ⟨hread, hwhich⟩ := hostAct_specifies hrun hbefore hafter
      obtain ⟨hdone, hawaited⟩ :=
        awaited_of_statusRead_specifies (s := { s with turns := ts, host := rest }) hbefore hread
      refine .inr ⟨hturns, hdone, hawaited, rest, ?_⟩
      rcases hwhich with rfl | rfl
      · exact .inl hact
      · exact .inr hact

end Sys2Proof.Proofs.HostMemory
end

section
/-! PROOFS. What a CONV computes depends on its source bytes alone (R77, R82, R134), and nothing the host may do between
issue and completion reaches them (R76). -/

namespace Sys2Proof.Proofs.Repetition

open Sys2Proof Sys2Proof.Machine Sys2Proof.Proofs.Scope Sys2Proof.Proofs.Invariant Sys2Proof.Proofs.Drivers
  Sys2Proof.Proofs.HostMemory

/-! ### The driver reads its source bytes only -/

/-- PREC is bits 1:0 of ACTIVE (R33). -/
theorem prec_eq_setWidth_word (active : Active) : active.prec = active.word.setWidth 2 := by
  apply BitVec.eq_of_getLsbD_eq
  intro i hi
  have hfields : i ≠ 2 ∧ i ≠ 3 ∧ ¬ 4 ≤ i ∧ ¬ 8 ≤ i ∧ i < 32 := by omega
  simp only [Active.word, BitVec.getLsbD_setWidth, BitVec.getLsbD_or, getLsbD_bitAt, getLsbD_fieldAt]
  simp [hi, hfields]

/-- A configuration that CFG latches has PREC 1 or 2, so a pixel has source bytes (R116). -/
theorem P_ne_zero {c : Command} (h : c.active.word ∈ configuredWords) : c.P ≠ 0 := by
  have hprec : ∀ w ∈ configuredWords, w.setWidth 2 ≠ 0#2 := by simp [configuredWords]
  rw [Command.P, prec_eq_setWidth_word]
  exact fun hzero => hprec _ h (BitVec.eq_of_toNat_eq hzero)

/-- The bytes of a raw channel are source bytes of its pixel (R65, R67). -/
theorem chanAddr_mem_srcBytes {c : Command} {i x k j : Nat} (hi : i < c.H) (hx : x < c.W) (hk : k < 3) (hj : j < c.P) :
    c.chanAddr i x k + j ∈ c.srcBytes := by
  have hchannel : (k + 1) * c.P ≤ 3 * c.P := Nat.mul_le_mul_right _ hk
  rw [Nat.add_mul] at hchannel
  rw [Command.mem_srcBytes]
  exact ⟨i, x, k * c.P + j, hi, hx, by omega, by rw [Command.chanAddr]; omega⟩

/-- The kernel outputs of a pixel depend on memory only through the source bytes (R65). -/
theorem pixelAt_congr {c : Command} (hP : c.P ≠ 0) {m m' : Memory} (hsrc : ∀ a ∈ c.srcBytes, m'.read a = m.read a)
    (p : Params) {i x : Nat} (hi : i < c.H) (hx : x < c.W) : c.pixelAt p m' i x = c.pixelAt p m i x := by
  have hraw : ∀ k < 3, c.raw m' i x k = c.raw m i x k := by
    intro k hk
    have hbyte : ∀ j < c.P, m'.read (c.chanAddr i x k + j) = m.read (c.chanAddr i x k + j) := fun j hj =>
      hsrc _ (chanAddr_mem_srcBytes hi hx hk hj)
    have hlow := hbyte 0 (Nat.pos_of_ne_zero hP)
    rw [Nat.add_zero] at hlow
    unfold Command.raw
    split
    case isTrue => rw [hlow]
    case isFalse hwide => rw [hlow, hbyte 1 (by omega)]
  rw [Command.pixelAt, Command.pixelAt, hraw 0 (by decide), hraw 1 (by decide), hraw 2 (by decide)]

/-- R77, R171: two memories with the same source bytes get the same destination bytes. -/
theorem read_drive_congr {p : Params} {devices : List Region} {c : Command} (hduties : c.hostDuties p devices = true)
    (hP : c.P ≠ 0) {m m' : Memory} (hm : m.wf = true) (hm' : m'.wf = true)
    (hsrc : ∀ a ∈ c.srcBytes, m'.read a = m.read a) {a : Nat} (ha : a ∈ c.dstBytes) :
    (c.drive p m').read a = (c.drive p m).read a := by
  obtain ⟨hstrides, _⟩ := (c.hostDuties_iff p devices).1 hduties
  unfold Command.drive
  split
  case isTrue hpacked =>
    have hwidth : 4 * c.W ≤ c.bufs.dst0Stride.toNat := by simpa [Command.stridesOk, hpacked] using hstrides
    rw [Command.dstBytes, if_pos hpacked] at ha
    obtain ⟨row, j, hrow, hj, rfl⟩ := (c.mem_packedBytes a).1 ha
    rw [read_packedDriver hwidth p hm' hrow hj, read_packedDriver hwidth p hm hrow hj]
    unfold Command.packedByte
    split
    case isTrue hpixel => rw [pixelAt_congr hP hsrc p (by omega) (by omega)]
    case isFalse => rfl
  case isFalse hplanar =>
    have hplanar := Bool.eq_false_of_not_eq_true hplanar
    obtain ⟨k, i, x, hi, hx, rfl⟩ := (mem_dstBytes_planar_iff hplanar a).1 ha
    rw [read_planarDriver hduties hplanar hm' k hi hx, read_planarDriver hduties hplanar hm k hi hx,
      pixelAt_congr hP hsrc p hi hx]

/-! ### A CONV issued again -/

/-- R70(a): the driver leaves the source bytes as they are. -/
theorem read_drive_source {p : Params} {devices : List Region} {c : Command} (hduties : c.hostDuties p devices = true)
    {m : Memory} (hm : m.wf = true) {a : Nat} (ha : a ∈ c.srcBytes) : (c.drive p m).read a = m.read a := by
  obtain ⟨_, _, _, _, _, hapart⟩ := (c.hostDuties_iff p devices).1 hduties
  refine read_drive_outside hduties hm fun hdst => ?_
  have hout := List.all_eq_true.1 hapart a ha
  simp [(c.inDst_iff a).2 hdst] at hout

/-- R82: the driver on its own result changes nothing. -/
theorem drive_idempotent {p : Params} {devices : List Region} {c : Command} (hduties : c.hostDuties p devices = true)
    (hP : c.P ≠ 0) {m : Memory} (hm : m.wf = true) : c.drive p (c.drive p m) = c.drive p m := by
  have hm' : (c.drive p m).wf = true := c.drive_wf p hm
  refine Memory.eq_of_read (c.drive_wf p hm') hm' fun a => ?_
  by_cases ha : a ∈ c.dstBytes
  · exact read_drive_congr hduties hP hm hm' (fun a ha => read_drive_source hduties hm ha) ha
  · exact read_drive_outside hduties hm' ha

/-- Settles O21. -/
theorem convRepeatsItsResult : Obligations.ConvRepeatsItsResult := by
  intro s c t u hs hu hphase hphase' hparams hdevices hvalid hword h
  obtain ⟨hduties, rfl⟩ : c.hostDuties s.params s.devices = true ∧ t = s.converted c := by
    have hcases := execConv_next h
    rw [State.commandFor_busy hphase, State.begun_busy hphase, hvalid] at hcases
    obtain ⟨hinvalid, _⟩ | ⟨_, hconverted⟩ := hcases
    · cases hinvalid
    · exact hconverted
  have hP : c.P ≠ 0 := P_ne_zero hword
  have hagain : exec .conv u = .next (u.converted c) :=
    exec_conv_eq_converted hphase' hvalid (by rw [hparams, hdevices]; exact hduties)
  refine ⟨fun hsrc => ⟨_, hagain, fun a ha => ?_⟩, fun hresult => ⟨_, hagain, ?_⟩⟩
  · rw [State.converted_mem, State.converted_mem, hparams]
    exact read_drive_congr hduties hP hs hu hsrc ha
  · rw [State.converted_mem, hparams, hresult, State.converted_mem]
    exact drive_idempotent hduties hP hs

/-! ### From issue to completion -/

/-- The CMD write in an idle block is the issue (R90). -/
theorem hostRegWrite_cmd {w : Word} {s : State} (hidle : s.phase = .idle) :
    hostRegWrite { offset := 0, bytes := 4 } w s = issueCommand w s := by
  simp only [hostRegWrite, hidle]
  rfl

/-- No move of the host changes a byte that the engine owns (R76). -/
theorem hostTurn_keeps_owned {s t : State} (hmem : s.mem.wf = true) (h : hostTurn s = .next t) {a : Nat}
    (howned : s.phase.ownsSrc a = true ∨ s.phase.ownsDst a = true) : t.mem.read a = s.mem.read a := by
  obtain ⟨_, _, _, _, _, _, _, _, _, hsame | ⟨addr, bs, rest, hact, hwrite⟩⟩ := hostTurn_frame h
  · rw [hsame]
  · obtain ⟨_, hfree⟩ := hostMemWrite_next ((hostTurn_of_cons hact).symm.trans h)
    rw [hwrite]
    refine Memory.read_writeBytes_outside hmem ?_
    by_contra hcovers
    obtain ⟨_, hsrc, hdst, _⟩ := hfree a (by omega) (by omega)
    simp only [hsrc, hdst, Bool.false_eq_true, or_self] at howned

/-- Moves of the host while a CONV is in flight keep the invariant, the command, the parameters and the CONV's source
bytes. -/
theorem hostMoves_keep_source {n : Nat} {s t : State} {c : Command} (hs : s.Inv) (hphase : s.phase = .busy c)
    (hconverts : c.converts = true) (h : hostMoves n s = .next t) :
    t.Inv ∧ t.phase = .busy c ∧ t.params = s.params ∧ ∀ a ∈ c.srcBytes, t.mem.read a = s.mem.read a := by
  induction n generalizing s with
  | zero =>
    obtain rfl := Host.Outcome.next.inj h
    exact ⟨hs, hphase, rfl, fun _ _ => rfl⟩
  | succ n ih =>
    rw [hostMoves] at h
    split at h
    case h_1 u hmove =>
      obtain ⟨hparams, _, _, _, _, _, _, _, ⟨hkept, _⟩ | ⟨hidle, _⟩, _⟩ := hostTurn_frame hmove
      · obtain ⟨hinv, hphase', hparams', hsrc⟩ := ih (hostTurn_keeps_inv hs hmove) (hkept.trans hphase) h
        refine ⟨hinv, hphase', hparams'.trans hparams, fun a ha => (hsrc a ha).trans ?_⟩
        exact hostTurn_keeps_owned hs.memCanonical hmove (.inl ((ownsSrc_iff _ a).2 ⟨c, hphase, hconverts, ha⟩))
      · cases hidle.symm.trans hphase
    case h_2 => cases h
    case h_3 => cases h

/-- Settles O23: the duties and the canonical form at completion come from the invariant, the source bytes from the
engine's ownership of them. -/
theorem convSeesSourceAsAtIssue : Obligations.ConvSeesSourceAsAtIssue := by
  intro s s1 s2 w n hs hidle hvalid hdecode hissue hmoves
  have hP : (s.snapshot w).P ≠ 0 := by
    have hconfig := hs.config
    rw [ConfigOk, if_pos hvalid] at hconfig
    exact P_ne_zero hconfig.1
  have hconverts : (s.snapshot w).converts = true := (converts_iff _).2 ⟨hvalid, hdecode⟩
  rw [hostRegWrite_cmd hidle] at hissue
  obtain ⟨rfl, hduties⟩ := issueCommand_next hissue
  obtain ⟨hs2, hphase, hparams, hsrc⟩ := hostMoves_keep_source (inv_issue hs hduties) rfl hconverts hmoves
  have hduties2 := hs2.duties _ hphase hconverts
  have hcompletes : engineTurn s2 = .next (s2.converted (s.snapshot w)) := by
    rw [← exec_conv_eq_converted hphase hvalid hduties2]
    simp only [engineTurn, hphase, show decodeFields (s.snapshot w).op (s.snapshot w).rsv = .ok .conv from hdecode]
  refine ⟨_, hcompletes, fun a ha => ?_, fun a ha => read_drive_outside hduties2 hs2.memCanonical ha⟩
  rw [State.converted_mem, hparams, State.issue_params]
  exact read_drive_congr (hduties hconverts) hP hs.memCanonical hs2.memCanonical hsrc ha

end Sys2Proof.Proofs.Repetition
end

section
/-! PROOFS. A command from its word to its completion (R20, R90 to R93, R96): which words are commands, what the CMD write
issues, what the engine's move runs, and the polls that wait for it. -/

namespace Sys2Proof.Proofs.CommandPort

open Sys2Proof Sys2Proof.Machine
open Sys2Proof.Proofs.Scope Sys2Proof.Proofs.Encoding Sys2Proof.Proofs.Window Sys2Proof.Proofs.HostMemory
open Sys2Proof.Proofs.Repetition

/-! ### Which words are commands -/

/-- A result is an error exactly when it is no value. -/
theorem exists_error_iff {ε α : Type} (x : Except ε α) : (∃ e, x = .error e) ↔ ∀ i, x ≠ .ok i := by
  cases x <;> simp

/-- The opcode map refuses exactly the reserved opcodes and the nonzero reserved bits (R92, R93). -/
theorem decodeFields_error_iff (op : BitVec 4) (rsv : BitVec 28) :
    (∃ e, decodeFields op rsv = .error e) ↔ 4 ≤ op.toNat ∨ rsv ≠ 0 := by
  unfold decodeFields
  split_ifs with hrsv hnop hcfg hconv hpix
  · exact iff_of_true ⟨_, rfl⟩ (.inr hrsv)
  · simp [hnop, not_not.1 hrsv]
  · simp [hcfg, not_not.1 hrsv]
  · simp [hconv, not_not.1 hrsv]
  · simp [hpix, not_not.1 hrsv]
  · exact iff_of_true ⟨_, rfl⟩ (.inl (by bv_omega))

/-- Settles O1: a word has a meaning exactly when it is the encoding of it. -/
theorem commandWordsAreExact : Obligations.CommandWordsAreExact := by
  intro w
  refine ⟨decodeWord_eq_ok_iff w .nop, decodeWord_eq_ok_iff w .cfg, decodeWord_eq_ok_iff w .conv,
    decodeWord_eq_ok_iff w .pix, ?_⟩
  simp only [exists_error_iff, ne_eq, decodeWord_eq_ok_iff]
  constructor
  · exact fun h => ⟨h .nop, h .cfg, h .conv, h .pix⟩
  · rintro ⟨hnop, hcfg, hconv, hpix⟩ i
    cases i with
    | nop => exact hnop
    | cfg => exact hcfg
    | conv => exact hconv
    | pix => exact hpix

/-! ### The engine's move -/

theorem engineTurn_idle {s : State} (h : s.phase = .idle) : engineTurn s = .next s := by
  simp only [engineTurn, h]

theorem engineTurn_of_decodes {s : State} {c : Command} {i : Instr} (h : s.phase = .busy c)
    (hdecode : decodeFields c.op c.rsv = .ok i) : engineTurn s = exec i s := by
  simp only [engineTurn, h, hdecode]

/-- An illegal word completes with ILLEGAL_COMMAND (R93). -/
theorem engineTurn_of_illegal {s : State} {c : Command} {e : DecodeError} (h : s.phase = .busy c)
    (hdecode : decodeFields c.op c.rsv = .error e) : engineTurn s = .next (s.completed 6) := by
  simp only [engineTurn, h, hdecode]
  rfl

/-- When it is the engine's turn, or no turn is left while BUSY, the step is the engine's move (R230). -/
theorem step_eq_engineTurn {s : State} (h : s.turns = [] ∧ s.phase.isBusy = true ∨ ∃ ts, s.turns = .engine :: ts) :
    step s = engineTurn { s with turns := s.turns.tail } := by
  rcases h with ⟨hturns, hbusy⟩ | ⟨ts, hturns⟩
  · have hsame : ({ s with turns := s.turns.tail } : State) = s := by
      rw [hturns, List.tail_nil, ← hturns]
    rw [hsame]
    simp only [step, hturns, State.defaultTurn, hbusy, if_true, takeTurn]
  · simp only [step, hturns, takeTurn, List.tail_cons]

theorem step_eq_engineTurn_of_busy {s : State} {c : Command} (hphase : s.phase = .busy c)
    (hturn : s.turns = [] ∨ ∃ ts, s.turns = .engine :: ts) :
    step s = engineTurn { s with turns := s.turns.tail } :=
  step_eq_engineTurn (hturn.imp_left fun hnil => ⟨hnil, by rw [hphase, Phase.isBusy_busy]⟩)

/-- Settles O3, by what is in flight when the engine moves. -/
theorem stepRunsDecodedCommand : Obligations.StepRunsDecodedCommand := by
  refine ⟨fun s c i hphase hdecode hturn => ?_, fun s c e hphase hdecode hturn => ?_, fun s ts hidle hturns => ?_⟩
  · rw [step_eq_engineTurn_of_busy hphase hturn]
    exact engineTurn_of_decodes hphase hdecode
  · rw [step_eq_engineTurn_of_busy hphase hturn]
    exact engineTurn_of_illegal hphase hdecode
  · rw [step_eq_engineTurn (.inr ⟨ts, hturns⟩), hturns]
    exact engineTurn_idle hidle

/-- Settles O8. -/
theorem illegalWordReportsIllegalCommand : Obligations.IllegalWordReportsIllegalCommand := by
  refine ⟨fun op rsv => (decodeFields_error_iff op rsv).symm, fun s c hphase hillegal => ?_⟩
  obtain ⟨e, hdecode⟩ := (decodeFields_error_iff c.op c.rsv).2 hillegal
  exact engineTurn_of_illegal hphase hdecode

/-! ### The CMD write -/

/-- A word issued now converts exactly when it is CONV's and the block is configured (R92, R130). -/
theorem snapshot_converts_iff (s : State) (w : Word) :
    (s.snapshot w).converts = true ↔ w = 2 ∧ s.cfgValid = true := by
  rw [converts_iff, and_comm]
  exact and_congr_left' (decodeWord_eq_ok_iff w .conv)

/-- An issue succeeds unless it is that of a CONV that will convert and breaks a host duty (R90, R207). -/
theorem issueCommand_eq_issue {w : Word} {s : State}
    (h : (s.snapshot w).converts = true → (s.snapshot w).hostDuties s.params s.devices = true) :
    issueCommand w s = .next (s.issue w) := by
  unfold issueCommand
  split
  · rw [Command.hostDuties_none (h ‹_›)]
  · rfl

/-- A CONV that will convert and breaks a host duty is a fault at its issue (R207). -/
theorem issueCommand_fault {w : Word} {s : State} (hconverts : (s.snapshot w).converts = true)
    (hduties : (s.snapshot w).hostDuties s.params s.devices = false) : ∃ f, issueCommand w s = .fault f := by
  rw [Command.hostDuties, Option.isNone_eq_false_iff, Option.isSome_iff_exists] at hduties
  obtain ⟨f, hf⟩ := hduties
  exact ⟨f, by simp only [issueCommand, hconverts, if_true, hf]⟩

/-- Settles O7, by whether a CONV that will convert breaks a host duty. -/
theorem commandWriteIssues : Obligations.CommandWriteIssues := by
  intro s w hidle
  change if w = 2 ∧ s.cfgValid = true ∧ (s.snapshot w).hostDuties s.params s.devices = false then _ else _
  rw [hostRegWrite_cmd hidle]
  split
  case isTrue hbreaks =>
    obtain ⟨hconv, hvalid, hduties⟩ := hbreaks
    exact issueCommand_fault ((snapshot_converts_iff s w).2 ⟨hconv, hvalid⟩) hduties
  case isFalse hkeeps =>
    refine issueCommand_eq_issue fun hconverts => ?_
    obtain ⟨hconv, hvalid⟩ := (snapshot_converts_iff s w).1 hconverts
    by_contra hduties
    exact hkeeps ⟨hconv, hvalid, Bool.eq_false_of_not_eq_true hduties⟩

/-! ### The polls of WAIT -/

/-- Bit 1 of the STATUS word is DONE (R22). -/
theorem statusWord_done (s : State) : s.statusWord.getLsbD 1 = s.done := by
  rw [getLsbD_statusWord]
  simp

/-- The poll that finds DONE = 0 leaves the WAIT at the head of the host's program (R96). -/
theorem hostWait_of_not_done {s : State} (h : s.done = false) :
    hostWait s = .next { s.observe (.reg 0x04 s.statusWord) with host := .wait :: s.host } := by
  rw [hostWait, statusWord_done, statusRead_of_not_done h, h, if_neg Bool.false_ne_true]
  rfl

/-- The poll that finds DONE = 1 is a read of STATUS, and ends the WAIT (R96). -/
theorem hostWait_of_done {s : State} (h : s.done = true) :
    hostWait s = .next (s.statusRead.observe (.reg 0x04 s.statusWord)) := by
  rw [hostWait, statusWord_done, h, if_pos rfl]
  rfl

/-- What a read of STATUS with DONE = 1 leaves unspecified to the host: not the bytes of the last command, unless the
engine owns them (R78). -/
theorem statusRead_unspecified_iff {s : State} (hdone : s.done = true) (a : Nat) :
    s.statusRead.unspecified a = true
      ↔ s.unspecified a = true ∧ (s.phase.ownsDst a = true ∨ a ∉ s.awaitedBytes) := by
  rw [State.statusRead, if_pos hdone, State.deliver_unspecified, State.unspecified]
  simp only [Bool.or_eq_true, Bool.and_eq_true, Bool.not_eq_true', ← Bool.not_eq_true, List.contains_iff_mem]
  tauto

/-- Settles O45, by what the poll finds in DONE. -/
theorem waitPollsUntilDone : Obligations.WaitPollsUntilDone := by
  intro s rest hhost
  rw [hostTurn_of_cons hhost, hostAct]
  rcases Bool.eq_false_or_eq_true s.done with hdone | hdone
  · rw [if_pos hdone]
    exact ⟨_, hostWait_of_done hdone, observe_statusRead _ _, fun hnot => absurd hdone (ne_true_of_eq_false hnot),
      fun _ => statusRead_unspecified_iff (s := { s with host := rest }) hdone⟩
  · rw [if_neg (ne_true_of_eq_false hdone)]
    exact ⟨_, hostWait_of_not_done hdone, rfl, fun _ => ⟨rfl, rfl⟩, fun h => absurd h (ne_true_of_eq_false hdone)⟩

end Sys2Proof.Proofs.CommandPort
end

section
/-! PROOFS. NOP and CFG (R110 to R116, R201): which check of CFG fails first, what a CFG latches and when it succeeds,
the ACTIVE word as the sum of its fields, and that a conversion never reads the format code (R112). -/

namespace Sys2Proof.Proofs.Control

open Sys2Proof Sys2Proof.Machine
open Sys2Proof.Proofs.Moves Sys2Proof.Proofs.Encoding Sys2Proof.Proofs.Window

/-! ### The order of CFG's checks -/

theorem cfgCheck_of_srcType {a : Args} (htype : a.srcType ≠ 1) : cfgCheck a = .unsupportedSourceType :=
  if_pos htype

theorem cfgCheck_of_dstFmt {a : Args} (htype : a.srcType = 1)
    (hfmt : ¬ (a.dstFmt = 1 ∨ a.dstFmt = 2 ∨ a.dstFmt = 3)) : cfgCheck a = .unsupportedFormat := by
  rw [not_or, not_or] at hfmt
  rw [cfgCheck, if_neg (not_not_intro htype), if_pos hfmt]

theorem cfgCheck_of_precision {a : Args} (htype : a.srcType = 1) (hfmt : a.dstFmt = 1 ∨ a.dstFmt = 2 ∨ a.dstFmt = 3)
    (hprec : ¬ (a.precision = 1 ∨ a.precision = 2)) : cfgCheck a = .invalidPrecision := by
  have hfmt : ¬ (a.dstFmt ≠ 1 ∧ a.dstFmt ≠ 2 ∧ a.dstFmt ≠ 3) := by tauto
  rw [not_or] at hprec
  rw [cfgCheck, if_neg (not_not_intro htype), if_neg hfmt, if_pos hprec]

theorem cfgCheck_of_geometry {a : Args} (htype : a.srcType = 1) (hfmt : a.dstFmt = 1 ∨ a.dstFmt = 2 ∨ a.dstFmt = 3)
    (hprec : a.precision = 1 ∨ a.precision = 2)
    (hgeom : a.srcWidth = 0 ∨ a.srcHeight = 0 ∨ (a.precision = 2 ∧ a.srcWidth.toNat % 2 = 1)) :
    cfgCheck a = .invalidGeometry := by
  have hfmt : ¬ (a.dstFmt ≠ 1 ∧ a.dstFmt ≠ 2 ∧ a.dstFmt ≠ 3) := by tauto
  have hprec : ¬ (a.precision ≠ 1 ∧ a.precision ≠ 2) := by tauto
  have hodd : a.srcWidth.getLsbD 0 = true ↔ a.srcWidth.toNat % 2 = 1 := by
    simp [BitVec.getLsbD, Nat.testBit_zero]
  rw [← hodd] at hgeom
  rw [cfgCheck, if_neg (not_not_intro htype), if_neg hfmt, if_neg hprec, if_pos hgeom]

/-! ### What a CFG in flight does -/

theorem exec_cfg_of_check_ok {s : State} {c : Command} (hphase : s.phase = .busy c) (hcheck : cfgCheck c.args = .ok) :
    exec .cfg s = .next (s.cfgOk c.args) := by
  rw [exec, execCfg_busy hphase, hcheck]

/-- A failed CFG drops the configuration and reports the check that failed (R113). -/
theorem exec_cfg_of_check_fails {s : State} {c : Command} {e : CmdErr} (hphase : s.phase = .busy c)
    (hcheck : cfgCheck c.args = e) (hfails : e ≠ .ok) : exec .cfg s = .next (s.cfgFail e) := by
  rw [exec, execCfg_busy hphase, hcheck]
  cases e with
  | ok => exact absurd rfl hfails
  | _ => rfl

/-- Only success has the code 0 (R200). -/
theorem code_eq_zero_iff (e : CmdErr) : e.code = 0 ↔ e = .ok := by cases e <;> decide

/-- A CFG that ends with ERR 0 passed every check and latched its arguments. -/
theorem exec_cfg_of_err_zero {s t : State} {c : Command} (hphase : s.phase = .busy c) (h : exec .cfg s = .next t)
    (herr : t.err = 0) : cfgCheck c.args = .ok ∧ t = s.cfgOk c.args := by
  rcases execCfg_next h with ⟨hok, ht⟩ | ⟨hfails, rfl⟩
  · rw [State.commandFor_busy hphase] at hok ht
    rw [State.begun_busy hphase] at ht
    exact ⟨hok, ht⟩
  · rw [State.cfgFail_err, code_eq_zero_iff] at herr
    exact absurd herr hfails

/-! ### What a successful CFG latches -/

theorem cfgActive_eq (a : Args) :
    cfgActive a =
      { prec := BitVec.ofNat 2 a.precision.toNat
        cvt := a.convertYuv
        packed := decide (a.dstFmt = 3)
        pshift := BitVec.ofNat 4 (a.precision.toNat + 1)
        fmt := BitVec.ofNat 4 a.dstFmt.toNat } := by
  rw [cfgActive, BitVec.ofNat_add]
  rfl

theorem toNat_cfgWidth_of_two {a : Args} (hprec : a.precision = 2) : (cfgWidth a).toNat = a.srcWidth.toNat / 2 := by
  rw [cfgWidth, if_pos hprec, BitVec.toNat_udiv]
  rfl

theorem cfgWidth_of_one {a : Args} (hprec : a.precision = 1) : cfgWidth a = a.srcWidth := by
  rw [cfgWidth, if_neg (by rw [hprec]; decide)]

theorem cfgWidth_eq (a : Args) :
    cfgWidth a = if a.precision = 2 then BitVec.ofNat 32 (a.srcWidth.toNat / 2) else a.srcWidth := by
  split
  case isTrue hprec => rw [← toNat_cfgWidth_of_two hprec, BitVec.ofNat_toNat, BitVec.setWidth_eq]
  case isFalse hprec => exact if_neg hprec

/-- ACTIVE.PREC tells the two precisions apart. -/
theorem cfgActive_prec {a : Args} (hprec : a.precision = 1 ∨ a.precision = 2) :
    (a.precision = 1 ∧ (cfgActive a).prec = 1) ∨ (a.precision = 2 ∧ (cfgActive a).prec = 2) := by
  rcases hprec with hprec | hprec
  · exact .inl ⟨hprec, by rw [cfgActive, hprec]; rfl⟩
  · exact .inr ⟨hprec, by rw [cfgActive, hprec]; rfl⟩

/-- The rows of R116's table: two precisions and both values of CVT for each of three formats. -/
theorem cfgActive_word_mem_activeTable {a : Args} (hfmt : a.dstFmt = 1 ∨ a.dstFmt = 2 ∨ a.dstFmt = 3)
    (hprec : a.precision = 1 ∨ a.precision = 2) :
    (a.dstFmt, a.precision, a.convertYuv, (cfgActive a).word) ∈ activeTable := by
  rcases hfmt with hfmt | hfmt | hfmt <;> rcases hprec with hprec | hprec <;> rw [cfgActive, hfmt, hprec] <;>
    cases a.convertYuv <;> decide

/-! ### The ACTIVE word as a sum -/

/-- A field placed above all the bits of a word adds its value at that position. -/
theorem toNat_or_fieldAt {n pos : Nat} {w : Word} {f : BitVec n} (hw : w.toNat < 2 ^ pos) (hfits : pos + n ≤ 32) :
    (w ||| fieldAt f pos).toNat = w.toNat + f.toNat * 2 ^ pos := by
  have hf : f.toNat * 2 ^ pos < 2 ^ 32 :=
    calc f.toNat * 2 ^ pos < 2 ^ n * 2 ^ pos := Nat.mul_lt_mul_of_pos_right f.isLt (Nat.two_pow_pos pos)
      _ = 2 ^ (pos + n) := by rw [Nat.pow_add, Nat.mul_comm]
      _ ≤ 2 ^ 32 := Nat.pow_le_pow_right (by decide) hfits
  have hwidth : f.toNat < 2 ^ 32 := lt_of_le_of_lt (Nat.le_mul_of_pos_right _ (Nat.two_pow_pos pos)) hf
  rw [fieldAt, BitVec.toNat_or, BitVec.toNat_shiftLeft, BitVec.toNat_setWidth, Nat.mod_eq_of_lt hwidth,
    Nat.shiftLeft_eq, Nat.mod_eq_of_lt hf, Nat.or_comm, Nat.mul_comm, ← Nat.two_pow_add_eq_or_of_lt hw, Nat.add_comm]

/-- A flag has the value 1 or 0. -/
theorem toNat_ofBool_eq_ite (b : Bool) : (BitVec.ofBool b).toNat = if b then 1 else 0 := by cases b <;> rfl

/-- The formula of R116: the fields of ACTIVE do not overlap, so the word is their sum, each at its position. -/
theorem toNat_activeWord (a : Active) :
    a.word.toNat = a.prec.toNat + (if a.cvt then 1 else 0) * 2 ^ 2 + (if a.packed then 1 else 0) * 2 ^ 3
      + a.pshift.toNat * 2 ^ 4 + a.fmt.toNat * 2 ^ 8 := by
  have hprec := toNat_fieldAt_zero a.prec (by decide)
  have hprecLt := a.prec.isLt
  have hcvt := toNat_or_fieldAt (pos := 2) (w := fieldAt a.prec 0) (f := BitVec.ofBool a.cvt) (by omega) (by decide)
  have hcvtLt := (BitVec.ofBool a.cvt).isLt
  have hpacked := toNat_or_fieldAt (pos := 3) (f := BitVec.ofBool a.packed) (hcvt.trans_lt (by omega)) (by decide)
  have hpackedLt := (BitVec.ofBool a.packed).isLt
  have hpshift := toNat_or_fieldAt (pos := 4) (f := a.pshift) (hpacked.trans_lt (by omega)) (by decide)
  have hpshiftLt := a.pshift.isLt
  have hfmt := toNat_or_fieldAt (pos := 8) (f := a.fmt) (hpshift.trans_lt (by omega)) (by decide)
  change a.word.toNat = _ at hfmt
  rw [hfmt, hpshift, hpacked, hcvt, hprec, toNat_ofBool_eq_ite, toNat_ofBool_eq_ite]

/-! ### The format code in a conversion -/

/-- The command with another format code in its configuration. -/
def withFmt (c : Command) (fmt : BitVec 4) : Command := { c with active := { c.active with fmt := fmt } }

/-- A pixel's source addresses use PREC and PSHIFT, its kernel PREC and CVT (R65, R131). -/
theorem pixelAt_withFmt (p : Params) (c : Command) (fmt : BitVec 4) (m : Memory) (i x : Nat) :
    (withFmt c fmt).pixelAt p m i x = c.pixelAt p m i x := rfl

/-- The format chooses the driver through ACTIVE.PACKED alone (R112, R130). -/
theorem drive_withFmt (p : Params) (c : Command) (fmt : BitVec 4) (m : Memory) :
    (withFmt c fmt).drive p m = c.drive p m := by
  have hpacked : (withFmt c fmt).packedDriver p m = c.packedDriver p m := by
    simp only [Command.packedDriver, Command.paintPacked, pixelAt_withFmt]
    rfl
  have hplanar : (withFmt c fmt).planarDriver p m = c.planarDriver p m := by
    simp only [Command.planarDriver, Command.paintPlanar, pixelAt_withFmt]
    rfl
  rw [Command.drive, hpacked, hplanar]
  rfl

/-- The host duties speak of addresses and strides, which PREC, PSHIFT and PACKED alone of ACTIVE reach (R132). -/
theorem dutyViolation_withFmt (p : Params) (devices : List Region) (c : Command) (fmt : BitVec 4) :
    (withFmt c fmt).dutyViolation p devices = c.dutyViolation p devices := rfl

/-! ### The statements -/

/-- Settles O11, one check of R111 after the other. -/
theorem cfgFailsWithFirstError : Obligations.CfgFailsWithFirstError := by
  intro s c hphase failed fmtOk precOk
  exact ⟨fun htype => exec_cfg_of_check_fails hphase (cfgCheck_of_srcType htype) nofun,
    fun htype hfmt => exec_cfg_of_check_fails hphase (cfgCheck_of_dstFmt htype hfmt) nofun,
    fun htype hfmt hprec => exec_cfg_of_check_fails hphase (cfgCheck_of_precision htype hfmt hprec) nofun,
    fun htype hfmt hprec hgeom => exec_cfg_of_check_fails hphase (cfgCheck_of_geometry htype hfmt hprec hgeom) nofun⟩

/-- Settles O12. -/
theorem activeWordAfterCfg : Obligations.ActiveWordAfterCfg := by
  intro s c t hphase hexec herr
  obtain ⟨hcheck, rfl⟩ := exec_cfg_of_err_zero hphase hexec herr
  obtain ⟨_, hfmt, hprec, _⟩ := (cfgCheck_eq_ok_iff c.args).1 hcheck
  exact ⟨cfgActive_word_mem_activeTable hfmt hprec, toNat_activeWord _⟩

/-- Settles O13, by the precision: the width that is halved has passed the check that it is even. -/
theorem geometryLaw : Obligations.GeometryLaw := by
  intro s c t hphase hexec herr
  obtain ⟨hcheck, rfl⟩ := exec_cfg_of_err_zero hphase hexec herr
  obtain ⟨_, _, hprec, _, _, heven⟩ := (cfgCheck_eq_ok_iff c.args).1 hcheck
  rw [State.cfgOk_dstHeight, State.cfgOk_dstWidth, State.cfgOk_active]
  rcases cfgActive_prec hprec with ⟨hone, hactive⟩ | ⟨htwo, hactive⟩
  · rw [hactive]
    exact ⟨rfl, fun _ => cfgWidth_of_one hone, fun h => absurd h (by decide), .inl rfl⟩
  · have hdiv : 2 ∣ c.args.srcWidth.toNat := Nat.dvd_of_mod_eq_zero (heven htwo)
    rw [hactive, toNat_cfgWidth_of_two htwo]
    exact ⟨rfl, fun h => absurd h (by decide), fun _ => Nat.mul_div_cancel' hdiv, .inr rfl⟩

/-- STATUS after a completion with ERR 0 is DONE and CFG_VALID (R22 to R26). -/
theorem statusWord_completed_zero (s : State) :
    (s.completed 0).statusWord = if s.cfgValid then 0x00000006 else 0x00000002 := by
  change bitAt false 0 ||| bitAt true 1 ||| bitAt s.cfgValid 2 ||| fieldAt (0 : BitVec 4) 8 = _
  cases s.cfgValid <;> decide

/-- Settles O9. -/
theorem nopOnlyClearsErr : Obligations.NopOnlyClearsErr := by
  refine ⟨(decodeWord_eq_ok_iff _ .nop).2 rfl, fun s c hphase => execNop_busy hphase, fun s hidle => ?_,
    statusWord_completed_zero⟩
  rw [exec, execNop, State.begun_idle hidle]
  rfl

/-- Settles O10. -/
theorem cfgLatchesConfiguration : Obligations.CfgLatchesConfiguration := by
  intro s c hphase htype hfmt hprec hwidth hheight heven
  have hcheck := (cfgCheck_eq_ok_iff c.args).2 ⟨htype, hfmt, hprec, hwidth, hheight, heven⟩
  rw [exec_cfg_of_check_ok hphase hcheck, ← cfgActive_eq, ← cfgWidth_eq]
  rfl

/-- Settles O24. -/
theorem formatCodeDoesNotChangeConv : Obligations.FormatCodeDoesNotChangeConv :=
  fun p devices c m fmt => ⟨drive_withFmt p c fmt m, dutyViolation_withFmt p devices c fmt⟩

end Sys2Proof.Proofs.Control
end

section
/-! PROOFS. The family of CONV (R130 to R136, R203, R207): when it converts, faults or reports NOT_CONFIGURED, that the
host-duty check decides the spec's conditions on the byte sets, the laws of the packed buffer, and that the order of the
pixels does not matter. -/

namespace Sys2Proof.Proofs.Conversion

open Sys2Proof Sys2Proof.Machine Sys2Proof.Proofs.Drivers

/-! ### The outcomes of a CONV in flight -/

/-- A configured CONV that goes on has kept its host duties and has run its driver (R130). -/
theorem exec_conv_next_of_valid {s t : State} {c : Command} (hphase : s.phase = .busy c) (hvalid : c.cfgValid = true)
    (h : exec .conv s = .next t) : c.hostDuties s.params s.devices = true ∧ t = s.converted c := by
  have hcases := execConv_next h
  rw [State.commandFor_busy hphase, State.begun_busy hphase] at hcases
  obtain ⟨hinvalid, _⟩ | ⟨_, hconverted⟩ := hcases
  · cases hvalid.symm.trans hinvalid
  · exact hconverted

/-- Settles O18. -/
theorem unconfiguredCommandsDoNothing : Obligations.UnconfiguredCommandsDoNothing := by
  intro s c hphase hinvalid
  have hne : ¬ c.cfgValid = true := by simp [hinvalid]
  constructor
  · rw [exec, execConv_busy hphase, if_neg hne]; rfl
  · rw [exec, execPix_busy hphase, if_neg hne]; rfl

/-- Settles O19: the fault is the one that records the first duty broken. -/
theorem convFaultsWhenDutyFails : Obligations.ConvFaultsWhenDutyFails := by
  intro s c hphase hvalid hduties
  obtain ⟨f, hf⟩ : ∃ f, c.dutyViolation s.params s.devices = some f := by
    simpa [Command.hostDuties, Option.isSome_iff_exists] using hduties
  exact ⟨f, by rw [exec, execConv_busy hphase, if_pos hvalid, hf]⟩

/-! ### Each check of the host duties decides its condition -/

/-- R70(b) and (c). -/
theorem stridesOk_iff (c : Command) :
    c.stridesOk = true ↔ (c.active.packed = true → 4 * c.W ≤ c.bufs.dst0Stride.toNat)
      ∧ (c.active.packed = false → c.W ≤ c.bufs.dst0Stride.toNat ∧ c.W ≤ c.bufs.dstUvStride.toNat) := by
  cases h : c.active.packed <;> simp [Command.stridesOk, h]

/-- The last pixel has the highest address (R65). -/
theorem pixAddr_le {c : Command} {i i' x x' : Nat} (hi : i ≤ i') (hx : x ≤ x') : c.pixAddr i x ≤ c.pixAddr i' x' := by
  simp only [Command.pixAddr, Nat.shiftLeft_eq]
  gcongr

/-- Duty 1 of R132 on the source: the last byte of the last pixel bounds them all. -/
theorem srcInSpace_iff (p : Params) (c : Command) :
    c.srcInSpace p = true ↔ ∀ a ∈ c.srcBytes, a < 2 ^ p.addrW := by
  simp only [Command.srcInSpace, Bool.or_eq_true, beq_iff_eq, decide_eq_true_eq]
  constructor
  · intro hlast a ha
    obtain ⟨i, x, j, hi, hx, hj, rfl⟩ := (c.mem_srcBytes a).1 ha
    have hle : c.pixAddr i x ≤ c.pixAddr (c.H - 1) (c.W - 1) := pixAddr_le (by omega) (by omega)
    omega
  · intro hall
    by_cases hempty : c.W = 0 ∨ c.H = 0 ∨ c.P = 0
    · omega
    · have hlast := hall (c.pixAddr (c.H - 1) (c.W - 1) + (3 * c.P - 1)) <|
        (c.mem_srcBytes _).2 ⟨c.H - 1, c.W - 1, 3 * c.P - 1, by omega, by omega, by omega, rfl⟩
      omega

/-- Duty 1 of R132 on a plane: the last sample of the last row bounds them all. -/
theorem planeInSpace_iff (p : Params) (c : Command) (base stride : Word) :
    c.planeInSpace p base stride = true ↔ ∀ a ∈ c.planeBytes base stride, a < 2 ^ p.addrW := by
  simp only [Command.planeInSpace, Bool.or_eq_true, beq_iff_eq, decide_eq_true_eq]
  constructor
  · intro hlast a ha
    obtain ⟨i, x, hi, hx, rfl⟩ := (c.mem_planeBytes base stride a).1 ha
    have hle : i * stride.toNat ≤ (c.H - 1) * stride.toNat := Nat.mul_le_mul_right _ (by omega)
    omega
  · intro hall
    by_cases hempty : c.W = 0 ∨ c.H = 0
    · omega
    · have hlast := hall (base.toNat + (c.H - 1) * stride.toNat + (c.W - 1)) <|
        (c.mem_planeBytes base stride _).2 ⟨c.H - 1, c.W - 1, by omega, by omega, rfl⟩
      omega

/-- Duty 1 of R132 on the packed buffer, a range of addresses (R68): its last byte bounds them all. -/
theorem packedInSpace_iff (p : Params) (c : Command) :
    (c.H * c.bufs.dst0Stride.toNat = 0 ∨ c.bufs.dst0Base.toNat + c.H * c.bufs.dst0Stride.toNat ≤ 2 ^ p.addrW)
      ↔ ∀ a ∈ c.packedBytes, a < 2 ^ p.addrW := by
  simp only [← Command.inPacked_iff, Command.inPacked, Bool.and_eq_true, decide_eq_true_eq]
  generalize c.H * c.bufs.dst0Stride.toNat = size
  constructor
  · rintro hlast a ⟨_, _⟩
    omega
  · intro hall
    by_cases hempty : size = 0
    · exact .inl hempty
    · have hlast := hall (c.bufs.dst0Base.toNat + size - 1) ⟨by omega, by omega⟩
      omega

/-- Duty 1 of R132 on the destination set. -/
theorem dstInSpace_iff (p : Params) (c : Command) :
    c.dstInSpace p = true ↔ ∀ a ∈ c.dstBytes, a < 2 ^ p.addrW := by
  unfold Command.dstInSpace Command.dstBytes
  split
  case isTrue => simpa using packedInSpace_iff p c
  case isFalse =>
    simp only [Bool.and_eq_true, planeInSpace_iff, Command.planarBytes, Command.yBytes, Command.uBytes, Command.vBytes,
      List.forall_mem_append]

/-- R70(c), on the three sets of R69. -/
theorem planesDisjoint_iff (c : Command) :
    c.planesDisjoint = true ↔ (c.active.packed = false →
      (∀ a ∈ c.yBytes, a ∉ c.uBytes) ∧ (∀ a ∈ c.yBytes, a ∉ c.vBytes) ∧ (∀ a ∈ c.uBytes, a ∉ c.vBytes)) := by
  have hapart (l : List Nat) (base stride : Word) :
      l.all (fun a => !c.inPlane base stride a) = true ↔ ∀ a ∈ c.planeBytes base stride, a ∉ l := by
    simp only [List.all_eq_true, Bool.not_eq_true', ← Bool.not_eq_true, Command.inPlane_iff]
    exact ⟨fun h a ha hl => h a hl ha, fun h a hl ha => h a ha hl⟩
  cases h : c.active.packed <;>
    simp [Command.planesDisjoint, h, hapart, Command.yBytes, Command.uBytes, Command.vBytes, and_assoc]

/-- R70(a). -/
theorem sourceApart_iff (c : Command) : c.sourceApart = true ↔ ∀ a ∈ c.srcBytes, a ∉ c.dstBytes := by
  simp only [Command.sourceApart, List.all_eq_true, Bool.not_eq_true', ← Bool.not_eq_true, Command.inDst_iff]

/-- Duty 3 of R132. -/
theorem memoryOrdinary_iff (devices : List Region) (c : Command) :
    c.memoryOrdinary devices = true ↔ ∀ a, a ∈ c.srcBytes ∨ a ∈ c.dstBytes → ordinary devices a = true := by
  simp only [Command.memoryOrdinary, ordinary, List.all_eq_true, List.mem_append]
  exact ⟨fun h a ha r hr => h r hr a ha, fun h r hr a ha => h a ha r hr⟩

/-- Settles O20, one check after the other. -/
theorem hostDutiesDecideTheConditions : Obligations.HostDutiesDecideTheConditions := by
  intro p devices c
  have hspace : ∀ a, a ≤ 2 ^ p.addrW - 1 ↔ a < 2 ^ p.addrW := fun a => Nat.le_sub_one_iff_lt (Nat.two_pow_pos _)
  simp only [c.hostDuties_iff, stridesOk_iff, srcInSpace_iff, dstInSpace_iff, memoryOrdinary_iff, planesDisjoint_iff,
    sourceApart_iff, hspace, or_imp, forall_and]
  tauto

/-! ### The packed buffer -/

/-- R134 gives the first three bytes of pixel x in memory row m the kernel outputs of source row H − 1 − m. -/
theorem map_packedByte_eq_packed (p : Params) {c : Command} (mem : Memory) (m : Nat) {x : Nat} (hx : x < c.W) :
    (List.range 3).map (fun k => c.packedByte p mem m (4 * x + k)) = (c.pixelAt p mem (c.H - 1 - m) x).packed := by
  have hpainted : ∀ k < 3, 4 * x + k < 4 * c.W ∧ (4 * x + k) / 4 = x ∧ (4 * x + k) % 4 = k := by omega
  simp [List.range_succ, Pixel.packed, Command.packedByte, hx, hpainted 1, hpainted 2]

theorem readBytes_packedDriver {c : Command} (hwidth : 4 * c.W ≤ c.bufs.dst0Stride.toNat) (p : Params) {mem : Memory}
    (hmem : mem.wf = true) {m x : Nat} (hm : m < c.H) (hx : x < c.W) :
    (c.packedDriver p mem).readBytes (c.bufs.dst0Base.toNat + m * c.bufs.dst0Stride.toNat + 4 * x) 3
      = (c.pixelAt p mem (c.H - 1 - m) x).packed := by
  rw [← map_packedByte_eq_packed p mem m hx, Memory.readBytes]
  refine List.map_congr_left fun k hk => ?_
  have hk : k < 3 := List.mem_range.1 hk
  rw [Nat.add_assoc, read_packedDriver hwidth p hmem hm (by omega)]

/-- R68: the fourth byte of every pixel and the padding of every row are 0. -/
theorem packedByte_eq_zero {c : Command} {j : Nat} (h : j % 4 = 3 ∨ 4 * c.W ≤ j) (p : Params) (mem : Memory) (m : Nat) :
    c.packedByte p mem m j = 0 := by
  unfold Command.packedByte
  split
  case isTrue hpixel =>
    have hfourth : j % 4 = 3 := by omega
    simp [hfourth]
  case isFalse => rfl

/-- Settles O17: memory row m holds source row H − 1 − m, taken at m = H − 1 and at m = 0. -/
theorem packedFlipAndZeroBytes : Obligations.PackedFlipAndZeroBytes := by
  intro s c t hmem hphase hvalid hpacked hexec row
  obtain ⟨hduties, rfl⟩ := exec_conv_next_of_valid hphase hvalid hexec
  obtain ⟨hstrides, _⟩ := (c.hostDuties_iff _ _).1 hduties
  have hwidth := ((stridesOk_iff c).1 hstrides).1 hpacked
  have hdriver : (s.converted c).mem = c.packedDriver s.params s.mem := if_pos hpacked
  rw [hdriver]
  refine ⟨fun x hH hx => ⟨?_, ?_⟩, fun m j hm hj hzero => ?_, fun a => Nat.le_of_lt_succ (BitVec.isLt _)⟩
  · have hflip := readBytes_packedDriver hwidth s.params hmem (show c.H - 1 < c.H by omega) hx
    rwa [Nat.sub_self] at hflip
  · exact readBytes_packedDriver hwidth s.params hmem hH hx
  · rw [read_packedDriver hwidth s.params hmem hm hj, packedByte_eq_zero hzero]

/-! ### The order of the pixels -/

theorem writeCells_wf {m : Memory} (hm : m.wf = true) (cells : List Host.Cell) : (writeCells m cells).wf = true := by
  induction cells generalizing m with
  | nil => exact hm
  | cons cell cells ih => exact ih (Memory.write_wf hm _ _)

/-- When every cell of a list can be read back after all of them are written, no two of them disagree, so they may be
written in any order. -/
theorem writeCells_eq_of_perm {m : Memory} (hm : m.wf = true) {cells cells' : List Host.Cell}
    (hperm : cells'.Perm cells) (hback : ∀ a v, (a, v) ∈ cells → (writeCells m cells).read a = v) :
    writeCells m cells' = writeCells m cells := by
  refine Memory.eq_of_read (writeCells_wf hm _) (writeCells_wf hm _) fun a => ?_
  by_cases hwritten : ∃ v, (a, v) ∈ cells
  · obtain ⟨v, hv⟩ := hwritten
    rw [hback a v hv]
    refine read_writeCells_of_mem hm (hperm.mem_iff.2 hv) fun w hw => ?_
    exact (hback a w (hperm.mem_iff.1 hw)).symm.trans (hback a v hv)
  · have hfree : ∀ v, (a, v) ∉ cells := fun v hv => hwritten ⟨v, hv⟩
    rw [read_writeCells_of_not_mem hm hfree, read_writeCells_of_not_mem hm fun v hv => hfree v (hperm.mem_iff.1 hv)]

theorem paintPacked_eq_packedDriver_of_perm {c : Command} (hwidth : 4 * c.W ≤ c.bufs.dst0Stride.toNat) (p : Params)
    {m : Memory} (hm : m.wf = true) {l : List (Nat × Nat)} (hperm : l.Perm c.pixels) :
    c.paintPacked p m l (c.zeroFill m) = c.packedDriver p m := by
  rw [Command.packedDriver, paintPacked_eq_writeCells, paintPacked_eq_writeCells]
  refine writeCells_eq_of_perm (c.zeroFill_wf hm) (hperm.flatMap_right _) fun a v hcell => ?_
  rw [← paintPacked_eq_writeCells, ← Command.packedDriver]
  obtain ⟨row, j, hrow, hj, _, rfl, rfl⟩ := (mem_packedCells_iff p c m a v).1 hcell
  exact read_packedDriver hwidth p hm hrow (Nat.lt_of_lt_of_le hj hwidth)

theorem paintPlanar_eq_planarDriver_of_perm {p : Params} {devices : List Region} {c : Command}
    (hduties : c.hostDuties p devices = true) (hplanar : c.active.packed = false) {m : Memory} (hm : m.wf = true)
    {l : List (Nat × Nat)} (hperm : l.Perm c.pixels) : c.paintPlanar p m l m = c.planarDriver p m := by
  rw [Command.planarDriver, paintPlanar_eq_writeCells, paintPlanar_eq_writeCells]
  refine writeCells_eq_of_perm hm (hperm.flatMap_right _) fun a v hcell => ?_
  rw [← paintPlanar_eq_writeCells, ← Command.planarDriver]
  obtain ⟨k, i, x, hi, hx, rfl, rfl⟩ := (mem_planarCells_iff p c m a v).1 hcell
  exact read_planarDriver hduties hplanar hm k hi hx

/-- Settles O22: the reference order lets every written cell be read back, so any order does. -/
theorem pixelOrderDoesNotMatter : Obligations.PixelOrderDoesNotMatter := by
  intro p devices c m l hm hduties hperm
  obtain ⟨hstrides, _⟩ := (c.hostDuties_iff p devices).1 hduties
  constructor
  · intro hpacked
    rw [Command.drive, if_pos hpacked]
    exact paintPacked_eq_packedDriver_of_perm (((stridesOk_iff c).1 hstrides).1 hpacked) p hm hperm
  · intro hplanar
    rw [Command.drive, if_neg (by simp [hplanar])]
    exact paintPlanar_eq_planarDriver_of_perm hduties hplanar hm hperm

end Sys2Proof.Proofs.Conversion
end

section
/-! PROOFS. The numbers of the pixel kernel (R161 to R163, R169): the byte that RC makes of a rational, the value of
each class of binary16 patterns, and the channel that a raw operand gives. -/

namespace Sys2Proof.Proofs.KernelNumbers

open Sys2Proof Sys2Proof.Machine

/-! ### Saturation -/

/-- R9's clamp, read back from the byte. -/
theorem toNat_clampByte (n : Int) : ((clampByte n).toNat : Int) = min 255 (max 0 n) := by
  rw [clampByte, BitVec.toNat_ofNat, Nat.mod_eq_of_lt (by omega)]
  omega

/-- The clamp leaves a byte's value alone. -/
theorem toNat_clampByte_of_mem {n : Int} (hlow : 0 ≤ n) (hhigh : n ≤ 255) : ((clampByte n).toNat : Int) = n := by
  rw [toNat_clampByte]
  omega

theorem clampByte_toNat (b : Byte) : clampByte b.toNat = b := by
  have hlt := b.isLt
  refine BitVec.eq_of_toNat_eq (Int.ofNat.inj ?_)
  exact toNat_clampByte_of_mem (by omega) (by omega)

theorem clampByte_of_nonpos {n : Int} (h : n ≤ 0) : clampByte n = 0 := by
  rw [clampByte, max_eq_left h]
  rfl

theorem clampByte_of_ge {n : Int} (h : 255 ≤ n) : clampByte n = 255 := by
  rw [clampByte, min_eq_left (le_max_of_le_right h)]
  rfl

/-- Truncation and floor part ways on negative values only, and those saturate to 0 (R169). -/
theorem clampByte_tdiv (a : Int) {d : Int} (hd : 0 < d) : clampByte (a.tdiv d) = clampByte (a / d) := by
  rcases le_or_gt 0 a with ha | ha
  · rw [Int.tdiv_eq_ediv_of_nonneg ha]
  · have htrunc : a.tdiv d ≤ 0 := by
      have hneg : -(a.tdiv d) = (-a) / d := by rw [← Int.neg_tdiv, Int.tdiv_eq_ediv_of_nonneg (by omega)]
      have hnonneg : 0 ≤ (-a) / d := Int.ediv_nonneg (by omega) hd.le
      omega
    rw [clampByte_of_nonpos htrunc, clampByte_of_nonpos (Int.ediv_neg_of_neg_of_pos ha hd).le]

/-! ### RC -/

/-- RC of a fraction, on its numerator and denominator. -/
theorem rc_fin (n : Byte) (q : Frac) : rc n (.fin q) = clampByte ((2 * q.num + q.den).tdiv (2 * q.den)) := by
  rw [rc, Frac.add, Frac.trunc]
  push_cast
  rw [mul_comm q.num, one_mul, mul_comm (q.den : Int)]

/-- RC as round-half-up followed by saturation (R169). -/
theorem rc_fin_floor (n : Byte) {q : Frac} (hq : 0 < q.den) :
    rc n (.fin q) = clampByte ((2 * q.num + q.den) / (2 * q.den)) := by
  rw [rc_fin, clampByte_tdiv _ (by omega)]

/-- NAN_BYTE shows only where the value is NaN (R170). -/
theorem rc_of_ne_nan {t : Ext} (ht : t ≠ .nan) (n m : Byte) : rc n t = rc m t := by
  cases t with
  | nan => exact absurd rfl ht
  | fin q => rfl
  | posInf => rfl
  | negInf => rfl

/-- A byte's own value is rounded to that byte. -/
theorem rc_ofInt_toNat (n b : Byte) : rc n (.fin (Frac.ofInt b.toNat)) = b := by
  rw [rc_fin_floor n (Frac.ofInt_den_pos _), Frac.ofInt]
  have hround : (2 * (b.toNat : Int) + (1 : Nat)) / (2 * (1 : Nat)) = b.toNat := by omega
  rw [hround, clampByte_toNat]

/-- Settles O27. -/
theorem roundHalfUpAndSaturate : Obligations.RoundHalfUpAndSaturate := by
  intro nanByte
  refine ⟨fun q hq => ⟨rc_fin _ q, Int.tdiv_eq_ediv_of_nonneg, rc_fin_floor _ hq, fun habove => ?_, fun hbelow => ?_⟩,
    rfl, rfl, rfl⟩
  · rw [rc_fin_floor _ hq]
    exact clampByte_of_ge ((Int.le_ediv_iff_mul_le (by omega)).2 (by omega))
  · rw [rc_fin_floor _ hq]
    have hhalf : (2 * q.num + q.den) / (2 * q.den) < 1 := Int.ediv_lt_of_lt_mul (by omega) (by omega)
    exact clampByte_of_nonpos (by omega)

/-! ### Binary16 patterns -/

theorem dec16_subnormal {raw : BitVec 16} (he : (raw.extractLsb' 10 5).toNat = 0) :
    dec16 raw = .fin (Frac.dyadic (signed (raw.getLsbD 15) (raw.extractLsb' 0 10).toNat) (-24)) := by
  simp only [dec16, if_pos he]

theorem dec16_normal {raw : BitVec 16} (hlow : 1 ≤ (raw.extractLsb' 10 5).toNat)
    (hhigh : (raw.extractLsb' 10 5).toNat ≤ 30) :
    dec16 raw = .fin (Frac.dyadic (signed (raw.getLsbD 15) (1024 + (raw.extractLsb' 0 10).toNat))
      (((raw.extractLsb' 10 5).toNat : Int) - 25)) := by
  simp only [dec16]
  rw [if_neg (by omega), if_pos (by omega)]

theorem dec16_infinity {raw : BitVec 16} (he : (raw.extractLsb' 10 5).toNat = 31)
    (hf : (raw.extractLsb' 0 10).toNat = 0) : dec16 raw = Ext.inf (raw.getLsbD 15) := by
  simp only [dec16]
  rw [if_neg (by omega), if_neg (by omega), if_pos hf]

theorem dec16_nan {raw : BitVec 16} (he : (raw.extractLsb' 10 5).toNat = 31)
    (hf : (raw.extractLsb' 0 10).toNat ≠ 0) : dec16 raw = .nan := by
  simp only [dec16]
  rw [if_neg (by omega), if_neg (by omega), if_neg hf]

/-- The fraction for `m * 2^(e - j)`, cross-multiplied. -/
theorem dyadic_cross (m : Int) (e j : Nat) :
    (Frac.dyadic m ((e : Int) - j)).num * 2 ^ j = m * 2 ^ e * (Frac.dyadic m ((e : Int) - j)).den := by
  unfold Frac.dyadic
  split
  case isTrue h =>
    obtain ⟨k, rfl⟩ := Nat.exists_eq_add_of_le (show j ≤ e by omega)
    simp [pow_add, mul_comm, mul_left_comm]
  case isFalse h =>
    obtain ⟨k, rfl⟩ := Nat.exists_eq_add_of_le (show e ≤ j by omega)
    simp [pow_add, mul_assoc]

/-- Settles O28, by the class of the exponent. -/
theorem binary16DecodesExactly : Obligations.Binary16DecodesExactly := by
  intro raw neg e f
  refine ⟨fun he => ⟨_, dec16_subnormal he, Frac.dyadic_den_pos _ _, ?_⟩,
    fun hlow hhigh => ⟨_, dec16_normal hlow hhigh, Frac.dyadic_den_pos _ _, ?_⟩, dec16_infinity, dec16_nan⟩
  · have hcross := dyadic_cross (signed neg f) 0 24
    rwa [pow_zero, mul_one] at hcross
  · have hcross := dyadic_cross (signed neg (1024 + f)) e 25
    rw [signed] at hcross
    exact_mod_cast hcross

/-! ### Channels -/

/-- R161: with P = 1 a channel is its low byte. -/
theorem chan_one (raw : Half) : chan 1 raw = .fin (Frac.ofInt (raw.setWidth 8).toNat) := by
  rw [chan, if_pos rfl, BitVec.setWidth_eq_extractLsb' (by decide)]

/-- R163: with P = 2 a channel is 255 times its binary16 value. -/
theorem chan_two (raw : Half) : chan 2 raw = Ext.scale (Frac.ofInt 255) (dec16 raw) :=
  if_neg (by decide)

theorem chan_two_fin {raw : Half} {q : Frac} (h : dec16 raw = .fin q) :
    chan 2 raw = .fin { num := 255 * q.num, den := q.den } := by
  rw [chan_two, h, Ext.scale, Frac.mul, Frac.ofInt, one_mul]

end Sys2Proof.Proofs.KernelNumbers
end

section
/-! PROOFS. The kernel under EXACT on finite channels (R164, R165, R167, R172, R173): each output of the matrix is RC of
one fraction, which gives the integer formula for P = 1, the ranges, and the laws of grey and of the scaling by 255. -/

namespace Sys2Proof.Proofs.KernelMatrix

open Sys2Proof Sys2Proof.Machine Sys2Proof.Proofs.KernelNumbers

/-! ### A row of the matrix as one fraction -/

/-- The row whose coefficients are thousandths. -/
def milliRow (cr cg cb k : Int) : Row := { cr := milli cr, cg := milli cg, cb := milli cb, k := Frac.ofInt k }

theorem rowY_eq : rowY = milliRow 257 504 98 16 := rfl

theorem rowU_eq : rowU = milliRow (-148) (-291) 439 128 := rfl

theorem rowV_eq : rowV = milliRow 439 (-368) (-71) 128 := rfl

/-- The value of a row of thousandths over the denominators of its channels. -/
def rowFrac (cr cg cb k : Int) (r g b : Frac) : Frac where
  num := cr * r.num * g.den * b.den + cg * g.num * r.den * b.den + cb * b.num * r.den * g.den
    + 1000 * k * (r.den * g.den * b.den)
  den := 1000 * (r.den * g.den * b.den)

section
variable {r g b : Frac} (hr : 0 < r.den) (hg : 0 < g.den) (hb : 0 < b.den) (n : Byte) (cr cg cb k : Int)
include hr

include hg hb in
theorem rowFrac_den_pos : 0 < (rowFrac cr cg cb k r g b).den := by
  rw [rowFrac]
  positivity

include hg hb in
/-- The sums of `lin` multiply the denominators up, so the row is put over a smaller one (R167). -/
theorem rc_lin_milliRow :
    rc n (lin (milliRow cr cg cb k) (.fin r) (.fin g) (.fin b)) = rc n (.fin (rowFrac cr cg cb k r g b)) := by
  rw [lin_fin]
  refine rc_congr n ?_ (rowFrac_den_pos hr hg hb cr cg cb k) ?_
  · simp only [milliRow, milli, Frac.mul, Frac.add, Frac.ofInt]
    positivity
  · simp only [milliRow, milli, Frac.mul, Frac.add, Frac.ofInt, rowFrac]
    push_cast
    ring

/-- Equal channels bring the sum of the coefficients. -/
theorem rc_lin_grey :
    rc n (lin (milliRow cr cg cb k) (.fin r) (.fin r) (.fin r)) =
      rc n (.fin { num := (cr + cg + cb) * r.num + 1000 * k * r.den, den := 1000 * r.den }) := by
  rw [rc_lin_milliRow hr hr hr]
  refine rc_congr n (rowFrac_den_pos hr hr hr cr cg cb k) (Nat.mul_pos (by decide) hr) ?_
  simp only [rowFrac]
  push_cast
  ring

end

/-- With P = 1 the row is one rounded integer division, saturated. -/
theorem toNat_rc_lin_chan_one (n : Byte) (cr cg cb k : Int) (r g b : Half) :
    ((rc n (lin (milliRow cr cg cb k) (chan 1 r) (chan 1 g) (chan 1 b))).toNat : Int) =
      min 255 (max 0 ((cr * (r.setWidth 8).toNat + cg * (g.setWidth 8).toNat + cb * (b.setWidth 8).toNat
        + 1000 * k + 500) / 1000)) := by
  have hone := Frac.ofInt_den_pos
  rw [chan_one, chan_one, chan_one, rc_lin_milliRow (hone _) (hone _) (hone _),
    rc_fin_floor n (rowFrac_den_pos (hone _) (hone _) (hone _) cr cg cb k), toNat_clampByte]
  congr 2
  simp only [rowFrac, Frac.ofInt]
  omega

/-! ### The statements -/

/-- Settles O33: on bytes no row leaves 0..255, so nothing saturates. -/
theorem matrixPrecision1InIntegers : Obligations.MatrixPrecision1InIntegers := by
  intro nanByte b g r B G R o
  have hB := (b.setWidth 8).isLt
  have hG := (g.setWidth 8).isLt
  have hR := (r.setWidth 8).isLt
  refine ⟨(toNat_rc_lin_chan_one nanByte 257 504 98 16 r g b).trans ?_,
    (toNat_rc_lin_chan_one nanByte (-148) (-291) 439 128 r g b).trans ?_,
    (toNat_rc_lin_chan_one nanByte 439 (-368) (-71) 128 r g b).trans ?_⟩
  all_goals
    simp only [B, G, R]
    omega

/-- Settles O32: the ranges of the integer formula over bytes. -/
theorem matrixRangePrecision1 : Obligations.MatrixRangePrecision1 := by
  intro nanByte
  refine ⟨fun b g r => ?_, rfl, rfl⟩
  obtain ⟨hY, hU, hV⟩ := matrixPrecision1InIntegers nanByte b g r
  have hB := (b.setWidth 8).isLt
  have hG := (g.setWidth 8).isLt
  have hR := (r.setWidth 8).isLt
  simp only
  omega

/-- Settles O31: the coefficients of U and of V add up to 0, those of Y to 0.859. -/
theorem greyLaw : Obligations.GreyLaw := by
  intro nanByte P raw v hv o
  have hden := chan_den_pos hv
  have hchroma : ∀ cr cg cb : Int, cr + cg + cb = 0 →
      rc nanByte (lin (milliRow cr cg cb 128) (chan P raw) (chan P raw) (chan P raw)) = 128 := by
    intro cr cg cb hsum
    rw [hv, rc_lin_grey hden, hsum, ← rc_ofInt_toNat nanByte 128]
    refine rc_congr nanByte (Nat.mul_pos (by decide) hden) (Frac.ofInt_den_pos _) ?_
    simp [Frac.ofInt]
    ring
  refine ⟨hchroma _ _ _ (by decide), hchroma _ _ _ (by decide), ?_⟩
  have hluma := rc_lin_grey hden nanByte 257 504 98 16
  rwa [← hv] at hluma

theorem rc_lin_chan_two (n : Byte) (cr cg cb k : Int) {r g b : Half} {qr qg qb : Frac} (hr : dec16 r = .fin qr)
    (hg : dec16 g = .fin qg) (hb : dec16 b = .fin qb) :
    rc n (lin (milliRow cr cg cb k) (chan 2 r) (chan 2 g) (chan 2 b)) = rc n (.fin
      { num := 255 * (cr * qr.num * qg.den * qb.den + cg * qg.num * qr.den * qb.den + cb * qb.num * qr.den * qg.den)
          + 1000 * k * (qr.den * qg.den * qb.den)
        den := 1000 * (qr.den * qg.den * qb.den) }) := by
  have hr := chan_two_fin hr
  have hg := chan_two_fin hg
  have hb := chan_two_fin hb
  rw [hr, hg, hb, rc_lin_milliRow (chan_den_pos hr) (chan_den_pos hg) (chan_den_pos hb), rowFrac]
  congr 3
  ring

/-- RC of a channel with P = 2, by the class of its pattern (R163, R169, R170). -/
theorem rc_chan_two (n : Byte) (raw : Half) :
    (∀ q, dec16 raw = .fin q → rc n (chan 2 raw) = rc n (.fin { num := 255 * q.num, den := q.den }))
      ∧ (dec16 raw = .posInf → rc n (chan 2 raw) = 255) ∧ (dec16 raw = .negInf → rc n (chan 2 raw) = 0)
      ∧ (dec16 raw = .nan → rc n (chan 2 raw) = n) := by
  refine ⟨fun q h => by rw [chan_two_fin h], fun h => ?_, fun h => ?_, fun h => ?_⟩
  all_goals
    rw [chan_two, h]
    rfl

/-- Settles O30. -/
theorem precision2KernelScalesBy255 : Obligations.Precision2KernelScalesBy255 := by
  refine ⟨fun n b g r => ⟨rc_chan_two n r, rc_chan_two n g, rc_chan_two n b⟩, fun n => rfl,
    fun n b g r qb qg qr hb hg hr => ?_⟩
  exact ⟨rc_lin_chan_two n _ _ _ _ hr hg hb, rc_lin_chan_two n _ _ _ _ hr hg hb, rc_lin_chan_two n _ _ _ _ hr hg hb⟩

end Sys2Proof.Proofs.KernelMatrix
end

section
/-! PROOFS. The kernel's infinities and NaN under EXACT (R166, R170, R171): where NAN_BYTE shows, and that a row with
infinite terms goes by their signs. -/

namespace Sys2Proof.Proofs.KernelSpecial

open Sys2Proof Sys2Proof.Machine Sys2Proof.Proofs.Rounding Sys2Proof.Proofs.KernelNumbers

/-! ### The class of a scaled value -/

theorem inf_eq_inf_iff (a b : Bool) : Ext.inf a = Ext.inf b ↔ a = b := ⟨inf_injective, congrArg Ext.inf⟩

theorem inf_false : Ext.inf false = .posInf := rfl

theorem inf_true : Ext.inf true = .negInf := rfl

theorem inf_ne_nan (b : Bool) : Ext.inf b ≠ .nan := by cases b <;> nofun

theorem scale_eq_nan_iff (c : Frac) (x : Ext) : Ext.scale c x = .nan ↔ x = .nan := by
  cases x with
  | nan => exact iff_of_true rfl rfl
  | fin q => exact iff_of_false nofun nofun
  | posInf => exact iff_of_false (inf_ne_nan _) nofun
  | negInf => exact iff_of_false (inf_ne_nan _) nofun

/-- The sign test of a nonzero coefficient, both ways. -/
theorem decide_neg_eq_not_decide_pos {a : Int} (ha : a ≠ 0) : decide (a < 0) = !decide (0 < a) := by
  rw [← decide_not, decide_eq_decide]
  omega

/-- Turning a sign by a coefficient's sign is undone by turning it again. -/
theorem beq_eq_iff_eq_beq (a p s : Bool) : (a == p) = s ↔ a = (s == p) := by
  revert a p s
  decide

/-- A coefficient keeps the sign of an infinity or turns it round (R166). -/
theorem scale_inf {c : Frac} (hc : c.num ≠ 0) (s : Bool) :
    Ext.scale c (Ext.inf s) = Ext.inf (s == decide (0 < c.num)) := by
  cases s with
  | false => exact (congrArg Ext.inf (decide_neg_eq_not_decide_pos hc)).trans (by rw [Bool.false_beq])
  | true => exact congrArg Ext.inf (Bool.true_beq _).symm

/-- An infinite term of a row comes from an infinite channel. -/
theorem scale_eq_inf_iff {c : Frac} (hc : c.num ≠ 0) (x : Ext) (s : Bool) :
    Ext.scale c x = Ext.inf s ↔ x = Ext.inf (s == decide (0 < c.num)) := by
  have hinf : ∀ a, Ext.scale c (Ext.inf a) = Ext.inf s ↔ Ext.inf a = Ext.inf (s == decide (0 < c.num)) := by
    intro a
    rw [scale_inf hc, inf_eq_inf_iff, inf_eq_inf_iff, beq_eq_iff_eq_beq]
  cases x with
  | nan => exact iff_of_false (inf_ne_nan s).symm (inf_ne_nan _).symm
  | fin q => exact iff_of_false (inf_ne_fin s _).symm (inf_ne_fin _ q).symm
  | posInf => exact hinf false
  | negInf => exact hinf true

theorem chan_two_eq_nan_iff (raw : Half) : chan 2 raw = .nan ↔ dec16 raw = .nan := by
  rw [chan_two, scale_eq_nan_iff]

theorem chan_two_eq_inf_iff (raw : Half) (s : Bool) : chan 2 raw = Ext.inf s ↔ dec16 raw = Ext.inf s := by
  rw [chan_two, scale_eq_inf_iff (by decide), show decide (0 < (Frac.ofInt 255).num) = true from rfl, beq_true]

/-! ### Where NAN_BYTE shows -/

theorem lin_of_nan (c : Row) {r g b : Ext} (h : r = .nan ∨ g = .nan ∨ b = .nan) : lin c r g b = .nan := if_pos h

/-- One lane: NAN_BYTE for NaN, and no dependence on it otherwise. -/
theorem rc_nan_or_independent (n : Byte) (t : Ext) : if t = .nan then rc n t = n else rc n t = rc 0 t := by
  split
  case isTrue ht => rw [ht, rc]
  case isFalse ht => exact rc_of_ne_nan ht n 0

/-- The same lane by lane in pass-through, where a lane is NaN with its own channel (R165). -/
theorem rc_chan_two_nan_or_independent (n : Byte) (raw : Half) :
    if dec16 raw = .nan then rc n (chan 2 raw) = n else rc n (chan 2 raw) = rc 0 (chan 2 raw) := by
  simp only [← chan_two_eq_nan_iff]
  exact rc_nan_or_independent n _

/-- Bytes as channels are finite, and so is every row over them. -/
theorem kernelExact_one_independent (n : Byte) (V : Bool) (b g r : Half) :
    kernelExact n 1 V b g r = kernelExact 0 1 V b g r := by
  have hlane : ∀ q, rc n (.fin q) = rc 0 (.fin q) := fun q => rc_of_ne_nan (by simp) n 0
  cases V <;> simp only [kernelExact, chan_one, lin_fin, hlane]

theorem kernelExact_of_nan_channel (n : Byte) {b g r : Half} (h : dec16 b = .nan ∨ dec16 g = .nan ∨ dec16 r = .nan) :
    kernelExact n 2 true b g r = { o0 := n, o1 := n, o2 := n } := by
  have hnan : chan 2 r = .nan ∨ chan 2 g = .nan ∨ chan 2 b = .nan := by
    simp only [chan_two_eq_nan_iff]
    tauto
  simp only [kernelExact, if_true, lin_of_nan _ hnan, rc]

/-- Settles O34. -/
theorem nanByteShowsOnlyForNan : Obligations.NanByteShowsOnlyForNan :=
  ⟨kernelExact_one_independent, fun n _ _ _ h => kernelExact_of_nan_channel n h,
    fun n _ _ _ => ⟨rc_nan_or_independent n _, rc_nan_or_independent n _, rc_nan_or_independent n _⟩,
    fun n b g r => ⟨rc_chan_two_nan_or_independent n r, rc_chan_two_nan_or_independent n g,
      rc_chan_two_nan_or_independent n b⟩,
    fun _ _ _ _ _ _ _ => ⟨rfl, rfl, rfl⟩⟩

/-! ### Rows with infinite terms -/

/-- The result `t` of a row goes by the signs of its infinite terms among `x`, `y` and `z` (R166). -/
def FollowsTerms (x y z t : Ext) : Prop :=
  let up : Prop := x = .posInf ∨ y = .posInf ∨ z = .posInf
  let down : Prop := x = .negInf ∨ y = .negInf ∨ z = .negInf
  (up → down → t = .nan) ∧ (up → ¬down → t = .posInf) ∧ (down → ¬up → t = .negInf)

theorem lin_followsTerms (c : Row) {r g b : Ext} (hr : r ≠ .nan) (hg : g ≠ .nan) (hb : b ≠ .nan) :
    FollowsTerms (Ext.scale c.cr r) (Ext.scale c.cg g) (Ext.scale c.cb b) (lin c r g b) := by
  rw [FollowsTerms, lin, if_neg (by tauto)]
  split
  case h_1 hx hy hz => simp [hx, hy, hz]
  case h_2 => exact ⟨fun hup hdown => if_pos ⟨hup, hdown⟩,
    fun hup hdown => by rw [if_neg (fun h => hdown h.2), if_pos hup],
    fun hdown hup => by rw [if_neg (fun h => hup h.1), if_neg hup]⟩

/-- Where the terms have the signs of the channels, turned round by a negative coefficient, and RC saturates, the output
is as `infiniteRow` says. -/
theorem infiniteRow_of_followsTerms {x y z t r g b : Ext} {pr pg pb : Bool} {n out : Byte}
    (hx : ∀ s, x = Ext.inf s ↔ r = Ext.inf (s == pr)) (hy : ∀ s, y = Ext.inf s ↔ g = Ext.inf (s == pg))
    (hz : ∀ s, z = Ext.inf s ↔ b = Ext.inf (s == pb)) (h : FollowsTerms x y z t) (hnan : t = .nan → out = n)
    (hpos : t = .posInf → out = 255) (hneg : t = .negInf → out = 0) : infiniteRow pr pg pb n r g b out := by
  have hup : x = .posInf ∨ y = .posInf ∨ z = .posInf ↔ r = Ext.inf (!pr) ∨ g = Ext.inf (!pg) ∨ b = Ext.inf (!pb) := by
    simpa only [inf_false, Bool.false_beq] using or_congr (hx false) (or_congr (hy false) (hz false))
  have hdown : x = .negInf ∨ y = .negInf ∨ z = .negInf ↔ r = Ext.inf pr ∨ g = Ext.inf pg ∨ b = Ext.inf pb := by
    simpa only [inf_true, Bool.true_beq] using or_congr (hx true) (or_congr (hy true) (hz true))
  simp only [FollowsTerms, hup, hdown] at h
  obtain ⟨hboth, honlyUp, honlyDown⟩ := h
  exact ⟨fun hu hd => hnan (hboth hu hd), fun hu hd => hpos (honlyUp hu hd), fun hd hu => hneg (honlyDown hd hu)⟩

/-- A row under EXACT on the patterns of its channels. -/
theorem infiniteRow_lin {c : Row} (hcr : c.cr.num ≠ 0) (hcg : c.cg.num ≠ 0) (hcb : c.cb.num ≠ 0) {r g b : Half}
    (hr : dec16 r ≠ .nan) (hg : dec16 g ≠ .nan) (hb : dec16 b ≠ .nan) (n : Byte) :
    infiniteRow (decide (0 < c.cr.num)) (decide (0 < c.cg.num)) (decide (0 < c.cb.num)) n (dec16 r) (dec16 g) (dec16 b)
      (rc n (lin c (chan 2 r) (chan 2 g) (chan 2 b))) := by
  have hterm : ∀ {q : Frac}, q.num ≠ 0 → ∀ (raw : Half) (s : Bool),
      Ext.scale q (chan 2 raw) = Ext.inf s ↔ dec16 raw = Ext.inf (s == decide (0 < q.num)) :=
    fun hq raw s => (scale_eq_inf_iff hq _ s).trans (chan_two_eq_inf_iff raw _)
  have hfollows : FollowsTerms _ _ _ _ := lin_followsTerms c (mt (chan_two_eq_nan_iff r).1 hr)
    (mt (chan_two_eq_nan_iff g).1 hg) (mt (chan_two_eq_nan_iff b).1 hb)
  exact infiniteRow_of_followsTerms (hterm hcr r) (hterm hcg g) (hterm hcb b) hfollows (fun h => by rw [h, rc])
    (fun h => by rw [h, rc]) (fun h => by rw [h, rc])

/-- The three rows, with the signs of R164's coefficients. -/
theorem kernelExact_infiniteRows (n : Byte) {b g r : Half} (hb : dec16 b ≠ .nan) (hg : dec16 g ≠ .nan)
    (hr : dec16 r ≠ .nan) :
    infiniteRow true true true n (dec16 r) (dec16 g) (dec16 b) (kernelExact n 2 true b g r).o0
      ∧ infiniteRow false false true n (dec16 r) (dec16 g) (dec16 b) (kernelExact n 2 true b g r).o1
      ∧ infiniteRow true false false n (dec16 r) (dec16 g) (dec16 b) (kernelExact n 2 true b g r).o2 :=
  ⟨infiniteRow_lin (c := rowY) (by decide) (by decide) (by decide) hr hg hb n,
    infiniteRow_lin (c := rowU) (by decide) (by decide) (by decide) hr hg hb n,
    infiniteRow_lin (c := rowV) (by decide) (by decide) (by decide) hr hg hb n⟩

/-- Settles O35: with r = g = +inf the terms of Y only go up, those of U only down, those of V both ways. -/
theorem oppositeInfinitiesGiveNanByte : Obligations.OppositeInfinitiesGiveNanByte := by
  refine ⟨fun n b g r => kernelExact_infiniteRows n, fun n b q hq => ?_⟩
  have hinf : dec16 0x7C00 = Ext.inf false := by decide
  have hrows := kernelExact_infiniteRows n (b := b) (g := 0x7C00) (r := 0x7C00) (by simp [hq]) (by decide) (by decide)
  simp only [hq, hinf, infiniteRow, inf_eq_inf_iff] at hrows
  obtain ⟨⟨_, hY, _⟩, ⟨_, _, hU⟩, ⟨hV, _, _⟩⟩ := hrows
  have hfinite : ∀ s, Ext.fin q ≠ Ext.inf s := fun s => (inf_ne_fin s q).symm
  exact congr (congr (congrArg Pixel.mk (hY (by simp) (by simp [hfinite]))) (hU (by simp) (by simp [hfinite])))
    (hV (by simp) (by simp))

end Sys2Proof.Proofs.KernelSpecial
end

section
/-! PROOFS. The arithmetic of BINARY32 (R10, R168): `f32` depends on the value of a fraction alone and keeps small
values small, products and sums follow IEEE 754's special values (log entry 11), and the coefficients are rounded decimals. -/

namespace Sys2Proof.Proofs.Binary32

open Sys2Proof Sys2Proof.Machine Sys2Proof.Proofs.Rounding
open Sys2Proof.Proofs.KernelNumbers Sys2Proof.Proofs.KernelSpecial

/-! ### `f32` on fractions of one value -/

/-- Only one exponent brackets a value. -/
theorem exponent_unique {x : ℚ} {a b : ℤ} (ha : (2 : ℚ) ^ a ≤ x ∧ x < 2 ^ (a + 1))
    (hb : (2 : ℚ) ^ b ≤ x ∧ x < 2 ^ (b + 1)) : a = b := by
  have hab := (zpow_lt_zpow_iff_right₀ (one_lt_two (α := ℚ))).1 (ha.1.trans_lt hb.2)
  have hba := (zpow_lt_zpow_iff_right₀ (one_lt_two (α := ℚ))).1 (hb.1.trans_lt ha.2)
  omega

theorem floorLog2_mul_left {k n d : ℕ} (hk : 0 < k) (hn : n ≠ 0) (hd : d ≠ 0) :
    floorLog2 (k * n) (k * d) = floorLog2 n d := by
  have hscaled := floorLog2_bracket (Nat.mul_ne_zero hk.ne' hn) (Nat.mul_ne_zero hk.ne' hd)
  have hratio : ((k * n : ℕ) / (k * d : ℕ) : ℚ) = n / d := by
    push_cast
    exact mul_div_mul_left _ _ (by exact_mod_cast hk.ne')
  rw [hratio] at hscaled
  exact exponent_unique hscaled (floorLog2_bracket hn hd)

theorem roundHalfEven_mul_left {k : ℕ} (hk : 0 < k) (N D : ℕ) : roundHalfEven (k * N) (k * D) = roundHalfEven N D := by
  have hgt : 2 * (k * (N % D)) > k * D ↔ 2 * (N % D) > D := by
    rw [Nat.mul_left_comm]
    exact Nat.mul_lt_mul_left hk
  have htie : (2 * (k * (N % D)) == k * D) = (2 * (N % D) == D) := by
    rw [Nat.mul_left_comm, Bool.eq_iff_iff, beq_iff_eq, beq_iff_eq]
    exact Nat.mul_right_inj hk.ne'
  simp only [roundHalfEven, Nat.mul_div_mul_left _ _ hk, Nat.mul_mod_mul_left, hgt, htie]

/-- A common factor of numerator and denominator does not change the rounding. -/
theorem f32_mul_left {k : ℕ} (hk : 0 < k) {x : Frac} (hx : 0 < x.den) :
    f32 { num := k * x.num, den := k * x.den } = f32 x := by
  have hneg : (k * x.num < 0) ↔ x.num < 0 := by
    rw [mul_neg_iff]
    omega
  by_cases hnum : x.num.natAbs = 0
  · simp only [f32, Int.natAbs_mul, hnum, mul_zero, if_true]
  · have hscaled : k * x.num.natAbs ≠ 0 := Nat.mul_ne_zero hk.ne' hnum
    simp only [f32, Int.natAbs_mul, Int.natAbs_natCast, if_neg hnum, if_neg hscaled, floorLog2_mul_left hk hnum hx.ne',
      Nat.mul_assoc, roundHalfEven_mul_left hk, hneg]

/-! ### Small values stay finite -/

/-- A finite value of magnitude at most `B`. -/
def IsWithin (B : ℚ) (e : Ext) : Prop := ∃ y, e = .fin y ∧ 0 < y.den ∧ |y.toRat| ≤ B

theorem isWithin_ne_inf {B : ℚ} {e : Ext} (h : IsWithin B e) (s : Bool) : e ≠ Ext.inf s := by
  obtain ⟨y, rfl, _⟩ := h
  exact (inf_ne_fin s y).symm

/-- Rounding below the overflow bound is finite, and at worst doubles the magnitude: 0 is at most as near as the
result. -/
theorem f32_isWithin {x : Frac} (hx : 0 < x.den) {B : ℚ} (hB : |x.toRat| ≤ B) (hsmall : B ≤ 2 ^ 126) :
    IsWithin (2 * B) (f32 x) := by
  have hfinite : ∀ b, f32 x ≠ Ext.inf b := by
    intro b h
    have hbound := (f32_eq_inf_iff hx b).1 h
    have habs := le_abs_self (withSign b x.toRat)
    rw [abs_withSign] at habs
    norm_num at hbound hsmall
    linarith
  cases hres : f32 x with
  | fin y =>
    obtain ⟨hden, _, _, _, _, hnear⟩ := f32_fin_nearest hx hres
    have hzero := (hnear 0 ⟨0, 0, by norm_num, by norm_num, by norm_num⟩).1
    rw [sub_zero] at hzero
    have htriangle := abs_sub_abs_le_abs_sub y.toRat x.toRat
    rw [abs_sub_comm] at htriangle
    exact ⟨y, rfl, hden, by linarith⟩
  | posInf => exact absurd hres (hfinite false)
  | negInf => exact absurd hres (hfinite true)
  | nan => exact absurd hres (f32_ne_nan hx)

theorem mul32_isWithin {a b : Ext} {A B : ℚ} (ha : IsWithin A a) (hb : IsWithin B b) (hsmall : A * B ≤ 2 ^ 126) :
    IsWithin (2 * (A * B)) (Ext.mul32 a b) := by
  obtain ⟨x, rfl, hx, hxA⟩ := ha
  obtain ⟨y, rfl, hy, hyB⟩ := hb
  refine f32_isWithin (Frac.mul_den_pos hx hy) ?_ hsmall
  rw [Frac.toRat_mul, abs_mul]
  exact mul_le_mul hxA hyB (abs_nonneg _) ((abs_nonneg _).trans hxA)

theorem add32_isWithin {a b : Ext} {A B : ℚ} (ha : IsWithin A a) (hb : IsWithin B b) (hsmall : A + B ≤ 2 ^ 126) :
    IsWithin (2 * (A + B)) (Ext.add32 a b) := by
  obtain ⟨x, rfl, hx, hxA⟩ := ha
  obtain ⟨y, rfl, hy, hyB⟩ := hb
  refine f32_isWithin (Frac.add_den_pos hx hy) ?_ hsmall
  rw [Frac.toRat_add hx hy]
  exact (abs_add_le _ _).trans (add_le_add hxA hyB)

/-! ### IEEE 754's special values (log entry 11) -/

theorem mul32_fin_inf {x : Frac} (hx : x.num ≠ 0) (s : Bool) :
    Ext.mul32 (.fin x) (Ext.inf s) = Ext.inf (s != decide (x.num < 0)) := by
  cases s with
  | false => exact (if_neg hx).trans (by rw [Bool.false_bne])
  | true =>
    refine (if_neg hx).trans (congrArg Ext.inf ?_)
    rw [decide_neg_eq_not_decide_pos hx, Bool.true_bne, Bool.not_not]

theorem mul32_inf_fin {x : Frac} (hx : x.num ≠ 0) (s : Bool) :
    Ext.mul32 (Ext.inf s) (.fin x) = Ext.inf (s != decide (x.num < 0)) := by
  rw [← mul32_fin_inf hx]
  cases s <;> rfl

theorem mul32_zero_inf {x : Frac} (hx : x.num = 0) (s : Bool) :
    Ext.mul32 (.fin x) (Ext.inf s) = .nan ∧ Ext.mul32 (Ext.inf s) (.fin x) = .nan := by
  cases s <;> exact ⟨if_pos hx, if_pos hx⟩

theorem add32_fin_inf (x : Frac) (s : Bool) :
    Ext.add32 (.fin x) (Ext.inf s) = Ext.inf s ∧ Ext.add32 (Ext.inf s) (.fin x) = Ext.inf s := by
  cases s <;> exact ⟨rfl, rfl⟩

theorem mul32_inf_inf (a b : Bool) : Ext.mul32 (Ext.inf a) (Ext.inf b) = Ext.inf (a != b) := by
  cases a <;> cases b <;> rfl

/-- Infinities of opposite signs cancel into NaN. -/
theorem add32_inf_inf (a b : Bool) :
    Ext.add32 (Ext.inf a) (Ext.inf b) = if a = b then Ext.inf a else .nan := by
  cases a <;> cases b <;> rfl

@[simp] theorem mul32_nan_left (e : Ext) : Ext.mul32 .nan e = .nan := by cases e <;> rfl

@[simp] theorem mul32_nan_right (e : Ext) : Ext.mul32 e .nan = .nan := by cases e <;> rfl

@[simp] theorem add32_nan_left (e : Ext) : Ext.add32 .nan e = .nan := by cases e <;> rfl

@[simp] theorem add32_nan_right (e : Ext) : Ext.add32 e .nan = .nan := by cases e <;> rfl

/-! ### RC32 -/

/-- What RC32 makes of the rounded `t + 1/2` (R168). -/
def saturate32 (n : Byte) (u : Ext) : Byte :=
  match u with
  | .fin u => clampByte (u.num.tdiv u.den)
  | .posInf => 255
  | .negInf => 0
  | .nan => n

theorem rc32_fin (n : Byte) (q : Frac) :
    rc32 n (.fin q) = saturate32 n (f32 { num := 2 * q.num + q.den, den := 2 * q.den }) := by
  have hsum : Ext.add32 (.fin q) (.fin { num := 1, den := 2 }) =
      f32 { num := 2 * q.num + q.den, den := 2 * q.den } := by
    rw [Ext.add32, Frac.add, mul_comm q.den 2]
    congr 2
    push_cast
    ring
  rw [← hsum, rc32]
  · cases Ext.add32 (.fin q) (.fin { num := 1, den := 2 }) <;> rfl
  · nofun

theorem clampByte_tdiv_eq_floor {q : Frac} (hq : 0 < q.den) : clampByte (q.num.tdiv q.den) = clampByte ⌊q.toRat⌋ := by
  rw [clampByte_tdiv _ (by omega), Frac.toRat, Rat.floor_intCast_div_natCast]

/-- A byte's own value plus 1/2 is a binary32 value, so RC32 gives the byte back. -/
theorem rc32_ofInt_toNat (n b : Byte) : rc32 n (.fin (Frac.ofInt b.toNat)) = b := by
  have hlt : b.toNat < 256 := b.isLt
  have hval : ({ num := 2 * (Frac.ofInt b.toNat).num + (Frac.ofInt b.toNat).den
                 den := 2 * (Frac.ofInt b.toNat).den } : Frac).toRat = (b.toNat : ℚ) + 1 / 2 := by
    simp only [Frac.toRat, Frac.ofInt]
    push_cast
    ring
  have hrep : Representable ((b.toNat : ℚ) + 1 / 2) :=
    ⟨2 * b.toNat + 1, -1, abs_lt.2 ⟨by omega, by omega⟩, by norm_num, by push_cast; ring⟩
  have hsmall : |(b.toNat : ℚ) + 1 / 2| < 2 ^ 128 - 2 ^ 103 := by
    have hlt : (b.toNat : ℚ) < 256 := by exact_mod_cast hlt
    rw [abs_of_pos (by positivity)]
    norm_num
    linarith
  obtain ⟨y, hy, hden, hyval⟩ := f32_exact (Nat.mul_pos two_pos (Frac.ofInt_den_pos _)) (hval ▸ hrep) (hval ▸ hsmall)
  have hfloor : ⌊(b.toNat : ℚ) + 1 / 2⌋ = b.toNat := by
    rw [Int.floor_eq_iff]
    constructor <;> push_cast <;> linarith
  rw [rc32_fin, hy, saturate32, clampByte_tdiv_eq_floor hden, hyval, hval, hfloor, clampByte_toNat]

/-! ### Channels -/

/-- R168: with P = 1 a channel is its low byte. -/
theorem chan32_one (raw : Half) : chan32 1 raw = .fin (Frac.ofInt (raw.setWidth 8).toNat) := chan_one raw

/-- R168: with P = 2 a channel is 255, the value of 0x437F0000, times its binary16 value. -/
theorem chan32_two (raw : Half) : chan32 2 raw = Ext.mul32 (.fin { num := 65536 * 255, den := 65536 }) (dec16 raw) := by
  have hscale : dec32 0x437F0000 = .fin { num := 65536 * 255, den := 65536 } := by decide
  rw [← hscale]
  exact if_neg (by decide)

theorem chan32_two_fin {raw : Half} {q : Frac} (h : dec16 raw = .fin q) :
    chan32 2 raw = f32 { num := 255 * q.num, den := q.den } := by
  have hfactor := f32_mul_left (k := 65536) (by decide) (chan_den_pos (chan_two_fin h))
  rw [← hfactor, chan32_two, h, Ext.mul32, Frac.mul, mul_assoc]
  rfl

theorem chan32_two_inf {raw : Half} {s : Bool} (h : dec16 raw = Ext.inf s) : chan32 2 raw = Ext.inf s := by
  rw [chan32_two, h, mul32_fin_inf (by decide)]
  exact congrArg Ext.inf (Bool.bne_false _)

theorem chan32_two_nan {raw : Half} (h : dec16 raw = .nan) : chan32 2 raw = .nan := by
  rw [chan32_two, h, mul32_nan_right]

/-! ### The coefficients -/

/-- A value that rounding gives is the rounding of its decimal. -/
theorem isRounded_of_f32_eq {n : Int} {e : Ext} (hn : |(n : ℚ)| ≤ 2 ^ 126) (h : f32 (milli n) = e) : isRounded n e := by
  have hval : |(milli n).toRat| ≤ 2 ^ 126 := by
    rw [Frac.toRat_milli, abs_div, abs_of_pos (by norm_num : (0 : ℚ) < 1000)]
    linarith [abs_nonneg (n : ℚ)]
  obtain ⟨y, hy, hden, _⟩ := f32_isWithin (milli_den_pos n) hval le_rfl
  exact ⟨y, y, hy, h.symm.trans hy, hden, hden, rfl⟩

/-- Settles O36: the model's rounding of each decimal is the pattern. -/
theorem binary32CoefficientsAreRounded : Obligations.Binary32CoefficientsAreRounded := by
  refine ⟨⟨?_, ?_, ?_, ?_⟩, ⟨?_, ?_, ?_, ?_⟩, ⟨?_, ?_, ?_, ?_⟩, ?_, rfl, rfl, rfl⟩
  all_goals exact isRounded_of_f32_eq (by norm_num [abs_le]) (by decide)

end Sys2Proof.Proofs.Binary32
end

section
/-! PROOFS. The kernel under BINARY32 (R168, R170, R171): the order of its roundings, pass-through, and that a row with
infinite terms goes by their signs, because its finite terms are too small to overflow. -/

namespace Sys2Proof.Proofs.Kernel32

open Sys2Proof Sys2Proof.Machine Sys2Proof.Proofs.Rounding
open Sys2Proof.Proofs.KernelNumbers Sys2Proof.Proofs.KernelSpecial Sys2Proof.Proofs.Binary32

/-! ### The order of the roundings -/

/-- Settles O29: under EXACT and under BINARY32 a byte's own value is rounded to that byte. -/
theorem passThroughPrecision1IsIdentity : Obligations.PassThroughPrecision1IsIdentity := by
  intro p b g r
  cases harith : p.arith with
  | exact => simp only [kernel, harith, kernelExact, chan_one, rc_ofInt_toNat, Bool.false_eq_true, if_false]
  | binary32 => simp only [kernel, harith, kernel32, chan32_one, rc32_ofInt_toNat, Bool.false_eq_true, if_false]

/-- Infinities and NaN are channels as they are (R168). -/
theorem chan32_two_special {raw : Half} (h : dec16 raw = .posInf ∨ dec16 raw = .negInf ∨ dec16 raw = .nan) :
    chan32 2 raw = dec16 raw := by
  rcases h with h | h | h
  · exact (chan32_two_inf (s := false) h).trans h.symm
  · exact (chan32_two_inf (s := true) h).trans h.symm
  · exact (chan32_two_nan h).trans h.symm

/-- Settles O37. -/
theorem binary32KernelRoundsInOrder : Obligations.Binary32KernelRoundsInOrder := by
  refine ⟨fun _ _ _ _ _ _ => ⟨rfl, rfl⟩, chan32_one, fun _ _ => chan32_two_fin, fun _ => chan32_two_special,
    fun _ _ => ⟨rfl, rfl⟩, fun n q => ?_, fun _ => ⟨rfl, rfl, rfl, rfl⟩, fun x s => ?_,
    fun a b => ⟨mul32_inf_inf a b, add32_inf_inf a b⟩, fun e => ?_⟩
  · rw [rc32_fin]
    rfl
  · exact ⟨fun hx => ⟨mul32_fin_inf hx s, mul32_inf_fin hx s⟩, fun hx => mul32_zero_inf hx s, add32_fin_inf x s⟩
  · exact ⟨mul32_nan_left e, mul32_nan_right e, add32_nan_left e, add32_nan_right e⟩

/-! ### The terms of a row -/

/-- A coefficient of a row: a nonzero number of magnitude at most 1, `positive` or not. -/
def isCoefficient (positive : Bool) (c : Ext) : Bool :=
  match c with
  | .fin x => decide (0 < x.den ∧ x.num.natAbs ≤ x.den ∧ x.num ≠ 0 ∧ decide (0 < x.num) = positive)
  | _ => false

theorem exists_of_isCoefficient {p : Bool} {c : Ext} (h : isCoefficient p c = true) :
    ∃ x, c = .fin x ∧ x.num ≠ 0 ∧ decide (0 < x.num) = p ∧ IsWithin 1 c := by
  cases c with
  | fin x =>
    obtain ⟨hden, hle, hne, hsign⟩ := of_decide_eq_true h
    refine ⟨x, rfl, hne, hsign, x, rfl, hden, ?_⟩
    have hdenQ : (0 : ℚ) < x.den := by exact_mod_cast hden
    rw [Frac.toRat, abs_div, abs_of_pos hdenQ, div_le_one hdenQ, ← Int.cast_abs, Int.abs_eq_natAbs]
    exact_mod_cast hle
  | posInf => cases h
  | negInf => cases h
  | nan => cases h

/-- A finite channel is far below the overflow bound: binary16 ends below 2^16. -/
theorem chan32_two_isWithin {raw : Half} {q : Frac} (h : dec16 raw = .fin q) : IsWithin (2 ^ 25) (chan32 2 raw) := by
  obtain ⟨i, e, hi, _, he, hq⟩ := dec16_value h
  have hi : |(i : ℚ)| < 2 ^ 11 := by exact_mod_cast hi
  have he : (2 : ℚ) ^ e ≤ 2 ^ (5 : ℤ) := zpow_le_zpow_right₀ one_le_two he
  have hbound : |q.toRat| ≤ 2 ^ 16 := by
    rw [hq, abs_mul, abs_of_pos (show (0 : ℚ) < 2 ^ e by positivity)]
    calc |(i : ℚ)| * 2 ^ e ≤ 2 ^ 11 * 2 ^ (5 : ℤ) := by gcongr
      _ = 2 ^ 16 := by norm_num
  have hval : |({ num := 255 * q.num, den := q.den } : Frac).toRat| ≤ 2 ^ 24 := by
    have hscaled : ({ num := 255 * q.num, den := q.den } : Frac).toRat = 255 * q.toRat := by
      simp only [Frac.toRat]
      push_cast
      ring
    rw [hscaled, abs_mul, abs_of_pos (show (0 : ℚ) < 255 by norm_num)]
    linarith
  rw [chan32_two_fin h, show (2 : ℚ) ^ 25 = 2 * 2 ^ 24 by norm_num]
  exact f32_isWithin (chan_den_pos (chan_two_fin h)) hval (by norm_num)

/-- The channel of a term with its coefficient: a small finite term, or an infinity turned round by a negative
coefficient. -/
theorem term_cases {p : Bool} {c : Ext} (hc : isCoefficient p c = true) {raw : Half} (h : dec16 raw ≠ .nan) :
    (∃ q, dec16 raw = .fin q ∧ IsWithin (2 ^ 26) (Ext.mul32 c (chan32 2 raw)))
      ∨ ∃ s, dec16 raw = Ext.inf s ∧ Ext.mul32 c (chan32 2 raw) = Ext.inf (s == p) := by
  obtain ⟨x, rfl, hne, rfl, hwithin⟩ := exists_of_isCoefficient hc
  have hinf : ∀ s, dec16 raw = Ext.inf s →
      Ext.mul32 (.fin x) (chan32 2 raw) = Ext.inf (s == decide (0 < x.num)) := by
    intro s hs
    rw [chan32_two_inf hs, mul32_fin_inf hne, decide_neg_eq_not_decide_pos hne]
    cases s <;> simp
  cases hraw : dec16 raw with
  | fin q =>
    have hterm := mul32_isWithin hwithin (chan32_two_isWithin hraw) (by norm_num)
    rw [show (2 : ℚ) * (1 * 2 ^ 25) = 2 ^ 26 by norm_num] at hterm
    exact .inl ⟨q, rfl, hterm⟩
  | posInf => exact .inr ⟨false, rfl, hinf false hraw⟩
  | negInf => exact .inr ⟨true, rfl, hinf true hraw⟩
  | nan => exact absurd hraw h

theorem term_eq_inf_iff {p : Bool} {c : Ext} (hc : isCoefficient p c = true) {raw : Half} (h : dec16 raw ≠ .nan)
    (s : Bool) : Ext.mul32 c (chan32 2 raw) = Ext.inf s ↔ dec16 raw = Ext.inf (s == p) := by
  rcases term_cases hc h with ⟨q, hq, hterm⟩ | ⟨s', hs, hterm⟩
  · rw [hq]
    exact iff_of_false (isWithin_ne_inf hterm s) (inf_ne_fin _ q).symm
  · rw [hs, hterm, inf_eq_inf_iff, inf_eq_inf_iff, beq_eq_iff_eq_beq]

/-! ### Sums of terms -/

/-- The sum `t` of some terms goes by the signs of the infinite ones, where `side s` says that one of them is the
infinity of the sign `s`; with none it is a finite value of magnitude at most `B`. -/
structure SumFollows (B : ℚ) (side : Bool → Prop) (t : Ext) : Prop where
  both : (∀ s, side s) → t = .nan
  only : ∀ s, side s → ¬side (!s) → t = Ext.inf s
  neither : (∀ s, ¬side s) → IsWithin B t

theorem sumFollows_of_isWithin {B : ℚ} {x : Ext} (hx : IsWithin B x) : SumFollows B (fun s => x = Ext.inf s) x where
  both h := absurd (h true) (isWithin_ne_inf hx true)
  only _ h _ := h
  neither _ := hx

theorem sumFollows_inf (B : ℚ) (a : Bool) : SumFollows B (fun s => Ext.inf a = Ext.inf s) (Ext.inf a) where
  both h := absurd (inf_injective ((h true).symm.trans (h false))) (by decide)
  only _ h _ := h
  neither h := absurd rfl (h a)

/-- One more finite term changes an infinite sum no more than NaN. -/
theorem SumFollows.add32_isWithin {A B : ℚ} {side : Bool → Prop} {t x : Ext} (h : SumFollows A side t)
    (hx : IsWithin B x) (hsmall : A + B ≤ 2 ^ 126) :
    SumFollows (2 * (A + B)) (fun s => side s ∨ x = Ext.inf s) (Ext.add32 t x) := by
  simp only [isWithin_ne_inf hx, or_false]
  refine ⟨fun hall => ?_, fun s hs hother => ?_, fun hnone => Binary32.add32_isWithin (h.neither hnone) hx hsmall⟩
  · rw [h.both hall, add32_nan_left]
  · obtain ⟨y, rfl, _⟩ := hx
    rw [h.only s hs hother]
    exact (add32_fin_inf y s).2

/-- One more infinite term leaves a sum of its own sign, cancels one of the other sign into NaN, and decides a finite
one. -/
theorem SumFollows.add32_inf {A : ℚ} {side : Bool → Prop} {t : Ext} (h : SumFollows A side t) (B : ℚ) (a : Bool) :
    SumFollows B (fun s => side s ∨ Ext.inf a = Ext.inf s) (Ext.add32 t (Ext.inf a)) := by
  simp only [inf_eq_inf_iff]
  refine ⟨fun hall => ?_, fun s hs hother => ?_, fun hnone => absurd (.inr rfl) (hnone a)⟩
  · have hother : side (!a) := (hall (!a)).resolve_right (by simp)
    by_cases hown : side a
    · rw [h.both ((Bool.forall_bool' a).2 ⟨hown, hother⟩), add32_nan_left]
    · rw [h.only _ hother (by rwa [Bool.not_not]), add32_inf_inf, if_neg (by simp)]
  · obtain ⟨hother, hne⟩ := not_or.1 hother
    obtain rfl : a = s := by simpa using hne
    by_cases hown : side a
    · rw [h.only _ hown hother, add32_inf_inf, if_pos rfl]
    · obtain ⟨y, hy, _⟩ := h.neither ((Bool.forall_bool' a).2 ⟨hown, hother⟩)
      rw [hy]
      exact (add32_fin_inf y a).1

/-! ### Rows -/

/-- A finite value of magnitude at most `B`, or an infinity. -/
def IsTerm (B : ℚ) (x : Ext) : Prop := IsWithin B x ∨ ∃ s, x = Ext.inf s

theorem isTerm_of_isCoefficient {p : Bool} {c : Ext} (hc : isCoefficient p c = true) {raw : Half}
    (h : dec16 raw ≠ .nan) : IsTerm (2 ^ 26) (Ext.mul32 c (chan32 2 raw)) :=
  (term_cases hc h).imp (fun ⟨_, _, hterm⟩ => hterm) (fun ⟨_, _, hterm⟩ => ⟨_, hterm⟩)

theorem sumFollows_of_isTerm {B : ℚ} {x : Ext} (hx : IsTerm B x) : SumFollows B (fun s => x = Ext.inf s) x := by
  obtain hx | ⟨a, rfl⟩ := hx
  · exact sumFollows_of_isWithin hx
  · exact sumFollows_inf B a

theorem SumFollows.add32 {A B : ℚ} {side : Bool → Prop} {t x : Ext} (h : SumFollows A side t) (hx : IsTerm B x)
    (hsmall : A + B ≤ 2 ^ 126) : SumFollows (2 * (A + B)) (fun s => side s ∨ x = Ext.inf s) (Ext.add32 t x) := by
  obtain hx | ⟨a, rfl⟩ := hx
  · exact h.add32_isWithin hx hsmall
  · exact h.add32_inf _ a

/-- The sum of three terms and a small offset, in R168's order. -/
theorem followsTerms_add32 {x y z k : Ext} (hx : IsTerm (2 ^ 26) x) (hy : IsTerm (2 ^ 26) y) (hz : IsTerm (2 ^ 26) z)
    (hk : IsWithin (2 ^ 26) k) : FollowsTerms x y z (Ext.add32 (Ext.add32 (Ext.add32 x y) z) k) := by
  have hterms := ((sumFollows_of_isTerm hx).add32 hy (by norm_num)).add32 hz (by norm_num)
  have hsum := hterms.add32_isWithin hk (by norm_num)
  simp only [isWithin_ne_inf hk, or_false, or_assoc] at hsum
  exact ⟨fun hup hdown => hsum.both (Bool.forall_bool.2 ⟨hup, hdown⟩), hsum.only false, hsum.only true⟩

/-- A row under BINARY32 on the patterns of its channels. -/
theorem infiniteRow_lin32 {c : Row32} {pr pg pb : Bool} (h0 : isCoefficient pr c.c0 = true)
    (h1 : isCoefficient pg c.c1 = true) (h2 : isCoefficient pb c.c2 = true) (hk : IsWithin (2 ^ 26) c.k) {r g b : Half}
    (hr : dec16 r ≠ .nan) (hg : dec16 g ≠ .nan) (hb : dec16 b ≠ .nan) (n : Byte) :
    infiniteRow pr pg pb n (dec16 r) (dec16 g) (dec16 b) (rc32 n (lin32 c (chan32 2 r) (chan32 2 g) (chan32 2 b))) :=
  infiniteRow_of_followsTerms (term_eq_inf_iff h0 hr) (term_eq_inf_iff h1 hg) (term_eq_inf_iff h2 hb)
    (followsTerms_add32 (isTerm_of_isCoefficient h0 hr) (isTerm_of_isCoefficient h1 hg)
      (isTerm_of_isCoefficient h2 hb) hk)
    (fun h => by rw [lin32, h]; rfl) (fun h => by rw [lin32, h]; rfl) (fun h => by rw [lin32, h]; rfl)

theorem lin32_of_nan (c : Row32) {r g b : Ext} (h : r = .nan ∨ g = .nan ∨ b = .nan) : lin32 c r g b = .nan := by
  rcases h with rfl | rfl | rfl <;> simp [lin32]

/-- The offsets 16 and 128 are small. -/
theorem offset_isWithin : IsWithin (2 ^ 26) (dec32 0x41800000) ∧ IsWithin (2 ^ 26) (dec32 0x43000000) :=
  ⟨⟨{ num := 2 ^ 23, den := 2 ^ 19 }, by decide, by decide, by norm_num [Frac.toRat]⟩,
    ⟨{ num := 2 ^ 23, den := 2 ^ 16 }, by decide, by decide, by norm_num [Frac.toRat]⟩⟩

/-- Settles O38. -/
theorem binary32InfinitiesFollowTheirSigns : Obligations.Binary32InfinitiesFollowTheirSigns := by
  refine ⟨fun n b g r hb hg hr => ?_, fun n b g r h => ?_⟩
  · obtain ⟨h16, h128⟩ := offset_isWithin
    exact ⟨infiniteRow_lin32 (c := row32Y) (by decide) (by decide) (by decide) h16 hr hg hb n,
      infiniteRow_lin32 (c := row32U) (by decide) (by decide) (by decide) h128 hr hg hb n,
      infiniteRow_lin32 (c := row32V) (by decide) (by decide) (by decide) h128 hr hg hb n⟩
  · have hnan : chan32 2 r = .nan ∨ chan32 2 g = .nan ∨ chan32 2 b = .nan := by
      have := h.imp chan32_two_nan (Or.imp chan32_two_nan chan32_two_nan)
      tauto
    simp only [kernel32, if_true, lin32_of_nan _ hnan, rc32]

end Sys2Proof.Proofs.Kernel32
end

section
/-! PROOFS. PIX (R43, R44, R65, R175): the word it leaves in PIX_OUT and all that it changes, and that it computes what
CONV computes for the pixel whose raw channels it is given. -/

namespace Sys2Proof.Proofs.PixCommand

open Sys2Proof Sys2Proof.Machine
open Sys2Proof.Proofs.Encoding Sys2Proof.Proofs.Window Sys2Proof.Proofs.KernelNumbers Sys2Proof.Proofs.Binary32

/-! ### PIX_OUT -/

/-- R44: PIX_OUT holds o2 in its lowest byte, then o1 and o0, and 0 in its highest. -/
theorem fieldAt_append_eq_wordOfBytes (o0 o1 o2 : Byte) : fieldAt (o0 ++ o1 ++ o2) 0 = wordOfBytes o2 o1 o0 0 := by
  refine BitVec.eq_of_getLsbD_eq fun i hi => ?_
  rw [getLsbD_fieldAt, getLsbD_wordOfBytes, BitVec.getLsbD_append, BitVec.getLsbD_append]
  have hmiddle : i - 8 < 8 ↔ i < 16 := by omega
  simp only [hi, hmiddle, Nat.zero_le, Nat.sub_zero, Nat.sub_sub, decide_true, Bool.true_and, if_true]
  split_ifs with hlow hmid hhigh
  · rfl
  · rfl
  · rfl
  · rw [BitVec.getLsbD_of_ge o0 _ (by omega)]
    exact BitVec.getLsbD_zero.symm

theorem exec_pix_of_valid {s : State} {c : Command} (hphase : s.phase = .busy c) (hvalid : c.cfgValid = true) :
    exec .pix s = .next { s.completed 0 with pixOut := (c.pixKernel s.params).out } := by
  rw [exec, execPix_busy hphase, if_pos hvalid]
  rfl

/-- Settles O25. -/
theorem pixWritesKernelResult : Obligations.PixWritesKernelResult := by
  intro s c hphase hvalid m o t
  refine ⟨(exec_pix_of_valid hphase hvalid).trans ?_, ?_⟩
  · rw [Pixel.out_eq_append]
    rfl
  · rw [State.pixOutWord, fieldAt_append_eq_wordOfBytes, wordBytes_wordOfBytes]

/-! ### PIX and CONV -/

/-- The mask of R175 and the zero-extension of R65 leave the same byte when P = 1. -/
theorem and_pixMask_one (raw : Half) : raw &&& pixMask 1 = (raw.setWidth 8).setWidth 16 := by
  apply BitVec.eq_of_toNat_eq
  rw [pixMask, if_pos rfl, BitVec.toNat_and, BitVec.toNat_setWidth, BitVec.toNat_setWidth,
    Nat.mod_eq_of_lt (by omega)]
  exact Nat.and_two_pow_sub_one_eq_mod raw.toNat 8

theorem and_pixMask_two (raw : Half) : raw &&& pixMask 2 = raw :=
  BitVec.and_allOnes

/-- Settles O26: the masked operands are the raw channels of R65. -/
theorem pixAgreesWithConv : Obligations.PixAgreesWithConv := by
  rintro p c m i x (⟨hprec, hb, hg, hr⟩ | ⟨hprec, hb, hg, hr⟩)
  · have hP : c.P = 1 := by rw [Command.P, hprec]; rfl
    have hraw : ∀ k, c.raw m i x k = (m.read (c.chanAddr i x k)).setWidth 16 := fun k => if_pos hP
    rw [Command.pixKernel, Command.pixelAt, hprec, and_pixMask_one, and_pixMask_one, and_pixMask_one, hb, hg, hr,
      hraw, hraw, hraw]
  · have hP : c.P ≠ 1 := by rw [Command.P, hprec]; decide
    have hraw : ∀ k, c.raw m i x k = m.read (c.chanAddr i x k + 1) ++ m.read (c.chanAddr i x k) :=
      fun k => (if_neg hP).trans (le16_eq_append _ _)
    rw [Command.pixKernel, Command.pixelAt, hprec, and_pixMask_two, and_pixMask_two, and_pixMask_two, hb, hg, hr,
      hraw, hraw, hraw]

end Sys2Proof.Proofs.PixCommand
end

section
/-! PROOFS. Reset (R7, R220, R221): the state after it meets the invariant, every offset reads 0 there, and a reset in
any state loses the destination bytes of the CONV that it abandons, and no other byte. -/

namespace Sys2Proof.Proofs.Reset

open Sys2Proof Sys2Proof.Machine Sys2Proof.Proofs.Window Sys2Proof.Proofs.HostMemory

/-! ### The registers -/

theorem shownWord_reset (r : Reg) : shownWord State.reset r = 0 := by cases r <;> decide

/-- A reset in any state leaves every register as it is right after reset (R220). -/
theorem shownWord_hardReset (s : State) (r : Reg) : shownWord s.hardReset r = shownWord State.reset r := by
  cases r <;> rfl

/-- Where every register shows 0, so does every offset of the window (R45). -/
theorem readReg_eq_zero {s : State} (h : ∀ r, shownWord s r = 0) (o : Nat) : s.readReg o = 0 := by
  rw [readReg_eq]
  cases Reg.ofOffset o with
  | none => rfl
  | some r => exact h r

theorem readReg_hardReset (s : State) (o : Nat) : s.hardReset.readReg o = 0 :=
  readReg_eq_zero (fun r => (shownWord_hardReset s r).trans (shownWord_reset r)) o

/-- Settles O51. -/
theorem resetReadsZeroEverywhere : Obligations.ResetReadsZeroEverywhere :=
  ⟨readReg_eq_zero shownWord_reset, rfl, rfl, rfl⟩

/-- Settles O53. -/
theorem invariantHoldsAtReset : Obligations.InvariantHoldsAtReset where
  params := rfl
  memCanonical := rfl
  memInSpace := rfl
  config := ⟨rfl, rfl, rfl⟩
  err := Nat.zero_le 6
  busyStatus := nofun
  snapshot := nofun
  duties := nofun
  awaited := nofun

/-! ### Memory -/

/-- Each address of the list reads a free draw, one of those that the list uses up (R221): the last that was written to
it. -/
theorem exists_read_drawAt_eq_freeByte {m : Memory} (hm : m.wf = true) (k : Nat) {as : List Nat} {a : Nat}
    (ha : a ∈ as) : ∃ j, k ≤ j ∧ j < k + as.length ∧ (m.drawAt k as).read a = Config.freeByte j := by
  induction as generalizing m k with
  | nil => cases ha
  | cons b as ih =>
    have hm' : (m.write b (Config.freeByte k)).wf = true := Memory.write_wf hm b _
    rw [Memory.drawAt, List.length_cons]
    by_cases hlater : a ∈ as
    · obtain ⟨j, hlow, hhigh, hread⟩ := ih hm' (k + 1) hlater
      exact ⟨j, by omega, by omega, hread⟩
    · obtain rfl : a = b := (List.mem_cons.1 ha).resolve_right hlater
      exact ⟨k, le_rfl, by omega, by rw [Memory.read_drawAt_outside hm' _ hlater, Memory.read_write_same hm]⟩

/-- What stays unspecified after a reset: the bytes of completed CONVs that the host had not seen (R225). -/
theorem hardReset_unspecified_iff (s : State) (a : Nat) :
    s.hardReset.unspecified a = true ↔ a ∈ s.awaitedBytes ∨ a ∈ s.missed := by
  simp [State.unspecified_iff]

/-! ### The reset turn -/

theorem step_of_reset_turn {s : State} {ts : List Turn} (h : s.turns = .reset :: ts) :
    step s = .next ({ s with turns := ts } : State).hardReset := by
  simp only [step, h, takeTurn]

/-- Settles O52: memory is `drawAt` on the bytes of the CONV that the reset abandons. -/
theorem resetSignalState : Obligations.ResetSignalState := by
  intro s ts hturns hmem
  refine ⟨_, step_of_reset_turn hturns, readReg_hardReset _, rfl, rfl, rfl, rfl, rfl, rfl,
    hardReset_unspecified_iff _, fun a hout => ?_, fun a c hphase hconverts ha => ?_⟩
  · refine Memory.read_drawAt_outside hmem _ fun habandoned => ?_
    obtain ⟨c, hphase, hconverts, ha⟩ := (mem_abandoned_iff _ a).1 habandoned
    exact hout c hphase hconverts ha
  · exact exists_read_drawAt_eq_freeByte hmem _ ((mem_abandoned_iff _ a).2 ⟨c, hphase, hconverts, ha⟩)

end Sys2Proof.Proofs.Reset
end

section
/-! PROOFS. When the result of a CONV reaches the host (R78, R225): its destination bytes are unspecified from its
completion to the host's read of STATUS with DONE = 1, and that read delivers them. -/

namespace Sys2Proof.Proofs.Delivery

open Sys2Proof Sys2Proof.Machine
open Sys2Proof.Proofs.Window Sys2Proof.Proofs.HostMemory Sys2Proof.Proofs.CommandPort

/-- A converting CONV that completes has run its driver (R130). -/
theorem eq_converted_of_engineTurn {s t : State} {c : Command} (hphase : s.phase = .busy c)
    (hconverts : c.converts = true) (h : engineTurn s = .next t) : t = s.converted c := by
  rcases engineTurn_converts h with ⟨c', hphase', _, _, rfl⟩ | ⟨hnone, _⟩
  · obtain rfl : c' = c := Phase.busy.inj (hphase'.symm.trans hphase)
    rfl
  · cases hconverts.symm.trans (hnone c hphase)

/-- What is unspecified once a CONV has converted: its own bytes, and those that the host has missed (R78, R225). -/
theorem converted_unspecified_iff (c : Command) (s : State) (a : Nat) :
    (s.converted c).unspecified a = true ↔ a ∈ c.dstBytes ∨ a ∈ s.missed := by
  simp [State.unspecified_iff]

/-- A read of STATUS after a CONV has converted delivers its bytes and no others (R78). -/
theorem converted_statusRead_unspecified_iff (c : Command) (s : State) (a : Nat) :
    (s.converted c).statusRead.unspecified a = true
      ↔ (s.converted c).unspecified a = true ∧ a ∉ c.dstBytes := by
  have hidle : (s.converted c).phase.ownsDst a = false := rfl
  have hawaited : (s.converted c).awaitedBytes = c.dstBytes := rfl
  rw [statusRead_unspecified_iff rfl, hidle, hawaited]
  simp

theorem hostRegRead_status (s : State) :
    hostRegRead { offset := 0x04, bytes := 4 } s = .next (s.statusRead.observe (.reg 0x04 s.statusWord)) :=
  hostRegRead_wf (Reg.access_wf .status) s

/-- Settles O49. -/
theorem convResultUnspecifiedUntilDoneIsRead : Obligations.ConvResultUnspecifiedUntilDoneIsRead := by
  intro s c t hphase hconverts hcompletes
  obtain rfl := eq_converted_of_engineTurn hphase hconverts hcompletes
  have hdelivers := converted_statusRead_unspecified_iff c s
  refine ⟨fun a ha => (converted_unspecified_iff c s a).2 (.inl ha), _, hostRegRead_status _, ?_, ?_,
    statusWord_done _, fun a ha => ?_, fun a ha => ?_⟩
  · exact State.statusRead_mem _
  · exact congrArg (_ :: ·) (State.statusRead_observed _)
  · exact Bool.eq_false_of_not_eq_true fun hunspecified => ((hdelivers a).1 hunspecified).2 ha
  · exact Bool.eq_iff_iff.2 ((hdelivers a).trans (and_iff_left ha))

end Sys2Proof.Proofs.Delivery
end

section
/-! PROOFS. Every BUSY phase ends (R230): with a command in flight the engine's move completes it and a reset abandons
it, so only the host's turns come before, and a host that keeps to the register port never stops in one. -/

namespace Sys2Proof.Proofs.Completion

open Sys2Proof Sys2Proof.Machine
open Sys2Proof.Proofs.Scope Sys2Proof.Proofs.Moves Sys2Proof.Proofs.Invariant Sys2Proof.Proofs.Window
open Sys2Proof.Proofs.Drivers Sys2Proof.Proofs.HostMemory Sys2Proof.Proofs.CommandPort Sys2Proof.Proofs.Conversion
open Sys2Proof.Proofs.Reset

/-! ### The engine's move -/

/-- A command in flight runs to its completion: only a configured CONV has a fault to raise, where a duty fails (R130,
R132). -/
theorem exists_exec_eq_next {s : State} {c : Command} {i : Instr} (hphase : s.phase = .busy c)
    (hduties : i = .conv → c.cfgValid = true → c.hostDuties s.params s.devices = true) :
    ∃ t, exec i s = .next t := by
  cases i with
  | nop => exact ⟨_, execNop_busy hphase⟩
  | cfg =>
    rw [exec, execCfg_busy hphase]
    split <;> exact ⟨_, rfl⟩
  | conv =>
    cases hvalid : c.cfgValid with
    | true => exact ⟨_, exec_conv_eq_converted hphase hvalid (hduties rfl hvalid)⟩
    | false => exact ⟨_, (unconfiguredCommandsDoNothing s c hphase hvalid).1⟩
  | pix =>
    rw [exec, execPix_busy hphase]
    split <;> exact ⟨_, rfl⟩

/-- With a command in flight the engine's move completes it (R90, R230): the invariant gives the duties of a CONV. -/
theorem engineTurn_completes {s : State} (hs : s.Inv) (hbusy : s.phase.isBusy = true) :
    ∃ t, engineTurn s = .next t ∧ t.phase = .idle := by
  obtain ⟨c, hphase⟩ : ∃ c, s.phase = .busy c := by
    cases h : s.phase with
    | idle => simp [h] at hbusy
    | busy c => exact ⟨c, rfl⟩
  have hgoes : ∃ t, engineTurn s = .next t := by
    cases hdecode : decodeFields c.op c.rsv with
    | error e => exact ⟨_, engineTurn_of_illegal hphase hdecode⟩
    | ok i =>
      rw [engineTurn_of_decodes hphase hdecode]
      refine exists_exec_eq_next hphase fun hconv hvalid => hs.duties c hphase ?_
      exact (converts_iff c).2 ⟨hvalid, hconv ▸ hdecode⟩
  obtain ⟨t, ht⟩ := hgoes
  rcases engineTurn_status ht with ⟨hidle, _⟩ | ⟨_, hidle, _⟩
  · simp [hidle] at hbusy
  · exact ⟨t, ht, hidle⟩

/-- Every turn but the host's ends the BUSY phase: the engine's completes the command, a reset abandons it (R220,
R230). -/
theorem step_ends_busy {s : State} (hs : s.Inv) (hbusy : s.phase.isBusy = true)
    (hturn : ∀ ts, s.turns ≠ .host :: ts) : ∃ t, step s = .next t ∧ t.phase = .idle := by
  have hengine : (s.turns = [] ∧ s.phase.isBusy = true ∨ ∃ ts, s.turns = .engine :: ts) →
      ∃ t, step s = .next t ∧ t.phase = .idle := fun h => by
    rw [step_eq_engineTurn h]
    exact engineTurn_completes (inv_of_bookkeeping hs fun _ hc => hc) hbusy
  cases hturns : s.turns with
  | nil => exact hengine (.inl ⟨hturns, hbusy⟩)
  | cons turn ts =>
    cases turn with
    | host => exact absurd hturns (hturn ts)
    | engine => exact hengine (.inr ⟨ts, hturns⟩)
    | reset => exact ⟨_, step_of_reset_turn hturns, rfl⟩

/-! ### The host's move while BUSY -/

/-- The conditions on which the host's action does not stop while BUSY: a well-formed access at the register port (R20,
R207); at memory, addresses of the space that are ordinary memory and that a write may touch (R60, R71, R76). -/
def GoesOn (s : State) : HostAction → Prop
  | .regWrite a _ => a.wf = true
  | .regRead a => a.wf = true
  | .wait => True
  | .memWrite addr bs => ∀ a ∈ addrRange addr bs.length,
      a < 2 ^ s.params.addrW ∧ s.phase.ownsSrc a = false ∧ s.phase.ownsDst a = false ∧ ordinary s.devices a = true
  | .memRead addr n => ∀ a ∈ addrRange addr n, a < 2 ^ s.params.addrW ∧ ordinary s.devices a = true

/-- The conditions speak of the parameters, the platform's map and the command in flight alone. -/
theorem goesOn_congr {s t : State} (hparams : t.params = s.params) (hdevices : t.devices = s.devices)
    (hphase : t.phase = s.phase) (act : HostAction) : GoesOn t act ↔ GoesOn s act := by
  cases act <;> simp only [GoesOn, hparams, hdevices, hphase]

/-- A host write to memory goes on where every address meets its conditions; a write of no byte has no address. -/
theorem exists_hostMemWrite_eq_next {addr : Nat} {bs : List Byte} {s : State}
    (h : GoesOn s (.memWrite addr bs)) : ∃ t, hostMemWrite addr bs s = .next t := by
  simp only [hostMemWrite]
  rw [if_neg, if_neg, if_neg]
  · exact ⟨_, rfl⟩
  all_goals
    rw [List.any_eq_true]
    rintro ⟨a, ha, hbad⟩
    obtain ⟨hspace, hsrc, hdst, hordinary⟩ := h a ha
  · simp [hordinary] at hbad
  · simp [hsrc, hdst] at hbad
  · exact absurd (of_decide_eq_true hbad) (not_le.2 hspace)

/-- A host read of memory goes on exactly where every address is in the space and ordinary memory. -/
theorem exists_hostMemRead_eq_next_iff {addr n : Nat} {s : State} :
    (∃ t, hostMemRead addr n s = .next t) ↔ GoesOn s (.memRead addr n) := by
  simp only [hostMemRead]
  split_ifs with habove hdevice
  · obtain ⟨a, ha, hbad⟩ := List.any_eq_true.1 habove
    exact iff_of_false (by simp) fun h => absurd (of_decide_eq_true hbad) (not_le.2 (h a ha).1)
  · obtain ⟨a, ha, hbad⟩ := List.any_eq_true.1 hdevice
    exact iff_of_false (by simp) fun h => by simp [(h a ha).2] at hbad
  · refine iff_of_true ⟨_, rfl⟩ fun a ha => ?_
    simp only [List.any_eq_true, not_exists, not_and, decide_eq_true_eq, not_le, Bool.not_eq_true',
      Bool.not_eq_false] at habove hdevice
    exact ⟨habove a ha, hdevice a ha⟩

/-- `GoesOn` is exactly what the host's action needs while BUSY. -/
theorem exists_hostAct_eq_next_iff {s : State} (hbusy : s.phase.isBusy = true) (act : HostAction) :
    (∃ t, hostAct act s = .next t) ↔ GoesOn s act := by
  cases act with
  | regWrite a v =>
    cases hwf : a.wf with
    | true => exact iff_of_true ⟨_, hostRegWrite_busy hwf v hbusy⟩ hwf
    | false => simp [hostAct, hostRegWrite_bad hwf, GoesOn, hwf]
  | regRead a =>
    cases hwf : a.wf with
    | true => exact iff_of_true ⟨_, hostRegRead_wf hwf s⟩ hwf
    | false => simp [hostAct, hostRegRead_bad hwf, GoesOn, hwf]
  | wait =>
    refine iff_of_true ?_ trivial
    cases hdone : s.done with
    | true => exact ⟨_, hostWait_of_done hdone⟩
    | false => exact ⟨_, hostWait_of_not_done hdone⟩
  | memWrite addr bs =>
    refine ⟨fun ⟨t, ht⟩ a ha => ?_, exists_hostMemWrite_eq_next⟩
    obtain ⟨hlow, hhigh⟩ := (mem_addrRange addr bs.length a).1 ha
    exact (hostMemWrite_next ht).2 a hlow hhigh
  | memRead addr n => exact exists_hostMemRead_eq_next_iff

/-- A move of the host while BUSY does not stop exactly when its next action, if it has one, goes on. -/
theorem exists_hostTurn_eq_next_iff {s : State} (hbusy : s.phase.isBusy = true) :
    (∃ t, hostTurn s = .next t) ↔ ∀ act ∈ s.host.head?, GoesOn s act := by
  cases hhost : s.host with
  | nil => simp [hostTurn_of_nil hhost]
  | cons act rest =>
    rw [hostTurn_of_cons hhost, exists_hostAct_eq_next_iff (s := { s with host := rest }) hbusy]
    simp only [List.head?_cons, Option.mem_some_iff, forall_eq']
    exact goesOn_congr rfl rfl rfl act

/-- A host's turn that goes on while BUSY leaves the command in flight and the other turns as they are. -/
theorem step_of_host_turn {s : State} {ts : List Turn} (hbusy : s.phase.isBusy = true) (hturns : s.turns = .host :: ts)
    (hgoes : ∃ u, hostTurn s = .next u) : ∃ t, step s = .next t ∧ t.phase = s.phase ∧ t.turns = ts := by
  have hsame : ∃ t, hostTurn { s with turns := ts } = .next t := by
    rw [exists_hostTurn_eq_next_iff hbusy] at hgoes
    rw [exists_hostTurn_eq_next_iff (s := { s with turns := ts }) hbusy]
    exact fun act hact => (goesOn_congr rfl rfl rfl act).2 (hgoes act hact)
  obtain ⟨t, ht⟩ := hsame
  obtain ⟨_, _, _, _, _, _, _, hrest, ⟨hphase, _⟩ | ⟨hidle, _⟩, _⟩ := hostTurn_frame ht
  · refine ⟨t, ?_, hphase, hrest⟩
    rw [step_eq_hostTurn (.inr ⟨ts, hturns⟩), hturns]
    exact ht
  · simp only at hidle
    simp [hidle] at hbusy

/-! ### The bound -/

/-- By induction on the turns: the first one that is not the host's ends the BUSY phase, and so does the step after the
last one. -/
theorem idle_within_turns {s : State} (hs : s.Inv) (hbusy : s.phase.isBusy = true)
    (hhost : ∀ j t, j ≤ s.turns.length → Sys2Proof.core.run j s = .next t → t.phase.isBusy = true →
      (∃ ts, t.turns = .host :: ts) → ∃ u, hostTurn t = .next u) :
    ∃ k t, k ≤ s.turns.length + 1 ∧ Sys2Proof.core.run k s = .next t ∧ t.phase = .idle := by
  by_cases hturn : ∃ ts, s.turns = .host :: ts
  case neg =>
    obtain ⟨t, hstep, hidle⟩ := step_ends_busy hs hbusy (not_exists.1 hturn)
    exact ⟨1, t, by omega, core_run_succ hstep 0, hidle⟩
  case pos =>
    obtain ⟨ts, hturns⟩ := hturn
    obtain ⟨t, hstep, hphase, hrest⟩ :=
      step_of_host_turn hbusy hturns (hhost 0 s (by omega) rfl hbusy ⟨ts, hturns⟩)
    have hlength : s.turns.length = t.turns.length + 1 := by rw [hturns, hrest, List.length_cons]
    obtain ⟨k, u, hk, hrun, hidle⟩ := idle_within_turns (stepKeepsInvariant s t hs hstep) (by rwa [hphase])
      fun j u hj hrun => hhost (j + 1) u (by omega) ((core_run_succ hstep j).trans hrun)
    exact ⟨k + 1, u, by omega, (core_run_succ hstep k).trans hrun, hidle⟩
termination_by s.turns.length

/-! ### A host at the register port -/

/-- An action of the host that is no poll leaves the rest of its program as it is. -/
theorem hostAct_keeps_host {act : HostAction} (hwait : act ≠ .wait) {s t : State} (h : hostAct act s = .next t) :
    t.host = s.host := by
  cases act with
  | regWrite a v =>
    rcases hostRegWrite_next h with rfl | ⟨_, r, _, _, rfl⟩ | ⟨_, _, hissue⟩
    · rfl
    · exact s.storeReg_host r v
    · obtain ⟨rfl, _⟩ := issueCommand_next hissue
      rfl
  | regRead a => rw [hostRegRead_next h]; split <;> simp
  | wait => exact absurd rfl hwait
  | memWrite addr bs => obtain ⟨rfl, _⟩ := hostMemWrite_next h; rfl
  | memRead addr n => rw [hostMemRead_next h]

/-- The host's move takes an action from its program or repeats a poll (R96): it adds none. -/
theorem hostTurn_host_subset {s t : State} (h : hostTurn s = .next t) : t.host ⊆ s.host := by
  rcases hostTurn_next h with ⟨_, rfl⟩ | ⟨act, rest, hhost, hact⟩
  · exact List.Subset.refl _
  · by_cases hwait : act = .wait
    · subst hwait
      obtain ⟨u, hu, hstate, _⟩ := waitPollsUntilDone s rest hhost
      obtain rfl := Host.Outcome.next.inj (hu.symm.trans h)
      rw [hstate]
      cases s.done <;> simp [hhost]
    · rw [hostAct_keeps_host hwait hact, hhost]
      exact List.subset_cons_self act rest

theorem engineTurn_keeps_host {s t : State} (h : engineTurn s = .next t) : t.host = s.host := by
  rcases engineTurn_next h with ⟨_, rfl⟩ | ⟨c, _, ⟨e, _, rfl⟩ | ⟨i, _, hexec⟩⟩
  · rfl
  · rfl
  · obtain ⟨_, _, _, _, _, hhost, _⟩ := exec_frame hexec
    exact hhost

theorem step_host_subset {s t : State} (h : step s = .next t) : t.host ⊆ s.host := by
  rcases step_agent h with ⟨ts, _, rfl⟩ | ⟨_, ts, hengine⟩ | ⟨_, ts, hhost⟩
  · exact List.Subset.refl _
  · exact engineTurn_keeps_host hengine ▸ List.Subset.refl _
  · exact hostTurn_host_subset (s := { s with turns := ts }) hhost

/-- A run that does not stop begins with a step that does not stop. -/
theorem exists_step_of_run_succ {k : Nat} {s t : State} (h : Sys2Proof.core.run (k + 1) s = .next t) :
    ∃ u, step s = .next u ∧ Sys2Proof.core.run k u = .next t := by
  cases hstep : step s with
  | next u => exact ⟨u, rfl, (core_run_succ hstep k).symm.trans h⟩
  | fault f => simp [Host.Core.run, Sys2Proof.core, hstep] at h
  | refused r => simp [Host.Core.run, Sys2Proof.core, hstep] at h

/-- No run adds an action to the host's program. -/
theorem run_host_subset {k : Nat} {s t : State} (h : Sys2Proof.core.run k s = .next t) : t.host ⊆ s.host := by
  induction k generalizing s with
  | zero =>
    obtain rfl := Host.Outcome.next.inj h
    exact List.Subset.refl _
  | succ k ih =>
    obtain ⟨u, hstep, hrun⟩ := exists_step_of_run_succ h
    exact List.Subset.trans (ih hrun) (step_host_subset hstep)

/-- An action at the register port goes on while BUSY (R207). -/
theorem goesOn_of_atRegisterPort (s : State) {act : HostAction} (h : act.atRegisterPort = true) : GoesOn s act := by
  cases act with
  | regWrite | regRead => exact h
  | wait => trivial
  | memWrite | memRead => cases h

/-- Settles O60. -/
theorem everyCommandCompletes : Obligations.EveryCommandCompletes := by
  refine ⟨fun s hs hbusy hhost => idle_within_turns hs hbusy hhost, fun s hs hbusy hport => ?_⟩
  refine idle_within_turns hs hbusy fun j t _ hrun hbusyThen _ => ?_
  refine (exists_hostTurn_eq_next_iff hbusyThen).2 fun act hact => ?_
  exact goesOn_of_atRegisterPort t (hport act (run_host_subset hrun (List.mem_of_mem_head? hact)))

end Sys2Proof.Proofs.Completion
end

section
/-! PROOFS. The model's two choices about where a meaning starts: `withFetchWord` stands for the host's write to CMD
(assumption 3), and `exec` in an idle block issues its word first (assumption 4). -/

namespace Sys2Proof.Proofs.Issue

open Sys2Proof Sys2Proof.Machine
open Sys2Proof.Proofs.CommandPort

/-! ### The placed command -/

/-- The opcode table's numbering at full width is the word itself. -/
theorem tableWord_toNat (w : Word) : tableWord 32 w.toNat = w := by
  rw [tableWord, Nat.mod_eq_of_lt w.isLt, BitVec.ofNat_toNat, BitVec.setWidth_eq]

/-- The turn that a placed word adds is the engine's, so the step is the engine's move on the word as issued. -/
theorem step_withFetchWord (s : State) (w : Word) : step (s.withFetchWord 32 w.toNat) = engineTurn (s.issue w) := by
  rw [State.withFetchWord, step_eq_engineTurn (.inr ⟨s.turns, State.placeCommand_turns s 32 w.toNat⟩),
    State.placeCommand, tableWord_toNat]
  rfl

/-- The engine reads an instruction back from the fields of its issued word (R91, R92). -/
theorem engineTurn_issue_encode (s : State) (i : Instr) :
    engineTurn (s.issue (encode i)) = exec i (s.issue (encode i)) :=
  engineTurn_of_decodes (State.issue_phase s (encode i)) ((Encoding.decodeWord_eq_ok_iff (encode i) i).2 rfl)

/-- Settles O5: the step is the engine's move, and the engine decodes what was encoded. -/
theorem placedCommandRunsNext : Obligations.PlacedCommandRunsNext := fun s i =>
  calc step (s.withFetchWord 32 (encode i).toNat)
    _ = engineTurn (s.issue (encode i)) := step_withFetchWord s (encode i)
    _ = exec i (s.issue (encode i)) := engineTurn_issue_encode s i

/-! ### A meaning asked for in an idle block -/

/-- A command is begun once: what has begun is in flight. -/
theorem begun_begun (s : State) (w : Word) : (s.begun w).begun w = s.begun w := by
  cases h : s.phase with
  | idle => rw [State.begun_idle h, State.begun_busy (State.issue_phase s w)]
  | busy c => rw [State.begun_busy h, State.begun_busy h]

/-- The command in flight once `w` has begun is the one whose rule the engine runs. -/
theorem commandFor_begun (s : State) (w : Word) : (s.begun w).commandFor w = s.commandFor w := by
  cases h : s.phase with
  | idle => rw [State.begun_idle h, State.commandFor_idle h, State.commandFor_busy (State.issue_phase s w)]
  | busy c => rw [State.begun_busy h]

/-- Each meaning begins its own command before anything else, so to begin that command first changes nothing. -/
theorem exec_begun (i : Instr) (s : State) : exec i (s.begun (encode i)) = exec i s := by
  cases i with
  | nop => simp only [exec, execNop, begun_begun]
  | cfg => simp only [exec, execCfg, begun_begun, commandFor_begun]
  | conv => simp only [exec, execConv, begun_begun, commandFor_begun, State.begun_params, State.begun_devices]
  | pix => simp only [exec, execPix, begun_begun, commandFor_begun, State.begun_params]

/-- Settles O6: in an idle block the issue is what begins the command. -/
theorem execInIdleBlockIssuesFirst : Obligations.ExecInIdleBlockIssuesFirst := by
  intro s i hidle
  rw [← State.begun_idle hidle, exec_begun]

end Sys2Proof.Proofs.Issue
end
